-- ==== Sys2Proof/Word.lean ====
section
/-! DEFINITION. The byte and the pixel (spec/00_scope.md R15, R16). -/

namespace Sys2Proof

/-- A byte is 8 bits; bit 0 is its least significant bit (R15). -/
abbrev Byte := BitVec 8

/-- A pixel value is a sequence of `P` bytes, lowest address first; no rule reads it as a number (R16).
That a pixel has `P` bytes is an invariant (`Config.wf`, `State.Inv`). -/
abbrev Pixel := List Byte

end Sys2Proof
end

