-- ==== Sys2Proof/Syntax.lean ====
section
/-! DEFINITION. The orders of the stream as syntax: one constructor per row of spec/opcode_table.json, and the
order kinds the `code` register ranges over (spec/30_encoding.md R61, R62; spec/10_state.md R28). -/

namespace Sys2Proof

/-- The order kinds: the twenty order forms of R62 and INVALID. An extended spelling (`.X`) has the kind of its
short form (R62). -/
inductive OrderCode where
  | bgRun | fgRun | fgbgImage | colorRun | colorImage
  | setFgRun | setFgbgImage | ditheredRun
  | megaBgRun | megaFgRun | megaFgbgImage | megaColorRun | megaColorImage
  | megaSetFgRun | megaSetFgbgImage | megaDitheredRun
  | specialFgbg1 | specialFgbg2 | white | black
  | invalid
  deriving DecidableEq, Repr, Inhabited

/-- An order header. `L` is the length field of a REGULAR (5 bits) or LITE (4 bits) header, `n` the byte that
follows an extended header, `lo` and `hi` the two bytes that follow a mega header, `x` the free bits of the
invalid range 0xA0..0xBF (R61, R75, R82). Operand bytes (R74) are not part of the header: the order's body reads
them from `SRC`. -/
inductive Instr where
  | bgRun (L : BitVec 5)
  | bgRunX (n : Byte)
  | fgRun (L : BitVec 5)
  | fgRunX (n : Byte)
  | fgbgImage (L : BitVec 5)
  | fgbgImageX (n : Byte)
  | colorRun (L : BitVec 5)
  | colorRunX (n : Byte)
  | colorImage (L : BitVec 5)
  | colorImageX (n : Byte)
  | setFgRun (L : BitVec 4)
  | setFgRunX (n : Byte)
  | setFgbgImage (L : BitVec 4)
  | setFgbgImageX (n : Byte)
  | ditheredRun (L : BitVec 4)
  | ditheredRunX (n : Byte)
  | megaBgRun (lo hi : Byte)
  | megaFgRun (lo hi : Byte)
  | megaFgbgImage (lo hi : Byte)
  | megaColorRun (lo hi : Byte)
  | megaColorImage (lo hi : Byte)
  | megaSetFgRun (lo hi : Byte)
  | megaSetFgbgImage (lo hi : Byte)
  | megaDitheredRun (lo hi : Byte)
  | specialFgbg1
  | specialFgbg2
  | white
  | black
  | invalidA0BF (x : BitVec 5)
  | invalidF5
  | invalidFB
  | invalidFC
  | invalidFF
  deriving DecidableEq, Repr

end Sys2Proof
end

