-- ==== Sys2Proof/Config.lean ====
section
/-! DEFINITION. What an instance of the hardware fixes when it is built (spec/00_scope.md R8 to R12), and the free
values: constants without a body for what the spec leaves open (log 9). -/

namespace Sys2Proof

/-- `PIXEL_BYTES`, the pixel width in bytes; the legal values are 1, 2, 3, 4 (R8, log 29). -/
inductive PixelWidth where
  | one | two | three | four
  deriving DecidableEq, Repr

/-- `P`, the number of bytes of a pixel (R8). -/
def PixelWidth.bytes : PixelWidth → Nat
  | .one => 1
  | .two => 2
  | .three => 3
  | .four => 4

/-- One line of the build's encoding table: the header bytes of one order kind (R11). A header byte belongs to the kind when
its bits under `mask` are `pattern`; its bits under `field` hold the short run length. -/
structure EncodingRow where
  code : OrderCode
  pattern : Byte
  mask : Byte
  field : Byte
  deriving DecidableEq, Repr

/-- The row maps header byte `b` to its kind (R11). -/
def EncodingRow.accepts (r : EncodingRow) (b : Byte) : Bool := b &&& r.mask == r.pattern

/-- No header byte is accepted by both rows: their patterns differ at a bit both masks look at. -/
def EncodingRow.disjoint (r q : EncodingRow) : Bool := (r.pattern ^^^ q.pattern) &&& r.mask &&& q.mask != 0#8

/-- The largest length field a header of this kind has room for: 5 bits in a REGULAR header, 4 in a LITE one, none in a
MEGA or SPECIAL one (spec/30_encoding.md R61). -/
def shortField : OrderCode → Byte
  | .bgRun => 0x1F#8
  | .fgRun => 0x1F#8
  | .fgbgImage => 0x1F#8
  | .colorRun => 0x1F#8
  | .colorImage => 0x1F#8
  | .setFgRun => 0x0F#8
  | .setFgbgImage => 0x0F#8
  | .ditheredRun => 0x0F#8
  | .megaBgRun => 0x00#8
  | .megaFgRun => 0x00#8
  | .megaFgbgImage => 0x00#8
  | .megaColorRun => 0x00#8
  | .megaColorImage => 0x00#8
  | .megaSetFgRun => 0x00#8
  | .megaSetFgbgImage => 0x00#8
  | .megaDitheredRun => 0x00#8
  | .specialFgbg1 => 0x00#8
  | .specialFgbg2 => 0x00#8
  | .white => 0x00#8
  | .black => 0x00#8
  | .invalid => 0x00#8

/-- The order of the two length bytes of a mega header in the stream (spec/92_eei_decisions.md D7: part of `ENC`). -/
inductive ByteOrder where
  | lowFirst | highFirst
  deriving DecidableEq, Repr

/-- `ENC`, the build-time encoding table (R11): which order kind a header byte stands for (a byte no row accepts stands for
none), and how the run length is assembled (spec/30_encoding.md R66 to R71). The header formats themselves (which kinds
are REGULAR, LITE, MEGA or SPECIAL, and how many length bytes follow) are those of `Instr` (log 5). -/
structure Encoding where
  rows : List EncodingRow
  /-- Added to the byte after an extended REGULAR header but FGBG_IMAGE (R70). -/
  regularBias : Nat
  /-- Added to the byte after an extended LITE header but SET_FGBG_IMAGE (R68). -/
  liteBias : Nat
  /-- Added to the byte after an extended FGBG_IMAGE or SET_FGBG_IMAGE header (R67, R69). -/
  imageBias : Nat
  /-- Pixels one unit of the length field of a short FGBG_IMAGE or SET_FGBG_IMAGE header stands for (R67, R69). -/
  imageScale : Nat
  /-- Which of the two length bytes of a MEGA header comes first (R71). -/
  megaOrder : ByteOrder
  deriving DecidableEq, Repr

/-- The table is a map: no two rows share a header byte, each row names a kind, and its length field fits the format of
that kind. -/
abbrev Encoding.wf (e : Encoding) : Prop :=
  e.rows.Pairwise (fun r q => r.disjoint q = true) ∧
    ∀ r ∈ e.rows, r.code ≠ .invalid ∧ r.field &&& ~~~ shortField r.code = 0#8

/-- The build-time parameters (R8 to R12). -/
structure Config where
  pixelBytes : PixelWidth
  whitePixel : Pixel
  blackPixel : Pixel
  maskSpecial1 : Byte
  maskSpecial2 : Byte
  enc : Encoding
  clearInsertOnLineChange : Bool
  deriving DecidableEq, Repr

/-- `P` in the spec's formulas. -/
def Config.pxBytes (c : Config) : Nat := c.pixelBytes.bytes

/-- The two pixel constants are pixels, that is `P` bytes each (R9), and `ENC` is a map (R11). -/
abbrev Config.wf (c : Config) : Prop :=
  c.whitePixel.length = c.pxBytes ∧ c.blackPixel.length = c.pxBytes ∧ c.enc.wf

/-- The five failure causes (spec/60_exceptions.md R150). -/
inductive Cause where
  | invalidConfiguration | invalidOrderCode | malformedHeader | sourceExhaustion | destinationOverflow
  deriving DecidableEq, Repr, Inhabited

/-- The numeric codes of the causes (R150). -/
def Cause.number : Cause → Nat
  | .invalidConfiguration => 1
  | .invalidOrderCode => 2
  | .malformedHeader => 3
  | .sourceExhaustion => 4
  | .destinationOverflow => 5

/-- FREE VALUE: the byte at offset `a` of `DST` after the failure that drew number `k` (R155, log 11). -/
opaque Config.freeDstByte (k a : Nat) : Byte

/-- FREE VALUE: byte `i` of pixel register `r` at draw `k`; `r` is 0 for `fgPel`, 1, 2, 3 for `pixA`, `pixB`, `pix`
(R37, R152, log 9). -/
opaque Config.freePixelByte (k r i : Nat) : Byte

/-- FREE VALUE: number register `r` at draw `k`; `r` is 0 for `sp`, 1 for `dp`, 2 for `runLength`, 3 for `advance`
(R37, R152, log 9). -/
opaque Config.freeNumber (k r : Nat) : Nat

/-- FREE VALUE: flag `r` at draw `k`; `r` is 0 for `fFirstLine`, 1 for `fInsertFgPel` (R152, log 9). -/
opaque Config.freeFlag (k r : Nat) : Bool

/-- FREE VALUE: `bitmask` at draw `k` (R27, R37, log 9). -/
opaque Config.freeBitmask (k : Nat) : Byte

/-- FREE VALUE: `code` at draw `k` (R28, R37, log 9). -/
opaque Config.freeCode (k : Nat) : OrderCode

/-- FREE VALUE: `CAUSE` at draw `k`, while `STATUS` is not FAIL (R35, R37, log 13). -/
opaque Config.freeCause (k : Nat) : Cause

end Sys2Proof
end

