-- ==== Sys2Proof/WellFormed.lean ====
section
/-! DEFINITION. Which order headers have an encoding: a short spelling needs a length field other than 0, since 0
marks the extended spelling (spec/30_encoding.md R61; the constraint `L != 0` of spec/opcode_table.json). Every
other bound is in the fields' widths. -/

namespace Sys2Proof

/-- The header can be encoded (R61, R82). -/
def Instr.wellFormed : Instr → Bool
  | .bgRun L => L != 0
  | .bgRunX _ => true
  | .fgRun L => L != 0
  | .fgRunX _ => true
  | .fgbgImage L => L != 0
  | .fgbgImageX _ => true
  | .colorRun L => L != 0
  | .colorRunX _ => true
  | .colorImage L => L != 0
  | .colorImageX _ => true
  | .setFgRun L => L != 0
  | .setFgRunX _ => true
  | .setFgbgImage L => L != 0
  | .setFgbgImageX _ => true
  | .ditheredRun L => L != 0
  | .ditheredRunX _ => true
  | .megaBgRun _ _ => true
  | .megaFgRun _ _ => true
  | .megaFgbgImage _ _ => true
  | .megaColorRun _ _ => true
  | .megaColorImage _ _ => true
  | .megaSetFgRun _ _ => true
  | .megaSetFgbgImage _ _ => true
  | .megaDitheredRun _ _ => true
  | .specialFgbg1 => true
  | .specialFgbg2 => true
  | .white => true
  | .black => true
  | .invalidA0BF _ => true
  | .invalidF5 => true
  | .invalidFB => true
  | .invalidFC => true
  | .invalidFF => true

end Sys2Proof
end

