-- ==== Sys2Proof/Decode.lean ====
section
/-! DEFINITION. The adopted value of `ENC` (spec/00_scope.md R11, spec/30_encoding.md R60 to R77, log 5), the code of a header
byte and the decoder of a header under a build's table, the encoder, the opcode table as data, and the build the spec
adopts. -/

namespace Sys2Proof

/-- The REGULAR and LITE rows of the adopted table (R62, GK1, GK2). -/
def adoptedShortRows : List EncodingRow :=
  [⟨.bgRun, 0x00#8, 0xE0#8, 0x1F#8⟩,
   ⟨.fgRun, 0x20#8, 0xE0#8, 0x1F#8⟩,
   ⟨.fgbgImage, 0x40#8, 0xE0#8, 0x1F#8⟩,
   ⟨.colorRun, 0x60#8, 0xE0#8, 0x1F#8⟩,
   ⟨.colorImage, 0x80#8, 0xE0#8, 0x1F#8⟩,
   ⟨.setFgRun, 0xC0#8, 0xF0#8, 0x0F#8⟩,
   ⟨.setFgbgImage, 0xD0#8, 0xF0#8, 0x0F#8⟩,
   ⟨.ditheredRun, 0xE0#8, 0xF0#8, 0x0F#8⟩]

/-- The MEGA and SPECIAL rows of the adopted table: the whole byte is the code (R62, GK1, GK2). -/
def adoptedWholeRows : List EncodingRow :=
  [⟨.megaBgRun, 0xF0#8, 0xFF#8, 0x00#8⟩,
   ⟨.megaFgRun, 0xF1#8, 0xFF#8, 0x00#8⟩,
   ⟨.megaFgbgImage, 0xF2#8, 0xFF#8, 0x00#8⟩,
   ⟨.megaColorRun, 0xF3#8, 0xFF#8, 0x00#8⟩,
   ⟨.megaColorImage, 0xF4#8, 0xFF#8, 0x00#8⟩,
   ⟨.megaSetFgRun, 0xF6#8, 0xFF#8, 0x00#8⟩,
   ⟨.megaSetFgbgImage, 0xF7#8, 0xFF#8, 0x00#8⟩,
   ⟨.megaDitheredRun, 0xF8#8, 0xFF#8, 0x00#8⟩,
   ⟨.specialFgbg1, 0xF9#8, 0xFF#8, 0x00#8⟩,
   ⟨.specialFgbg2, 0xFA#8, 0xFF#8, 0x00#8⟩,
   ⟨.white, 0xFD#8, 0xFF#8, 0x00#8⟩,
   ⟨.black, 0xFE#8, 0xFF#8, 0x00#8⟩]

/-- The value of `ENC` the spec adopts (R11, R62, R66 to R71, GK1 to GK3; log 5, log 6). -/
def Encoding.adopted : Encoding where
  rows := adoptedShortRows ++ adoptedWholeRows
  regularBias := 32
  liteBias := 16
  imageBias := 1
  imageScale := 8
  megaOrder := .lowFirst

/-- The row of the build's table that accepts header byte `b`. -/
def Encoding.row (e : Encoding) (b : Byte) : Option EncodingRow := e.rows.find? fun r => r.accepts b

/-- `ExtractCode(b)` (R63): total on all 256 header bytes, a function of the byte and the build's table alone (R76). -/
def extractCode (e : Encoding) (b : Byte) : OrderCode :=
  match e.row b with
  | some r => r.code
  | none => .invalid

/-- The length field of header byte `b`: its bits under the field of its row (R61). -/
def lengthField (e : Encoding) (b : Byte) : Byte :=
  match e.row b with
  | some r => b &&& r.field
  | none => 0#8

/-- The row of the opcode table a header byte that `ENC` maps to no kind falls in (R75). The five forms mean the same; a byte
that is invalid only under a table other than the adopted one takes the first. -/
def invalidForm (b : Byte) : Instr :=
  if b = 0xF5#8 then .invalidF5
  else if b = 0xFB#8 then .invalidFB
  else if b = 0xFC#8 then .invalidFC
  else if b = 0xFF#8 then .invalidFF
  else .invalidA0BF (b.setWidth 5)

/-- Why no order header can be read. -/
inductive DecodeError where
  /-- No source byte is left; the loop condition excludes it (spec/40_main_loop.md R89). -/
  | noHeaderByte
  /-- A run-length byte is missing: `advance = 0` (R81). -/
  | malformedHeader
  deriving DecidableEq, Repr

/-- What a decode answers: a header and the bytes after it, or why there is none. -/
abbrev Decoded := Except DecodeError (Instr × List Byte)

/-- A REGULAR header with length field `f`: the short form when it is not 0, else the extended form (R66, R67, R70). -/
def decodeRegular (short : BitVec 5 → Instr) (extended : Byte → Instr) (f : Byte) (rest : List Byte) : Decoded :=
  if f.setWidth 5 ≠ 0 then .ok (short (f.setWidth 5), rest)
  else match rest with
    | n :: rest' => .ok (extended n, rest')
    | [] => .error .malformedHeader

/-- A LITE header with length field `f`: the short form when it is not 0, else the extended form (R68, R69). -/
def decodeLite (short : BitVec 4 → Instr) (extended : Byte → Instr) (f : Byte) (rest : List Byte) : Decoded :=
  if f.setWidth 4 ≠ 0 then .ok (short (f.setWidth 4), rest)
  else match rest with
    | n :: rest' => .ok (extended n, rest')
    | [] => .error .malformedHeader

/-- A MEGA header: two bytes follow, in the build's order (R71). -/
def decodeMega (o : ByteOrder) (mega : Byte → Byte → Instr) : List Byte → Decoded
  | a :: b :: rest =>
    match o with
    | .lowFirst => .ok (mega a b, rest)
    | .highFirst => .ok (mega b a, rest)
  | _ => .error .malformedHeader

/-- Decode one order header from the source bytes at the cursor, under the build's table (R63, R65). The code is looked at
first, so an invalid header byte is never a malformed header (R75). -/
def decode (e : Encoding) : List Byte → Decoded
  | [] => .error .noHeaderByte
  | b :: rest =>
    match extractCode e b with
    | .bgRun => decodeRegular .bgRun .bgRunX (lengthField e b) rest
    | .fgRun => decodeRegular .fgRun .fgRunX (lengthField e b) rest
    | .fgbgImage => decodeRegular .fgbgImage .fgbgImageX (lengthField e b) rest
    | .colorRun => decodeRegular .colorRun .colorRunX (lengthField e b) rest
    | .colorImage => decodeRegular .colorImage .colorImageX (lengthField e b) rest
    | .setFgRun => decodeLite .setFgRun .setFgRunX (lengthField e b) rest
    | .setFgbgImage => decodeLite .setFgbgImage .setFgbgImageX (lengthField e b) rest
    | .ditheredRun => decodeLite .ditheredRun .ditheredRunX (lengthField e b) rest
    | .megaBgRun => decodeMega e.megaOrder .megaBgRun rest
    | .megaFgRun => decodeMega e.megaOrder .megaFgRun rest
    | .megaFgbgImage => decodeMega e.megaOrder .megaFgbgImage rest
    | .megaColorRun => decodeMega e.megaOrder .megaColorRun rest
    | .megaColorImage => decodeMega e.megaOrder .megaColorImage rest
    | .megaSetFgRun => decodeMega e.megaOrder .megaSetFgRun rest
    | .megaSetFgbgImage => decodeMega e.megaOrder .megaSetFgbgImage rest
    | .megaDitheredRun => decodeMega e.megaOrder .megaDitheredRun rest
    | .specialFgbg1 => .ok (.specialFgbg1, rest)
    | .specialFgbg2 => .ok (.specialFgbg2, rest)
    | .white => .ok (.white, rest)
    | .black => .ok (.black, rest)
    | .invalid => .ok (invalidForm b, rest)

/-- The header bytes of an order under the adopted table, from the bit patterns of the spec's table (R61, R82;
spec/opcode_table.json "encoding"). -/
def encode : Instr → List Byte
  | .bgRun L => [0b000#3 ++ L]
  | .bgRunX n => [0x00#8, n]
  | .fgRun L => [0b001#3 ++ L]
  | .fgRunX n => [0x20#8, n]
  | .fgbgImage L => [0b010#3 ++ L]
  | .fgbgImageX n => [0x40#8, n]
  | .colorRun L => [0b011#3 ++ L]
  | .colorRunX n => [0x60#8, n]
  | .colorImage L => [0b100#3 ++ L]
  | .colorImageX n => [0x80#8, n]
  | .setFgRun L => [0b1100#4 ++ L]
  | .setFgRunX n => [0xC0#8, n]
  | .setFgbgImage L => [0b1101#4 ++ L]
  | .setFgbgImageX n => [0xD0#8, n]
  | .ditheredRun L => [0b1110#4 ++ L]
  | .ditheredRunX n => [0xE0#8, n]
  | .megaBgRun lo hi => [0xF0#8, lo, hi]
  | .megaFgRun lo hi => [0xF1#8, lo, hi]
  | .megaFgbgImage lo hi => [0xF2#8, lo, hi]
  | .megaColorRun lo hi => [0xF3#8, lo, hi]
  | .megaColorImage lo hi => [0xF4#8, lo, hi]
  | .megaSetFgRun lo hi => [0xF6#8, lo, hi]
  | .megaSetFgbgImage lo hi => [0xF7#8, lo, hi]
  | .megaDitheredRun lo hi => [0xF8#8, lo, hi]
  | .specialFgbg1 => [0xF9#8]
  | .specialFgbg2 => [0xFA#8]
  | .white => [0xFD#8]
  | .black => [0xFE#8]
  | .invalidA0BF x => [0b101#3 ++ x]
  | .invalidF5 => [0xF5#8]
  | .invalidFB => [0xFB#8]
  | .invalidFC => [0xFC#8]
  | .invalidFF => [0xFF#8]

/-- One row of the opcode table (R82): the header byte matches when `b &&& mask = pattern` and, where `lengthMask` is
not 0, the length field is not 0. `advance` is the header's length, 0 for the invalid rows. -/
structure OpcodeRow where
  pattern : Byte
  mask : Byte
  lengthMask : Byte
  code : OrderCode
  advance : Nat
  deriving DecidableEq, Repr

/-- The row matches header byte `b` (R82). -/
def OpcodeRow.accepts (r : OpcodeRow) (b : Byte) : Bool :=
  b &&& r.mask == r.pattern && (r.lengthMask == 0#8 || b &&& r.lengthMask != 0#8)

/-- The short and extended rows of spec/opcode_table.json. -/
def opcodeRowsShort : List OpcodeRow :=
  [⟨0x00#8, 0xE0#8, 0x1F#8, .bgRun, 1⟩, ⟨0x00#8, 0xFF#8, 0#8, .bgRun, 2⟩,
   ⟨0x20#8, 0xE0#8, 0x1F#8, .fgRun, 1⟩, ⟨0x20#8, 0xFF#8, 0#8, .fgRun, 2⟩,
   ⟨0x40#8, 0xE0#8, 0x1F#8, .fgbgImage, 1⟩, ⟨0x40#8, 0xFF#8, 0#8, .fgbgImage, 2⟩,
   ⟨0x60#8, 0xE0#8, 0x1F#8, .colorRun, 1⟩, ⟨0x60#8, 0xFF#8, 0#8, .colorRun, 2⟩,
   ⟨0x80#8, 0xE0#8, 0x1F#8, .colorImage, 1⟩, ⟨0x80#8, 0xFF#8, 0#8, .colorImage, 2⟩,
   ⟨0xC0#8, 0xF0#8, 0x0F#8, .setFgRun, 1⟩, ⟨0xC0#8, 0xFF#8, 0#8, .setFgRun, 2⟩,
   ⟨0xD0#8, 0xF0#8, 0x0F#8, .setFgbgImage, 1⟩, ⟨0xD0#8, 0xFF#8, 0#8, .setFgbgImage, 2⟩,
   ⟨0xE0#8, 0xF0#8, 0x0F#8, .ditheredRun, 1⟩, ⟨0xE0#8, 0xFF#8, 0#8, .ditheredRun, 2⟩]

/-- The mega, special and invalid rows of spec/opcode_table.json. -/
def opcodeRowsWhole : List OpcodeRow :=
  [⟨0xF0#8, 0xFF#8, 0#8, .megaBgRun, 3⟩, ⟨0xF1#8, 0xFF#8, 0#8, .megaFgRun, 3⟩,
   ⟨0xF2#8, 0xFF#8, 0#8, .megaFgbgImage, 3⟩, ⟨0xF3#8, 0xFF#8, 0#8, .megaColorRun, 3⟩,
   ⟨0xF4#8, 0xFF#8, 0#8, .megaColorImage, 3⟩, ⟨0xF6#8, 0xFF#8, 0#8, .megaSetFgRun, 3⟩,
   ⟨0xF7#8, 0xFF#8, 0#8, .megaSetFgbgImage, 3⟩, ⟨0xF8#8, 0xFF#8, 0#8, .megaDitheredRun, 3⟩,
   ⟨0xF9#8, 0xFF#8, 0#8, .specialFgbg1, 1⟩, ⟨0xFA#8, 0xFF#8, 0#8, .specialFgbg2, 1⟩,
   ⟨0xFD#8, 0xFF#8, 0#8, .white, 1⟩, ⟨0xFE#8, 0xFF#8, 0#8, .black, 1⟩,
   ⟨0xA0#8, 0xE0#8, 0#8, .invalid, 0⟩, ⟨0xF5#8, 0xFF#8, 0#8, .invalid, 0⟩,
   ⟨0xFB#8, 0xFF#8, 0#8, .invalid, 0⟩, ⟨0xFC#8, 0xFF#8, 0#8, .invalid, 0⟩,
   ⟨0xFF#8, 0xFF#8, 0#8, .invalid, 0⟩]

/-- The 33 rows of spec/opcode_table.json (R82). The decoder does not read it; that it agrees with the adopted
table is stated. -/
def opcodeTable : List OpcodeRow := opcodeRowsShort ++ opcodeRowsWhole

/-- The bytes of a table word: the first byte is bits 7..0, the second bits 15..8; bits at or above `nbits` are 0. Three
bytes, the longest header (R61). -/
def tableWordBytes (nbits w : Nat) : List Byte :=
  let v := w % 2 ^ nbits
  [BitVec.ofNat 8 v, BitVec.ofNat 8 (v / 256), BitVec.ofNat 8 (v / 65536)]

/-- The order header a build with table `e` reads from a word of the opcode table. -/
def decodeWord (e : Encoding) (nbits w : Nat) : Option Instr :=
  match decode e (tableWordBytes nbits w) with
  | .ok (i, _) => some i
  | .error _ => none

/-- The order header the decoder reads from a word of the opcode table, under the adopted table. -/
def decodeTableWord (nbits w : Nat) : Option Instr := decodeWord Encoding.adopted nbits w

/-- The instance of pixel width `w` with the values the spec adopts: white is `P` bytes 0xFF, black `P` bytes 0x00
(R9, log 2), the masks 0x03 and 0x05 (R10, log 3), `ENC` the
adopted table (R11, log 5). `CLEAR_INSERT_ON_LINE_CHANGE` is OPEN, so it is an argument
(R12, log 4). -/
def Config.adopted (w : PixelWidth) (clear : Bool) : Config where
  pixelBytes := w
  whitePixel := List.replicate w.bytes 0xFF#8
  blackPixel := List.replicate w.bytes 0x00#8
  maskSpecial1 := 0x03#8
  maskSpecial2 := 0x05#8
  enc := Encoding.adopted
  clearInsertOnLineChange := clear

end Sys2Proof
end

