-- ==== Sys2Proof/Machine/Memory.lean ====
section
/-! DEFINITION. A byte memory as a sorted list of (offset, byte) pairs that lists no byte equal to what an unlisted offset
reads as (log 8). -/

namespace Sys2Proof.Machine

/-- A byte memory addressed by offset (spec/20_memory.md R40). -/
abbrev Memory := List Host.Cell

/-- What an unlisted offset reads as. DESIGN CHOICE: the spec gives no contents at power-on (log 8). -/
def Memory.unlisted : Byte := 0x00#8

/-- The byte at offset `a`. -/
def Memory.read : Memory → Nat → Byte
  | [], _ => Memory.unlisted
  | (b, v) :: m, a => if a = b then v else Memory.read m a

/-- Write one byte, keeping the canonical form. -/
def Memory.write : Memory → Nat → Byte → Memory
  | [], a, v => if v = Memory.unlisted then [] else [(a, v)]
  | (b, w) :: m, a, v =>
    if a < b then (if v = Memory.unlisted then (b, w) :: m else (a, v) :: (b, w) :: m)
    else if a = b then (if v = Memory.unlisted then m else (b, v) :: m)
    else (b, w) :: Memory.write m a v

/-- The `n` bytes at offsets `a`, `a + 1`, … (`MemRead` of spec/00_scope.md R17 without its bound). -/
def Memory.readBytes (m : Memory) (a : Nat) : Nat → List Byte
  | 0 => []
  | n + 1 => m.read a :: Memory.readBytes m (a + 1) n

/-- Write a byte sequence at offsets `a`, `a + 1`, … (`MemWrite` of R17 without its bound). -/
def Memory.writeBytes (m : Memory) (a : Nat) : List Byte → Memory
  | [] => m
  | v :: vs => Memory.writeBytes (m.write a v) (a + 1) vs

/-- `f a`, `f (a + 1)`, … on `n` offsets from `a`, before the cells `tail`. -/
def Memory.fillFrom (f : Nat → Byte) (a : Nat) (tail : Memory) : Nat → Memory
  | 0 => tail
  | n + 1 =>
    if f a = Memory.unlisted then Memory.fillFrom f (a + 1) tail n
    else (a, f a) :: Memory.fillFrom f (a + 1) tail n

/-- The cells below `bound`. -/
def Memory.keepBelow (m : Memory) (bound : Nat) : Memory := m.filter fun c => decide (c.1 < bound)

/-- The cells at and above `bound`. -/
def Memory.keepFrom (m : Memory) (bound : Nat) : Memory := m.filter fun c => decide (bound ≤ c.1)

/-- Every byte below `bound` becomes `f` of its offset, every other byte stays. -/
def Memory.fillBelow (m : Memory) (bound : Nat) (f : Nat → Byte) : Memory :=
  Memory.fillFrom f 0 (m.keepFrom bound) bound

/-- Offsets rise strictly from `lo` on and no listed byte is the unlisted one. -/
def Memory.sortedFrom (lo : Nat) : Memory → Bool
  | [] => true
  | (a, v) :: m => decide (lo ≤ a) && decide (v ≠ Memory.unlisted) && Memory.sortedFrom (a + 1) m

/-- The canonical form. -/
def Memory.wf (m : Memory) : Bool := Memory.sortedFrom 0 m

end Sys2Proof.Machine
end

