-- ==== Sys2Proof/Machine/State.lean ====
section
/-! DEFINITION. The state of the decoder and its host, and the machine at power-on (spec/10_state.md,
spec/70_reset_and_hazards.md R170). -/

namespace Sys2Proof.Machine

/-- `STATUS` (spec/10_state.md R30). -/
inductive Status where
  | idle | busy | ok | fail
  deriving DecidableEq, Repr

/-- A call the host will make (spec/40_main_loop.md R85, spec/70_reset_and_hazards.md R173): the bytes it places in `SRC`
from offset 0, the four parameters, and the bytes it fills `DST` with from offset 0 (log 15, log 17). -/
structure HostCall where
  source : List Byte
  srcLen : Nat
  rowDelta : Nat
  width : Nat
  height : Nat
  destination : List Byte
  deriving DecidableEq, Repr

/-- The machine's faults: an access to an offset the buffer does not have (spec/20_memory.md R43, R44, R58). The spec says
that none ever happens; the checks of the orders are what prevents them, and no state of `State.Inv` reaches one
(log 19). -/
inductive Fault where
  /-- Raised by a source read at or beyond `SRC_LEN`. Safe: the model stops. -/
  | srcReadOutOfBounds
  /-- Raised by a destination read at or beyond `DST_SIZE`. Safe: the model stops. -/
  | dstReadOutOfBounds
  /-- Raised by a destination write at or beyond `DST_SIZE`. Safe: the model stops. -/
  | dstWriteOutOfBounds
  /-- Raised by a row-above read when `dp < ROW_DELTA`, that is before offset 0 of `DST`. Safe: the model stops. -/
  | aboveBeforeBuffer
  deriving DecidableEq, Repr

/-- The machine's refusals. -/
inductive Refusal where
  /-- Raised by an arm of `exec` that gives its instruction no meaning; no arm does. Safe: the model stops. -/
  | notModelled (mnemonic : String)
  deriving DecidableEq, Repr

/-- Why the body of an order ends early: the failure of the call with its cause, or a fault of the machine. -/
inductive Stop where
  | fail (c : Cause)
  | fault (f : Fault)
  deriving DecidableEq, Repr

/-- Everything the spec gives the machine (INVENTORY.md "State"); `hostCalls` and `freeCount` are the model's own. -/
structure State where
  /-- The build-time parameters; no step changes them (R36, log 1). -/
  cfg : Config
  /-- `STATUS` (R30). -/
  status : Status
  /-- `CAUSE` (R35). -/
  cause : Cause
  /-- `SRC_LEN` (R31). -/
  srcLen : Nat
  /-- `ROW_DELTA` (R32). -/
  rowDelta : Nat
  /-- `WIDTH` (R33). -/
  width : Nat
  /-- `HEIGHT` (R34). -/
  height : Nat
  /-- The source cursor, the program counter (R23). -/
  sp : Nat
  /-- The destination cursor (R24). -/
  dp : Nat
  /-- The current foreground colour (R22). -/
  fgPel : Pixel
  /-- The first-line flag (R25). -/
  fFirstLine : Bool
  /-- The insert-foreground-pixel flag (R26). -/
  fInsertFgPel : Bool
  /-- The current 8-bit run mask (R27). -/
  bitmask : Byte
  /-- RunOrder register `code` (R28). -/
  code : OrderCode
  /-- RunOrder register `runLength` (R28). -/
  runLength : Nat
  /-- RunOrder register `advance` (R28). -/
  advance : Nat
  /-- First literal pixel of a dithered run (R29). -/
  pixA : Pixel
  /-- Second literal pixel of a dithered run (R29). -/
  pixB : Pixel
  /-- Literal pixel of a color run (R29). -/
  pix : Pixel
  /-- The source buffer (spec/20_memory.md R41). -/
  src : Memory
  /-- The destination buffer (spec/20_memory.md R42). -/
  dst : Memory
  /-- The calls the host will still make, oldest first (log 15). -/
  hostCalls : List HostCall
  /-- How many times free values were drawn (log 9). -/
  freeCount : Nat
  deriving DecidableEq, Repr

/-- `P`, the pixel width in bytes (spec/00_scope.md R8). -/
def State.pxBytes (s : State) : Nat := s.cfg.pxBytes

/-- `DST_SIZE = ROW_DELTA * HEIGHT` (spec/00_scope.md R13). -/
def State.dstSize (s : State) : Nat := s.rowDelta * s.height

/-- Power-on reset of an instance (spec/70_reset_and_hazards.md R170(b)): `STATUS` is IDLE. The spec leaves every other
register unspecified until the first START; their values here are DESIGN CHOICES (log 7). -/
def State.powerOn (c : Config) : State where
  cfg := c
  status := .idle
  cause := .invalidConfiguration
  srcLen := 0
  rowDelta := 0
  width := 0
  height := 0
  sp := 0
  dp := 0
  fgPel := c.whitePixel
  fFirstLine := true
  fInsertFgPel := false
  bitmask := 0x00#8
  code := .invalid
  runLength := 0
  advance := 0
  pixA := List.replicate c.pxBytes 0x00#8
  pixB := List.replicate c.pxBytes 0x00#8
  pix := List.replicate c.pxBytes 0x00#8
  src := []
  dst := []
  hostCalls := []
  freeCount := 0

/-- The machine right after power-on reset, for the instance of one-byte pixels with the document's reading of the OPEN
parameter (log 1, log 4). -/
def State.reset : State := State.powerOn (Config.adopted .one false)

end Sys2Proof.Machine
end

