-- ==== Sys2Proof/Machine/Ops.lean ====
section
/-! DEFINITION. The primitives of spec/00_scope.md R17 over the two memories, the pixel generators (spec/41_prediction_runs.md
R100), and the failure of the call (spec/60_exceptions.md R153). -/

namespace Sys2Proof.Machine

/-- `SrcAvail(n)`, the range check (R17, spec/20_memory.md R43). -/
abbrev State.srcAvail (s : State) (n : Nat) : Prop := s.sp + n ≤ s.srcLen

/-- `DstAvail(n)`, the capacity check for `n` pixels (R17, spec/20_memory.md R44). -/
abbrev State.dstAvail (s : State) (n : Nat) : Prop := s.dp + n * s.pxBytes ≤ s.dstSize

/-- `MemRead(SRC, a, n)`, defined only inside the source buffer (R17). -/
def memReadSrc (s : State) (a n : Nat) : Except Stop (List Byte) :=
  if a + n ≤ s.srcLen then .ok (s.src.readBytes a n) else .error (.fault .srcReadOutOfBounds)

/-- `MemRead(DST, a, n)`, defined only inside the destination buffer (R17). -/
def memReadDst (s : State) (a n : Nat) : Except Stop (List Byte) :=
  if a + n ≤ s.dstSize then .ok (s.dst.readBytes a n) else .error (.fault .dstReadOutOfBounds)

/-- `MemWrite(DST, a, n, v)` with `n` the length of `v`, defined only inside the destination buffer (R17). -/
def memWriteDst (s : State) (a : Nat) (v : List Byte) : Except Stop State :=
  if a + v.length ≤ s.dstSize then .ok { s with dst := s.dst.writeBytes a v }
  else .error (.fault .dstWriteOutOfBounds)

/-- The range check of an order's source phase (spec/40_main_loop.md R94). -/
def requireSrc (n : Nat) (s : State) : Except Stop Unit :=
  if s.srcAvail n then .ok () else .error (.fail .sourceExhaustion)

/-- The capacity check of an order's capacity phase, for `n` pixels (spec/40_main_loop.md R94). -/
def requireDst (n : Nat) (s : State) : Except Stop Unit :=
  if s.dstAvail n then .ok () else .error (.fail .destinationOverflow)

/-- Byte-wise exclusive-or of two pixels (spec/00_scope.md R16). -/
def xorPixel (a b : Pixel) : Pixel := List.zipWith (· ^^^ ·) a b

/-- `Above()`, the `P` bytes at `dp - ROW_DELTA` (spec/20_memory.md R47). -/
def above (s : State) : Except Stop Pixel :=
  if s.rowDelta ≤ s.dp then memReadDst s (s.dp - s.rowDelta) s.pxBytes
  else .error (.fault .aboveBeforeBuffer)

/-- `WritePixel(v)` (R17). -/
def writePixel (v : Pixel) (s : State) : Except Stop State := do
  let s ← memWriteDst s s.dp v
  pure { s with dp := s.dp + s.pxBytes }

/-- `BgPixel()` (spec/41_prediction_runs.md R100). -/
def bgPixel (s : State) : Except Stop Pixel :=
  if s.fFirstLine then .ok s.cfg.blackPixel else above s

/-- `FgPixel()` (spec/41_prediction_runs.md R100). -/
def fgPixel (s : State) : Except Stop Pixel :=
  if s.fFirstLine then .ok s.fgPel
  else do
    let up ← above s
    pure (xorPixel up s.fgPel)

/-- Produce and write `n` pixels one after another, the first being pixel number `i` of its run; each is generated when the
ones before it are written (spec/20_memory.md R51, spec/70_reset_and_hazards.md R177). -/
def writeRun (gen : Nat → State → Except Stop Pixel) (i : Nat) : Nat → State → Except Stop State
  | 0, s => pure s
  | n + 1, s => do
    let v ← gen i s
    let s ← writePixel v s
    writeRun gen (i + 1) n s

/-- A pixel register at draw `k` (log 9). -/
def freePixel (c : Config) (k r : Nat) : Pixel := (List.range c.pxBytes).map (Config.freePixelByte k r)

/-- Every register of the decode state becomes a free value: the spec gives it none (spec/10_state.md R37 for the start of
a call, spec/60_exceptions.md R152 after a failure, U16 of spec/93_implementation_defined.md after any call; log 9). -/
def forgetRegisters (s : State) : State :=
  { s with
    cause := Config.freeCause s.freeCount
    sp := Config.freeNumber s.freeCount 0
    dp := Config.freeNumber s.freeCount 1
    fgPel := freePixel s.cfg s.freeCount 0
    fFirstLine := Config.freeFlag s.freeCount 0
    fInsertFgPel := Config.freeFlag s.freeCount 1
    bitmask := Config.freeBitmask s.freeCount
    code := Config.freeCode s.freeCount
    runLength := Config.freeNumber s.freeCount 2
    advance := Config.freeNumber s.freeCount 3
    pixA := freePixel s.cfg s.freeCount 1
    pixB := freePixel s.cfg s.freeCount 2
    pix := freePixel s.cfg s.freeCount 3
    freeCount := s.freeCount + 1 }

/-- `bitmask` becomes a free value after an order that wrote it (U2 of spec/93_implementation_defined.md, log 14). -/
def forgetBitmask (s : State) : State :=
  { s with bitmask := Config.freeBitmask s.freeCount, freeCount := s.freeCount + 1 }

/-- What a failure leaves in `DST`: inside the bound any value, outside it what was there (spec/60_exceptions.md R155);
after InvalidConfiguration exactly what was there (spec/40_main_loop.md R86). -/
def dstAfterFailure (c : Cause) (s : State) : Memory :=
  match c with
  | .invalidConfiguration => s.dst
  | .invalidOrderCode => s.dst.fillBelow s.dstSize (Config.freeDstByte s.freeCount)
  | .malformedHeader => s.dst.fillBelow s.dstSize (Config.freeDstByte s.freeCount)
  | .sourceExhaustion => s.dst.fillBelow s.dstSize (Config.freeDstByte s.freeCount)
  | .destinationOverflow => s.dst.fillBelow s.dstSize (Config.freeDstByte s.freeCount)

/-- `raise Fail(cause)` (spec/60_exceptions.md R153): `STATUS <- FAIL`, `CAUSE <- cause`, control back to the host. Nothing is
saved, no handler runs and nothing returns (R153, R156); the registers and the destination inside the bound are
unspecified afterwards (R152, R155). -/
def raiseFail (c : Cause) (s : State) : State :=
  { forgetRegisters s with status := .fail, cause := c, dst := dstAfterFailure c s }

end Sys2Proof.Machine
end

