-- ==== Sys2Proof/Machine/Call.lean ====
section
/-! DEFINITION. The decode call around its loop: START, the configuration check, call reset, the header fetch, the end in
success (spec/40_main_loop.md R85 to R90). -/

namespace Sys2Proof.Machine

/-- The host writes the parameters and the buffers (spec/70_reset_and_hazards.md R173, log 17). -/
def hostPlaces (c : HostCall) (s : State) : State :=
  { s with
    srcLen := c.srcLen
    rowDelta := c.rowDelta
    width := c.width
    height := c.height
    src := s.src.writeBytes 0 c.source
    dst := s.dst.writeBytes 0 c.destination }

/-- The configuration check fails (R86): bytes are compared with pixels as plain numbers (spec/10_state.md R32). -/
abbrev State.badConfiguration (s : State) : Prop := s.rowDelta = 0 ∨ s.rowDelta < s.width

/-- Call reset (R87, spec/10_state.md R37): the five values the spec gives, every other register unspecified. -/
def callReset (s : State) : State :=
  { forgetRegisters s with
    status := .busy
    sp := 0
    dp := 0
    fgPel := s.cfg.whitePixel
    fFirstLine := true
    fInsertFgPel := false }

/-- START of the call `c` (R85, spec/70_reset_and_hazards.md R171): the configuration check first, then call reset. -/
def startCall (c : HostCall) (s : State) : State :=
  let s := hostPlaces c s
  if s.badConfiguration then raiseFail .invalidConfiguration s else callReset s

/-- The host's turn, when no call runs: it starts its next call, or there is none and nothing happens (log 15, log 16). -/
def hostTurn (s : State) : State :=
  match s.hostCalls with
  | [] => s
  | c :: rest => startCall c { s with hostCalls := rest }

/-- The end of the call in success (R90): `STATUS <- OK`; the decode state is not persisted, so its registers have no value
afterwards (U16 of spec/93_implementation_defined.md, log 12). -/
def finishCall (s : State) : State := { forgetRegisters s with status := .ok }

/-- The source bytes a header may take, at most three and none at or beyond `SRC_LEN` (R89, R91,
spec/30_encoding.md R61). -/
def fetchHeader (s : State) : List Byte := s.src.readBytes s.sp (min 3 (s.srcLen - s.sp))

/-- What the host sees: `STATUS` and `DST` after a call, nothing while one runs (spec/20_memory.md R52). -/
def State.hostView (s : State) : Option (Status × Memory) :=
  match s.status with
  | .busy => none
  | .idle => some (.idle, s.dst)
  | .ok => some (.ok, s.dst)
  | .fail => some (.fail, s.dst)

end Sys2Proof.Machine
end

