-- ==== Sys2Proof/Machine/Flags.lean ====
section
/-! DEFINITION. The two flags that carry state from one order to the next (spec/40_main_loop.md R88, R93). -/

namespace Sys2Proof.Machine

/-- The first-line update at the top of an iteration (R88, R97(a)): `fFirstLine` is cleared when `dp >= ROW_DELTA`; on that
transition `fInsertFgPel` is cleared too when CLEAR_INSERT_ON_LINE_CHANGE is true (spec/00_scope.md R12). It is not
evaluated again within the iteration. -/
def firstLineUpdate (s : State) : State :=
  if s.fFirstLine = true ∧ s.rowDelta ≤ s.dp then
    { s with
      fFirstLine := false
      fInsertFgPel := if s.cfg.clearInsertOnLineChange then false else s.fInsertFgPel }
  else s

/-- The order is a background run (R93). -/
def isBackgroundRun (c : OrderCode) : Bool := c == .bgRun || c == .megaBgRun

/-- The insert-flag update after an order's body (R93, R97(d)). -/
def insertFlagUpdate (c : OrderCode) (s : State) : State := { s with fInsertFgPel := isBackgroundRun c }

end Sys2Proof.Machine
end

