-- ==== Sys2Proof/Machine/Operands.lean ====
section
/-! DEFINITION. Run-length formation of every header form (spec/30_encoding.md R66 to R73) and the operand bytes of the orders
(R74). -/

namespace Sys2Proof.Machine

/-- Short REGULAR form but FGBG_IMAGE: `L` pixels (R66). -/
def lengthRegular (L : BitVec 5) : Nat := L.toNat

/-- Extended REGULAR form but FGBG_IMAGE: `n + 32` under the adopted table (R70). -/
def lengthRegularX (e : Encoding) (n : Byte) : Nat := n.toNat + e.regularBias

/-- Short FGBG_IMAGE: `L * 8` under the adopted table (R67). -/
def lengthFgbg (e : Encoding) (L : BitVec 5) : Nat := L.toNat * e.imageScale

/-- Short LITE form but SET_FGBG_IMAGE: `L` (R68). -/
def lengthLite (L : BitVec 4) : Nat := L.toNat

/-- Extended LITE form but SET_FGBG_IMAGE: `n + 16` under the adopted table (R68). -/
def lengthLiteX (e : Encoding) (n : Byte) : Nat := n.toNat + e.liteBias

/-- Short SET_FGBG_IMAGE: `L * 8` under the adopted table (R69). -/
def lengthSetFgbg (e : Encoding) (L : BitVec 4) : Nat := L.toNat * e.imageScale

/-- Extended FGBG_IMAGE and SET_FGBG_IMAGE: `n + 1` under the adopted table (R67, R69). -/
def lengthFgbgX (e : Encoding) (n : Byte) : Nat := n.toNat + e.imageBias

/-- MEGA forms: in pixels, no bias; `decodeMega` has put the two bytes in order (R71, spec/20_memory.md R46). -/
def lengthMega (lo hi : Byte) : Nat := lo.toNat + 256 * hi.toNat

/-- `ceil(n / 8)`, the bitmask bytes of `n` pixels (spec/00_scope.md R15, R74). -/
def maskBytes (n : Nat) : Nat := (n + 7) / 8

/-- `ReadSrcPixel()` (spec/00_scope.md R17). -/
def readSrcPixel (s : State) : Except Stop (Pixel × State) := do
  let v ← memReadSrc s s.sp s.pxBytes
  pure (v, { s with sp := s.sp + s.pxBytes })

/-- `ReadSrcByte()` (spec/00_scope.md R17). -/
def readSrcByte (s : State) : Except Stop (Byte × State) :=
  if s.sp + 1 ≤ s.srcLen then .ok (s.src.read s.sp, { s with sp := s.sp + 1 })
  else .error (.fault .srcReadOutOfBounds)

/-- The set-color step: range check, then a literal pixel into `fgPel` (spec/41_prediction_runs.md R104). -/
def loadFgPel (s : State) : Except Stop State := do
  requireSrc s.pxBytes s
  let (v, s) ← readSrcPixel s
  pure { s with fgPel := v }

/-- The kind of order a header is (R62). -/
def orderCode : Instr → OrderCode
  | .bgRun _ => .bgRun
  | .bgRunX _ => .bgRun
  | .fgRun _ => .fgRun
  | .fgRunX _ => .fgRun
  | .fgbgImage _ => .fgbgImage
  | .fgbgImageX _ => .fgbgImage
  | .colorRun _ => .colorRun
  | .colorRunX _ => .colorRun
  | .colorImage _ => .colorImage
  | .colorImageX _ => .colorImage
  | .setFgRun _ => .setFgRun
  | .setFgRunX _ => .setFgRun
  | .setFgbgImage _ => .setFgbgImage
  | .setFgbgImageX _ => .setFgbgImage
  | .ditheredRun _ => .ditheredRun
  | .ditheredRunX _ => .ditheredRun
  | .megaBgRun _ _ => .megaBgRun
  | .megaFgRun _ _ => .megaFgRun
  | .megaFgbgImage _ _ => .megaFgbgImage
  | .megaColorRun _ _ => .megaColorRun
  | .megaColorImage _ _ => .megaColorImage
  | .megaSetFgRun _ _ => .megaSetFgRun
  | .megaSetFgbgImage _ _ => .megaSetFgbgImage
  | .megaDitheredRun _ _ => .megaDitheredRun
  | .specialFgbg1 => .specialFgbg1
  | .specialFgbg2 => .specialFgbg2
  | .white => .white
  | .black => .black
  | .invalidA0BF _ => .invalid
  | .invalidF5 => .invalid
  | .invalidFB => .invalid
  | .invalidFC => .invalid
  | .invalidFF => .invalid

/-- The header's length in the source, in bytes: its format fixes it, whatever the build's table (R61). An invalid header
byte is one byte, of which `advance` consumes none (R75). -/
def headerBytes (i : Instr) : Nat := (encode i).length

/-- The number of operand bytes that follow the header (R74). -/
def operandBytes (e : Encoding) (P : Nat) : Instr → Nat
  | .bgRun _ => 0
  | .bgRunX _ => 0
  | .fgRun _ => 0
  | .fgRunX _ => 0
  | .fgbgImage L => maskBytes (lengthFgbg e L)
  | .fgbgImageX n => maskBytes (lengthFgbgX e n)
  | .colorRun _ => P
  | .colorRunX _ => P
  | .colorImage L => lengthRegular L * P
  | .colorImageX n => lengthRegularX e n * P
  | .setFgRun _ => P
  | .setFgRunX _ => P
  | .setFgbgImage L => P + maskBytes (lengthSetFgbg e L)
  | .setFgbgImageX n => P + maskBytes (lengthFgbgX e n)
  | .ditheredRun _ => 2 * P
  | .ditheredRunX _ => 2 * P
  | .megaBgRun _ _ => 0
  | .megaFgRun _ _ => 0
  | .megaFgbgImage lo hi => maskBytes (lengthMega lo hi)
  | .megaColorRun _ _ => P
  | .megaColorImage lo hi => lengthMega lo hi * P
  | .megaSetFgRun _ _ => P
  | .megaSetFgbgImage lo hi => P + maskBytes (lengthMega lo hi)
  | .megaDitheredRun _ _ => 2 * P
  | .specialFgbg1 => 0
  | .specialFgbg2 => 0
  | .white => 0
  | .black => 0
  | .invalidA0BF _ => 0
  | .invalidF5 => 0
  | .invalidFB => 0
  | .invalidFC => 0
  | .invalidFF => 0

/-- The number of pixels the order writes (spec/opcode_table.json "pixels_written", spec/70_reset_and_hazards.md R185). -/
def orderPixels (e : Encoding) : Instr → Nat
  | .bgRun L => lengthRegular L
  | .bgRunX n => lengthRegularX e n
  | .fgRun L => lengthRegular L
  | .fgRunX n => lengthRegularX e n
  | .fgbgImage L => lengthFgbg e L
  | .fgbgImageX n => lengthFgbgX e n
  | .colorRun L => lengthRegular L
  | .colorRunX n => lengthRegularX e n
  | .colorImage L => lengthRegular L
  | .colorImageX n => lengthRegularX e n
  | .setFgRun L => lengthLite L
  | .setFgRunX n => lengthLiteX e n
  | .setFgbgImage L => lengthSetFgbg e L
  | .setFgbgImageX n => lengthFgbgX e n
  | .ditheredRun L => 2 * lengthLite L
  | .ditheredRunX n => 2 * lengthLiteX e n
  | .megaBgRun lo hi => lengthMega lo hi
  | .megaFgRun lo hi => lengthMega lo hi
  | .megaFgbgImage lo hi => lengthMega lo hi
  | .megaColorRun lo hi => lengthMega lo hi
  | .megaColorImage lo hi => lengthMega lo hi
  | .megaSetFgRun lo hi => lengthMega lo hi
  | .megaSetFgbgImage lo hi => lengthMega lo hi
  | .megaDitheredRun lo hi => 2 * lengthMega lo hi
  | .specialFgbg1 => 8
  | .specialFgbg2 => 8
  | .white => 1
  | .black => 1
  | .invalidA0BF _ => 0
  | .invalidF5 => 0
  | .invalidFB => 0
  | .invalidFC => 0
  | .invalidFF => 0

end Sys2Proof.Machine
end

