-- ==== Sys2Proof/Machine/Order.lean ====
section
/-! DEFINITION. The frame every order runs in (spec/40_main_loop.md R97): the header registers, the body, the insert-flag update
or the failure. -/

namespace Sys2Proof.Machine

/-- The RunOrder registers take the header's values and the source cursor moves past the header (R91). -/
def loadHeader (c : OrderCode) (n adv : Nat) (s : State) : State :=
  { s with code := c, runLength := n, advance := adv, sp := s.sp + adv }

/-- Run one order: load the header, run the body, update the insert flag (R97(b) to (d)). A failure in the body ends the
call (spec/60_exceptions.md R153). -/
def runOrder (c : OrderCode) (n adv : Nat) (body : State → Except Stop State) (s : State) :
    Host.Outcome State Fault Refusal :=
  match body (loadHeader c n adv s) with
  | .ok t => .next (insertFlagUpdate c t)
  | .error (.fail e) => .next (raiseFail e s)
  | .error (.fault f) => .fault f

end Sys2Proof.Machine
end

