-- ==== Sys2Proof/Machine/LiteralRuns.lean ====
section
/-! DEFINITION. Literal runs: dithered run and color run (spec/42_literal_runs.md). -/

namespace Sys2Proof.Machine

/-- Pixel number `i` of a dithered run: `pixA` and `pixB` in turn, `pixA` first (R115). -/
def ditheredPixel (i : Nat) (s : State) : Except Stop Pixel := pure (if i % 2 = 0 then s.pixA else s.pixB)

/-- `DitheredRun(runLength)` (R115). -/
def ditheredRun (n : Nat) (s : State) : Except Stop State := do
  requireSrc (2 * s.pxBytes) s
  let (a, s) ← readSrcPixel s
  let s := { s with pixA := a }
  let (b, s) ← readSrcPixel s
  let s := { s with pixB := b }
  requireDst (2 * n) s
  writeRun ditheredPixel 0 (2 * n) s

/-- `ColorRun(runLength)` (R119). -/
def colorRun (n : Nat) (s : State) : Except Stop State := do
  requireSrc s.pxBytes s
  let (v, s) ← readSrcPixel s
  let s := { s with pix := v }
  requireDst n s
  writeRun (fun _ t => pure t.pix) 0 n s

/-- DITHERED_RUN (R116). -/
def execDitheredRun (L : BitVec 4) (s : State) : Host.Outcome State Fault Refusal :=
  runOrder .ditheredRun (lengthLite L) 1 (ditheredRun (lengthLite L)) s

/-- DITHERED_RUN.X (R116). -/
def execDitheredRunX (n : Byte) (s : State) : Host.Outcome State Fault Refusal :=
  runOrder .ditheredRun (lengthLiteX s.cfg.enc n) 2 (ditheredRun (lengthLiteX s.cfg.enc n)) s

/-- MEGA_DITHERED_RUN (R117). -/
def execMegaDitheredRun (lo hi : Byte) (s : State) : Host.Outcome State Fault Refusal :=
  runOrder .megaDitheredRun (lengthMega lo hi) 3 (ditheredRun (lengthMega lo hi)) s

/-- COLOR_RUN (R120). -/
def execColorRun (L : BitVec 5) (s : State) : Host.Outcome State Fault Refusal :=
  runOrder .colorRun (lengthRegular L) 1 (colorRun (lengthRegular L)) s

/-- COLOR_RUN.X (R120). -/
def execColorRunX (n : Byte) (s : State) : Host.Outcome State Fault Refusal :=
  runOrder .colorRun (lengthRegularX s.cfg.enc n) 2 (colorRun (lengthRegularX s.cfg.enc n)) s

/-- MEGA_COLOR_RUN (R121). -/
def execMegaColorRun (lo hi : Byte) (s : State) : Host.Outcome State Fault Refusal :=
  runOrder .megaColorRun (lengthMega lo hi) 3 (colorRun (lengthMega lo hi)) s

end Sys2Proof.Machine
end

