-- ==== Sys2Proof/Machine/PredictionRuns.lean ====
section
/-! DEFINITION. Prediction runs: background run, foreground run, set-color foreground run (spec/41_prediction_runs.md). -/

namespace Sys2Proof.Machine

/-- `BackgroundRun(runLength)` (R103): when `fInsertFgPel` is set and the run is not empty, the first pixel is the inserted
foreground pixel. -/
def backgroundRun (n : Nat) (s : State) : Except Stop State := do
  requireDst n s
  if s.fInsertFgPel = true ∧ 0 < n then do
    let s ← writeRun (fun _ => fgPixel) 0 1 s
    writeRun (fun _ => bgPixel) 1 (n - 1) s
  else writeRun (fun _ => bgPixel) 0 n s

/-- `ForegroundRun(runLength, setColor)` (R104). -/
def foregroundRun (setColor : Bool) (n : Nat) (s : State) : Except Stop State := do
  let s ← if setColor then loadFgPel s else pure s
  requireDst n s
  writeRun (fun _ => fgPixel) 0 n s

/-- BG_RUN (R101). -/
def execBgRun (L : BitVec 5) (s : State) : Host.Outcome State Fault Refusal :=
  runOrder .bgRun (lengthRegular L) 1 (backgroundRun (lengthRegular L)) s

/-- BG_RUN.X (R101). -/
def execBgRunX (n : Byte) (s : State) : Host.Outcome State Fault Refusal :=
  runOrder .bgRun (lengthRegularX s.cfg.enc n) 2 (backgroundRun (lengthRegularX s.cfg.enc n)) s

/-- MEGA_BG_RUN (R102). -/
def execMegaBgRun (lo hi : Byte) (s : State) : Host.Outcome State Fault Refusal :=
  runOrder .megaBgRun (lengthMega lo hi) 3 (backgroundRun (lengthMega lo hi)) s

/-- FG_RUN (R105). -/
def execFgRun (L : BitVec 5) (s : State) : Host.Outcome State Fault Refusal :=
  runOrder .fgRun (lengthRegular L) 1 (foregroundRun false (lengthRegular L)) s

/-- FG_RUN.X (R105). -/
def execFgRunX (n : Byte) (s : State) : Host.Outcome State Fault Refusal :=
  runOrder .fgRun (lengthRegularX s.cfg.enc n) 2 (foregroundRun false (lengthRegularX s.cfg.enc n)) s

/-- MEGA_FG_RUN (R106). -/
def execMegaFgRun (lo hi : Byte) (s : State) : Host.Outcome State Fault Refusal :=
  runOrder .megaFgRun (lengthMega lo hi) 3 (foregroundRun false (lengthMega lo hi)) s

/-- SET_FG_RUN (R107). -/
def execSetFgRun (L : BitVec 4) (s : State) : Host.Outcome State Fault Refusal :=
  runOrder .setFgRun (lengthLite L) 1 (foregroundRun true (lengthLite L)) s

/-- SET_FG_RUN.X (R107). -/
def execSetFgRunX (n : Byte) (s : State) : Host.Outcome State Fault Refusal :=
  runOrder .setFgRun (lengthLiteX s.cfg.enc n) 2 (foregroundRun true (lengthLiteX s.cfg.enc n)) s

/-- MEGA_SET_FG_RUN (R108). -/
def execMegaSetFgRun (lo hi : Byte) (s : State) : Host.Outcome State Fault Refusal :=
  runOrder .megaSetFgRun (lengthMega lo hi) 3 (foregroundRun true (lengthMega lo hi)) s

end Sys2Proof.Machine
end

