-- ==== Sys2Proof/Machine/ImageOrders.lean ====
section
/-! DEFINITION. Image orders: FG/BG image, set-color FG/BG image, color image (spec/43_image_orders.md). -/

namespace Sys2Proof.Machine

/-- The pixel that bit `i` of `bitmask` selects (R125). -/
def maskedPixel (i : Nat) (s : State) : Except Stop Pixel :=
  if s.bitmask.getLsbD i then fgPixel s else bgPixel s

/-- `WriteFgBgGroup(g)`: `g` pixels, bit 0 first (R125). -/
def writeFgBgGroup (g : Nat) (s : State) : Except Stop State := writeRun maskedPixel 0 g s

/-- The write phase of an FG/BG image (R126): for each of `groups` groups a bitmask byte, then up to 8 of the `remaining`
pixels. -/
def writeGroups : Nat → Nat → State → Except Stop State
  | 0, _, s => pure s
  | groups + 1, remaining, s => do
    let (m, s) ← readSrcByte s
    let s ← writeFgBgGroup (min 8 remaining) { s with bitmask := m }
    writeGroups groups (remaining - min 8 remaining) s

/-- `FgBgImage(runLength, setColor)` (R126); `ceil(runLength / 8)` groups cover `runLength` pixels. Afterwards `bitmask` has
no value (log 14). -/
def fgbgImage (setColor : Bool) (n : Nat) (s : State) : Except Stop State := do
  let s ← if setColor then loadFgPel s else pure s
  requireSrc (maskBytes n) s
  requireDst n s
  let s ← writeGroups (maskBytes n) n s
  pure (forgetBitmask s)

/-- The write phase of a color image: `n` literal pixels from source to destination (R132). -/
def copyPixels : Nat → State → Except Stop State
  | 0, s => pure s
  | n + 1, s => do
    let (v, s) ← readSrcPixel s
    let s ← writePixel v s
    copyPixels n s

/-- `ColorImage(runLength)` (R132). -/
def colorImage (n : Nat) (s : State) : Except Stop State := do
  requireSrc (n * s.pxBytes) s
  requireDst n s
  copyPixels n s

/-- FGBG_IMAGE (R127). -/
def execFgbgImage (L : BitVec 5) (s : State) : Host.Outcome State Fault Refusal :=
  runOrder .fgbgImage (lengthFgbg s.cfg.enc L) 1 (fgbgImage false (lengthFgbg s.cfg.enc L)) s

/-- FGBG_IMAGE.X (R127). -/
def execFgbgImageX (n : Byte) (s : State) : Host.Outcome State Fault Refusal :=
  runOrder .fgbgImage (lengthFgbgX s.cfg.enc n) 2 (fgbgImage false (lengthFgbgX s.cfg.enc n)) s

/-- MEGA_FGBG_IMAGE (R128). -/
def execMegaFgbgImage (lo hi : Byte) (s : State) : Host.Outcome State Fault Refusal :=
  runOrder .megaFgbgImage (lengthMega lo hi) 3 (fgbgImage false (lengthMega lo hi)) s

/-- SET_FGBG_IMAGE (R129). -/
def execSetFgbgImage (L : BitVec 4) (s : State) : Host.Outcome State Fault Refusal :=
  runOrder .setFgbgImage (lengthSetFgbg s.cfg.enc L) 1 (fgbgImage true (lengthSetFgbg s.cfg.enc L)) s

/-- SET_FGBG_IMAGE.X (R129). -/
def execSetFgbgImageX (n : Byte) (s : State) : Host.Outcome State Fault Refusal :=
  runOrder .setFgbgImage (lengthFgbgX s.cfg.enc n) 2 (fgbgImage true (lengthFgbgX s.cfg.enc n)) s

/-- MEGA_SET_FGBG_IMAGE (R130). -/
def execMegaSetFgbgImage (lo hi : Byte) (s : State) : Host.Outcome State Fault Refusal :=
  runOrder .megaSetFgbgImage (lengthMega lo hi) 3 (fgbgImage true (lengthMega lo hi)) s

/-- COLOR_IMAGE (R133). -/
def execColorImage (L : BitVec 5) (s : State) : Host.Outcome State Fault Refusal :=
  runOrder .colorImage (lengthRegular L) 1 (colorImage (lengthRegular L)) s

/-- COLOR_IMAGE.X (R133). -/
def execColorImageX (n : Byte) (s : State) : Host.Outcome State Fault Refusal :=
  runOrder .colorImage (lengthRegularX s.cfg.enc n) 2 (colorImage (lengthRegularX s.cfg.enc n)) s

/-- MEGA_COLOR_IMAGE (R134). -/
def execMegaColorImage (lo hi : Byte) (s : State) : Host.Outcome State Fault Refusal :=
  runOrder .megaColorImage (lengthMega lo hi) 3 (colorImage (lengthMega lo hi)) s

end Sys2Proof.Machine
end

