-- ==== Sys2Proof/Machine/SpecialOrders.lean ====
section
/-! DEFINITION. Special orders and the invalid header bytes (spec/44_special_orders.md). -/

namespace Sys2Proof.Machine

/-- `SpecialFgBg(mask)` (R140). Afterwards `bitmask` has no value (log 14). -/
def specialFgbg (mask : Byte) (s : State) : Except Stop State := do
  requireDst 8 s
  let s ← writeFgBgGroup 8 { s with bitmask := mask }
  pure (forgetBitmask s)

/-- `SinglePixel(v)` (R146). -/
def singlePixel (v : Pixel) (s : State) : Except Stop State := do
  requireDst 1 s
  writePixel v s

/-- SPECIAL_FGBG_1 (R141); `runLength` is set to 8 (spec/30_encoding.md R73, log 25). -/
def execSpecialFgbg1 (s : State) : Host.Outcome State Fault Refusal :=
  runOrder .specialFgbg1 8 1 (specialFgbg s.cfg.maskSpecial1) s

/-- SPECIAL_FGBG_2 (R142); `runLength` is set to 8 (spec/30_encoding.md R73, log 25). -/
def execSpecialFgbg2 (s : State) : Host.Outcome State Fault Refusal :=
  runOrder .specialFgbg2 8 1 (specialFgbg s.cfg.maskSpecial2) s

/-- WHITE (R143); `runLength` is set to 1 (spec/30_encoding.md R73, log 25). -/
def execWhite (s : State) : Host.Outcome State Fault Refusal :=
  runOrder .white 1 1 (singlePixel s.cfg.whitePixel) s

/-- BLACK (R144); `runLength` is set to 1 (spec/30_encoding.md R73, log 25). -/
def execBlack (s : State) : Host.Outcome State Fault Refusal :=
  runOrder .black 1 1 (singlePixel s.cfg.blackPixel) s

/-- An INVALID header byte (R145): the call fails, nothing more is read, nothing is written, `sp` is not advanced. -/
def invalidOrder (s : State) : Host.Outcome State Fault Refusal := .next (raiseFail .invalidOrderCode s)

/-- INVALID.A0_BF (R145). -/
def execInvalidA0BF (_x : BitVec 5) (s : State) : Host.Outcome State Fault Refusal := invalidOrder s

/-- INVALID.F5 (R145). -/
def execInvalidF5 (s : State) : Host.Outcome State Fault Refusal := invalidOrder s

/-- INVALID.FB (R145). -/
def execInvalidFB (s : State) : Host.Outcome State Fault Refusal := invalidOrder s

/-- INVALID.FC (R145). -/
def execInvalidFC (s : State) : Host.Outcome State Fault Refusal := invalidOrder s

/-- INVALID.FF (R145). -/
def execInvalidFF (s : State) : Host.Outcome State Fault Refusal := invalidOrder s

end Sys2Proof.Machine
end

