-- ==== Sys2Proof/Machine/Dispatch.lean ====
section
/-! DEFINITION. `Execute` (spec/40_main_loop.md R92): one arm per constructor of Instr, one meaning each. -/

namespace Sys2Proof.Machine

/-- Run the order whose header is `i` (R92, R97). -/
def exec (i : Instr) (s : State) : Host.Outcome State Fault Refusal :=
  match i with
  | .bgRun L => Sys2Proof.Machine.execBgRun L s
  | .bgRunX n => Sys2Proof.Machine.execBgRunX n s
  | .fgRun L => Sys2Proof.Machine.execFgRun L s
  | .fgRunX n => Sys2Proof.Machine.execFgRunX n s
  | .fgbgImage L => Sys2Proof.Machine.execFgbgImage L s
  | .fgbgImageX n => Sys2Proof.Machine.execFgbgImageX n s
  | .colorRun L => Sys2Proof.Machine.execColorRun L s
  | .colorRunX n => Sys2Proof.Machine.execColorRunX n s
  | .colorImage L => Sys2Proof.Machine.execColorImage L s
  | .colorImageX n => Sys2Proof.Machine.execColorImageX n s
  | .setFgRun L => Sys2Proof.Machine.execSetFgRun L s
  | .setFgRunX n => Sys2Proof.Machine.execSetFgRunX n s
  | .setFgbgImage L => Sys2Proof.Machine.execSetFgbgImage L s
  | .setFgbgImageX n => Sys2Proof.Machine.execSetFgbgImageX n s
  | .ditheredRun L => Sys2Proof.Machine.execDitheredRun L s
  | .ditheredRunX n => Sys2Proof.Machine.execDitheredRunX n s
  | .megaBgRun lo hi => Sys2Proof.Machine.execMegaBgRun lo hi s
  | .megaFgRun lo hi => Sys2Proof.Machine.execMegaFgRun lo hi s
  | .megaFgbgImage lo hi => Sys2Proof.Machine.execMegaFgbgImage lo hi s
  | .megaColorRun lo hi => Sys2Proof.Machine.execMegaColorRun lo hi s
  | .megaColorImage lo hi => Sys2Proof.Machine.execMegaColorImage lo hi s
  | .megaSetFgRun lo hi => Sys2Proof.Machine.execMegaSetFgRun lo hi s
  | .megaSetFgbgImage lo hi => Sys2Proof.Machine.execMegaSetFgbgImage lo hi s
  | .megaDitheredRun lo hi => Sys2Proof.Machine.execMegaDitheredRun lo hi s
  | .specialFgbg1 => Sys2Proof.Machine.execSpecialFgbg1 s
  | .specialFgbg2 => Sys2Proof.Machine.execSpecialFgbg2 s
  | .white => Sys2Proof.Machine.execWhite s
  | .black => Sys2Proof.Machine.execBlack s
  | .invalidA0BF x => Sys2Proof.Machine.execInvalidA0BF x s
  | .invalidF5 => Sys2Proof.Machine.execInvalidF5 s
  | .invalidFB => Sys2Proof.Machine.execInvalidFB s
  | .invalidFC => Sys2Proof.Machine.execInvalidFC s
  | .invalidFF => Sys2Proof.Machine.execInvalidFF s

end Sys2Proof.Machine
end

