-- ==== Sys2Proof/Machine/MainLoop.lean ====
section
/-! DEFINITION. One iteration of the main loop (spec/40_main_loop.md R97) and the instruction's place in the source. -/

namespace Sys2Proof.Machine

/-- One iteration (R97): first-line update, fetch and decode, the order. A header that cannot be parsed is the failure
MalformedHeader (R91). -/
def loopIteration (s : State) : Host.Outcome State Fault Refusal :=
  match decode s.cfg.enc (fetchHeader (firstLineUpdate s)) with
  | .ok (i, _) => exec i (firstLineUpdate s)
  | .error .malformedHeader => .next (raiseFail .malformedHeader (firstLineUpdate s))
  | .error .noHeaderByte => .fault .srcReadOutOfBounds

/-- The engine's move while a call runs (R89, R90): an iteration while source bytes are left, else the end in success. -/
def engineTurn (s : State) : Host.Outcome State Fault Refusal :=
  if s.sp < s.srcLen then loopIteration s else .next (finishCall s)

/-- A call is running: call-reset registers and, where the configuration is not legal, the smallest legal one that has room
for the largest order (log 24). -/
def openCall (s : State) : State :=
  let t := callReset s
  if t.badConfiguration then { t with rowDelta := 2 * 65535 * s.pxBytes, width := 1, height := 1 } else t

/-- The bytes of an order in the source: its header and its operands (spec/30_encoding.md R74); three bytes where the bytes
are no order. -/
def orderBytes (e : Encoding) (P : Nat) : Option Instr → Nat
  | some i => headerBytes i + operandBytes e P i
  | none => 3

/-- The stream ends with the given order at the cursor: its header bytes stand at `sp`, its operand bytes are 0x00, and
`SRC_LEN` is its end (log 24). -/
def placeOrder (nbits w : Nat) (s : State) : State :=
  { s with
    src := Memory.writeBytes (s.src.keepBelow s.sp) s.sp (tableWordBytes nbits w)
    srcLen := s.sp + orderBytes s.cfg.enc s.pxBytes (decodeWord s.cfg.enc nbits w) }

end Sys2Proof.Machine
end

