-- ==== Sys2Proof/Machine/Step.lean ====
section
/-! DEFINITION. The step: the engine moves while a call runs, the host when none does (spec/10_state.md R20,
spec/70_reset_and_hazards.md R180, log 16). -/

namespace Sys2Proof.Machine

/-- One step (log 16): an order, the end of a call, or a START. -/
def step (s : State) : Host.Outcome State Fault Refusal :=
  match s.status with
  | .busy => engineTurn s
  | .idle => .next (hostTurn s)
  | .ok => .next (hostTurn s)
  | .fail => .next (hostTurn s)

/-- `s` with the order of an opcode-table word at the source cursor of a running call (log 24). -/
def State.withFetchWord (s : State) (nbits w : Nat) : State :=
  match s.status with
  | .busy => placeOrder nbits w s
  | .idle => placeOrder nbits w (openCall s)
  | .ok => placeOrder nbits w (openCall s)
  | .fail => placeOrder nbits w (openCall s)

end Sys2Proof.Machine
end

