-- ==== Sys2Proof/Safety.lean ====
section
/-! DEFINITION. What a good state and a safe step are (spec/10_state.md R39, spec/20_memory.md R58). -/

namespace Sys2Proof.Machine

/-- An order may run: the pixel constants and the foreground colour are pixels, the destination memory is canonical, and a
row above exists once `fFirstLine` is false (R39(d)). -/
structure State.Ready (s : State) : Prop where
  cfg : s.cfg.wf
  dst : s.dst.wf = true
  fgPel : s.fgPel.length = s.pxBytes
  above : s.fFirstLine = false → s.rowDelta ≤ s.dp

/-- What holds at the top of every iteration of a running call (R23, R24, R32, R39). -/
structure State.Running (s : State) : Prop where
  ready : s.Ready
  config : ¬ s.badConfiguration
  sp : s.sp ≤ s.srcLen
  dp : s.dp ≤ s.dstSize
  aligned : s.pxBytes ∣ s.dp

/-- The invariant: the pixel constants are pixels, both memories are canonical, and while a call runs `State.Running`
holds. -/
structure State.Inv (s : State) : Prop where
  cfg : s.cfg.wf
  src : s.src.wf = true
  dst : s.dst.wf = true
  running : s.status = .busy → s.Running

/-- A safe outcome: the machine goes on; no access was outside a buffer and no instruction was refused (R58). -/
def isNext (o : Host.Outcome State Fault Refusal) : Prop :=
  match o with
  | .next _ => True
  | .fault _ => False
  | .refused _ => False

end Sys2Proof.Machine
end

