-- ==== Sys2Proof/Certificates/Slice0/Obligations.lean ====
section
/-! DEFINITION. The statements for the provers. The helpers under Sys2Proof.Claims say in the spec's words what an order form is
and what bytes it writes; they do not call the meanings they are about. -/

namespace Sys2Proof.Claims

open Sys2Proof.Machine

/-- An order form with what the build's `ENC` gives its header: code, run length, advance (spec/00_scope.md R11,
spec/30_encoding.md R62, R72). Under the adopted table the run lengths are those of R66 to R71. -/
structure Form where
  instr : Instr
  code : OrderCode
  length : Nat
  advance : Nat

/-- BG_RUN, BG_RUN.X, MEGA_BG_RUN (R66, R70, R71). -/
def bgForms (e : Encoding) (L : BitVec 5) (n lo hi : Byte) : List Form :=
  [⟨.bgRun L, .bgRun, L.toNat, 1⟩, ⟨.bgRunX n, .bgRun, n.toNat + e.regularBias, 2⟩,
   ⟨.megaBgRun lo hi, .megaBgRun, lo.toNat + 256 * hi.toNat, 3⟩]

/-- FG_RUN, FG_RUN.X, MEGA_FG_RUN (R66, R70, R71). -/
def fgForms (e : Encoding) (L : BitVec 5) (n lo hi : Byte) : List Form :=
  [⟨.fgRun L, .fgRun, L.toNat, 1⟩, ⟨.fgRunX n, .fgRun, n.toNat + e.regularBias, 2⟩,
   ⟨.megaFgRun lo hi, .megaFgRun, lo.toNat + 256 * hi.toNat, 3⟩]

/-- SET_FG_RUN, SET_FG_RUN.X, MEGA_SET_FG_RUN (R68, R71). -/
def setFgForms (e : Encoding) (L : BitVec 4) (n lo hi : Byte) : List Form :=
  [⟨.setFgRun L, .setFgRun, L.toNat, 1⟩, ⟨.setFgRunX n, .setFgRun, n.toNat + e.liteBias, 2⟩,
   ⟨.megaSetFgRun lo hi, .megaSetFgRun, lo.toNat + 256 * hi.toNat, 3⟩]

/-- DITHERED_RUN, DITHERED_RUN.X, MEGA_DITHERED_RUN (R68, R71). -/
def ditheredForms (e : Encoding) (L : BitVec 4) (n lo hi : Byte) : List Form :=
  [⟨.ditheredRun L, .ditheredRun, L.toNat, 1⟩, ⟨.ditheredRunX n, .ditheredRun, n.toNat + e.liteBias, 2⟩,
   ⟨.megaDitheredRun lo hi, .megaDitheredRun, lo.toNat + 256 * hi.toNat, 3⟩]

/-- COLOR_RUN, COLOR_RUN.X, MEGA_COLOR_RUN (R66, R70, R71). -/
def colorRunForms (e : Encoding) (L : BitVec 5) (n lo hi : Byte) : List Form :=
  [⟨.colorRun L, .colorRun, L.toNat, 1⟩, ⟨.colorRunX n, .colorRun, n.toNat + e.regularBias, 2⟩,
   ⟨.megaColorRun lo hi, .megaColorRun, lo.toNat + 256 * hi.toNat, 3⟩]

/-- COLOR_IMAGE, COLOR_IMAGE.X, MEGA_COLOR_IMAGE (R66, R70, R71). -/
def colorImageForms (e : Encoding) (L : BitVec 5) (n lo hi : Byte) : List Form :=
  [⟨.colorImage L, .colorImage, L.toNat, 1⟩, ⟨.colorImageX n, .colorImage, n.toNat + e.regularBias, 2⟩,
   ⟨.megaColorImage lo hi, .megaColorImage, lo.toNat + 256 * hi.toNat, 3⟩]

/-- FGBG_IMAGE, FGBG_IMAGE.X, MEGA_FGBG_IMAGE (R67, R71). -/
def fgbgForms (e : Encoding) (L : BitVec 5) (n lo hi : Byte) : List Form :=
  [⟨.fgbgImage L, .fgbgImage, L.toNat * e.imageScale, 1⟩, ⟨.fgbgImageX n, .fgbgImage, n.toNat + e.imageBias, 2⟩,
   ⟨.megaFgbgImage lo hi, .megaFgbgImage, lo.toNat + 256 * hi.toNat, 3⟩]

/-- SET_FGBG_IMAGE, SET_FGBG_IMAGE.X, MEGA_SET_FGBG_IMAGE (R69, R71). -/
def setFgbgForms (e : Encoding) (L : BitVec 4) (n lo hi : Byte) : List Form :=
  [⟨.setFgbgImage L, .setFgbgImage, L.toNat * e.imageScale, 1⟩,
   ⟨.setFgbgImageX n, .setFgbgImage, n.toNat + e.imageBias, 2⟩,
   ⟨.megaSetFgbgImage lo hi, .megaSetFgbgImage, lo.toNat + 256 * hi.toNat, 3⟩]

/-- The destination `d` is that of `s` but for `n` pixels from `dp` on, byte `j` of pixel `k` being `px k j`; it is in
canonical form. -/
def RunBytes (s : State) (d : Memory) (n : Nat) (px : Nat → Nat → Byte) : Prop :=
  d.wf = true ∧
  (∀ a, a < s.dp ∨ s.dp + n * s.pxBytes ≤ a → d.read a = s.dst.read a) ∧
  ∀ k, k < n → ∀ j, j < s.pxBytes → d.read (s.dp + k * s.pxBytes + j) = px k j

/-- Byte `j` of `Above()` when pixel `k` of a run is about to be written: a byte below the cursor holds what the run itself
or an earlier order wrote (as in the final `d`), one at or above it what was there before (spec/20_memory.md R47). -/
def aboveByte (s : State) (d : Memory) (k j : Nat) : Byte :=
  if j < s.rowDelta then d.read (s.dp + k * s.pxBytes + j - s.rowDelta)
  else s.dst.read (s.dp + k * s.pxBytes + j - s.rowDelta)

/-- Byte `j` of `BgPixel()` for pixel `k` of a run (spec/41_prediction_runs.md R100). -/
def bgByte (s : State) (d : Memory) (k j : Nat) : Byte :=
  if s.fFirstLine = true then s.cfg.blackPixel.getD j 0 else aboveByte s d k j

/-- Byte `j` of `FgPixel()` for pixel `k` of a run under the foreground colour `fg` (spec/41_prediction_runs.md R100). -/
def fgByte (s : State) (d : Memory) (fg : Pixel) (k j : Nat) : Byte :=
  if s.fFirstLine = true then fg.getD j 0 else aboveByte s d k j ^^^ fg.getD j 0

/-- The run length and the advance the header bytes `b`, `n`, `h` of a valid order stand for under the adopted table
(spec/30_encoding.md R66 to R71, R73). The length is none for the special orders, whose `runLength` is not meaningful (R73). -/
def headerOf (b n h : Byte) : Option Nat × Nat :=
  if b.toNat < 0xA0 then
    if b.toNat % 32 = 0 then (some (if b.toNat / 32 = 2 then n.toNat + 1 else n.toNat + 32), 2)
    else (some (if b.toNat / 32 = 2 then b.toNat % 32 * 8 else b.toNat % 32), 1)
  else if b.toNat < 0xF0 then
    if b.toNat % 16 = 0 then (some (if b.toNat / 16 = 0xD then n.toNat + 1 else n.toNat + 16), 2)
    else (some (if b.toNat / 16 = 0xD then b.toNat % 16 * 8 else b.toNat % 16), 1)
  else if b.toNat < 0xF9 then (some (n.toNat + 256 * h.toNat), 3)
  else (none, 1)

/-- `ExtractCode(b)` as the pseudocode of spec/30_encoding.md R63 has it: the two top bits, then the four top bits select the
class; within the class a number selects the code. -/
def pseudocodeCode (b : Byte) : OrderCode :=
  if b &&& 0xC0#8 ≠ 0xC0#8 then
    [.bgRun, .fgRun, .fgbgImage, .colorRun, .colorImage, .invalid].getD (b.toNat / 32) .invalid
  else if b &&& 0xF0#8 = 0xF0#8 then
    [.megaBgRun, .megaFgRun, .megaFgbgImage, .megaColorRun, .megaColorImage, .invalid, .megaSetFgRun, .megaSetFgbgImage,
      .megaDitheredRun, .specialFgbg1, .specialFgbg2, .invalid, .invalid, .white, .black, .invalid].getD
      (b.toNat - 0xF0) .invalid
  else [.setFgRun, .setFgbgImage, .ditheredRun].getD (b.toNat / 16 - 0xC) .invalid

/-- The header byte maps to no order under the adopted table (spec/30_encoding.md R75). -/
def isInvalidByte (b : Byte) : Prop :=
  (0xA0 ≤ b.toNat ∧ b.toNat ≤ 0xBF) ∨ b = 0xF5#8 ∨ b = 0xFB#8 ∨ b = 0xFC#8 ∨ b = 0xFF#8

/-- The set-color orders (spec/10_state.md R22). -/
def isSetColor (c : OrderCode) : Bool :=
  c == .setFgRun || c == .megaSetFgRun || c == .setFgbgImage || c == .megaSetFgbgImage

/-- The orders whose pixels come from the source or are constants (spec/42_literal_runs.md R122). -/
def isLiteral (c : OrderCode) : Bool :=
  c == .ditheredRun || c == .megaDitheredRun || c == .colorRun || c == .megaColorRun ||
    c == .colorImage || c == .megaColorImage || c == .white || c == .black

/-- The background runs (spec/41_prediction_runs.md R101, R102). -/
def isBackground (c : OrderCode) : Bool := c == .bgRun || c == .megaBgRun

/-- The causes the body of an order can raise (spec/60_exceptions.md R151, its last three columns but MalformedHeader, which is
raised before the body). -/
def bodyCauses (c : OrderCode) : List Cause :=
  match c with
  | .bgRun => [.destinationOverflow]
  | .fgRun => [.destinationOverflow]
  | .fgbgImage => [.sourceExhaustion, .destinationOverflow]
  | .colorRun => [.sourceExhaustion, .destinationOverflow]
  | .colorImage => [.sourceExhaustion, .destinationOverflow]
  | .setFgRun => [.sourceExhaustion, .destinationOverflow]
  | .setFgbgImage => [.sourceExhaustion, .destinationOverflow]
  | .ditheredRun => [.sourceExhaustion, .destinationOverflow]
  | .megaBgRun => [.destinationOverflow]
  | .megaFgRun => [.destinationOverflow]
  | .megaFgbgImage => [.sourceExhaustion, .destinationOverflow]
  | .megaColorRun => [.sourceExhaustion, .destinationOverflow]
  | .megaColorImage => [.sourceExhaustion, .destinationOverflow]
  | .megaSetFgRun => [.sourceExhaustion, .destinationOverflow]
  | .megaSetFgbgImage => [.sourceExhaustion, .destinationOverflow]
  | .megaDitheredRun => [.sourceExhaustion, .destinationOverflow]
  | .specialFgbg1 => [.destinationOverflow]
  | .specialFgbg2 => [.destinationOverflow]
  | .white => [.destinationOverflow]
  | .black => [.destinationOverflow]
  | .invalid => [.invalidOrderCode]

/-- The bytes `bs` stand in memory `m` from offset `a` on. -/
def StandsAt (m : Memory) (a : Nat) (bs : List Byte) : Prop := ∀ j, j < bs.length → m.read (a + j) = bs.getD j 0

/-- Two states equal but for destination bytes at and above the cursor. -/
def SameBelowCursor (s s' : State) : Prop :=
  s' = { s with dst := s'.dst } ∧ s'.dst.wf = true ∧ ∀ a, a < s.dp → s.dst.read a = s'.dst.read a

/-- A color image order with its operand bytes: one of the three forms, and `P` bytes for each pixel of its run length. -/
def IsColorImageChunk (e : Encoding) (P : Nat) (c : Form × List Byte) : Prop :=
  (∃ L n lo hi, c.1 ∈ colorImageForms e L n lo hi) ∧ c.1.instr.wellFormed = true ∧ c.2.length = c.1.length * P

/-- The stream of a list of orders with their operand bytes. -/
def streamOf (cs : List (Form × List Byte)) : List Byte := cs.flatMap fun c => encode c.1.instr ++ c.2

/-- The operand bytes of a list of orders, in stream order. -/
def gridOf (cs : List (Form × List Byte)) : List Byte := cs.flatMap fun c => c.2

/-- R104, without a set-color step: a foreground run writes `runLength` times `FgPixel()`; without room it fails the
call. -/
def PlainForegroundRuns : Prop :=
  ∀ (s : State) (L : BitVec 5) (n lo hi : Byte) (f : Form), f ∈ fgForms s.cfg.enc L n lo hi → s.Ready →
    (s.dstAvail f.length → ∃ d,
      exec f.instr s = .next { s with
        code := f.code
        runLength := f.length
        advance := f.advance
        sp := s.sp + f.advance
        dp := s.dp + f.length * s.pxBytes
        fInsertFgPel := false
        dst := d } ∧
      RunBytes s d f.length fun k j => fgByte s d s.fgPel k j) ∧
    (¬ s.dstAvail f.length → exec f.instr s = .next (raiseFail .destinationOverflow s))

/-- R104, set-color: the literal pixel after the header goes into `fgPel` first and is used for the run; a missing literal
is SourceExhaustion, missing room is DestinationOverflow. -/
def SetColorForegroundRuns : Prop :=
  ∀ (s : State) (L : BitVec 4) (n lo hi : Byte) (f : Form), f ∈ setFgForms s.cfg.enc L n lo hi → s.Ready →
    ∀ fg, fg = s.src.readBytes (s.sp + f.advance) s.pxBytes →
      (s.srcAvail (f.advance + s.pxBytes) → s.dstAvail f.length → ∃ d,
        exec f.instr s = .next { s with
          code := f.code
          runLength := f.length
          advance := f.advance
          fgPel := fg
          sp := s.sp + f.advance + s.pxBytes
          dp := s.dp + f.length * s.pxBytes
          fInsertFgPel := false
          dst := d } ∧
        RunBytes s d f.length fun k j => fgByte s d fg k j) ∧
      (¬ s.srcAvail (f.advance + s.pxBytes) → exec f.instr s = .next (raiseFail .sourceExhaustion s)) ∧
      (s.srcAvail (f.advance + s.pxBytes) → ¬ s.dstAvail f.length →
        exec f.instr s = .next (raiseFail .destinationOverflow s))

/-- R126, without a set-color step: pixel `k` is `FgPixel()` or `BgPixel()` by bit `k mod 8` of mask byte `k / 8`, and
`ceil(runLength / 8)` mask bytes are consumed. -/
def PlainFgbgImages : Prop :=
  ∀ (s : State) (L : BitVec 5) (n lo hi : Byte) (f : Form), f ∈ fgbgForms s.cfg.enc L n lo hi → s.Ready →
    ∀ q m, q = s.sp + f.advance → m = (f.length + 7) / 8 →
      (s.srcAvail (f.advance + m) → s.dstAvail f.length → ∃ d,
        exec f.instr s = .next { s with
          code := f.code
          runLength := f.length
          advance := f.advance
          sp := q + m
          bitmask := Config.freeBitmask s.freeCount
          dp := s.dp + f.length * s.pxBytes
          fInsertFgPel := false
          dst := d
          freeCount := s.freeCount + 1 } ∧
        RunBytes s d f.length fun k j =>
          if (s.src.read (q + k / 8)).getLsbD (k % 8) = true then fgByte s d s.fgPel k j else bgByte s d k j) ∧
      (¬ s.srcAvail (f.advance + m) → exec f.instr s = .next (raiseFail .sourceExhaustion s)) ∧
      (s.srcAvail (f.advance + m) → ¬ s.dstAvail f.length →
        exec f.instr s = .next (raiseFail .destinationOverflow s))

/-- R126, set-color: the literal pixel after the header goes into `fgPel` first, the mask bytes follow
it. -/
def SetColorFgbgImages : Prop :=
  ∀ (s : State) (L : BitVec 4) (n lo hi : Byte) (f : Form), f ∈ setFgbgForms s.cfg.enc L n lo hi → s.Ready →
    ∀ fg q m, fg = s.src.readBytes (s.sp + f.advance) s.pxBytes → q = s.sp + f.advance + s.pxBytes →
      m = (f.length + 7) / 8 →
      (s.srcAvail (f.advance + s.pxBytes + m) → s.dstAvail f.length → ∃ d,
        exec f.instr s = .next { s with
          code := f.code
          runLength := f.length
          advance := f.advance
          fgPel := fg
          sp := q + m
          bitmask := Config.freeBitmask s.freeCount
          dp := s.dp + f.length * s.pxBytes
          fInsertFgPel := false
          dst := d
          freeCount := s.freeCount + 1 } ∧
        RunBytes s d f.length fun k j =>
          if (s.src.read (q + k / 8)).getLsbD (k % 8) = true then fgByte s d fg k j else bgByte s d k j) ∧
      (¬ s.srcAvail (f.advance + s.pxBytes + m) → exec f.instr s = .next (raiseFail .sourceExhaustion s)) ∧
      (s.srcAvail (f.advance + s.pxBytes + m) → ¬ s.dstAvail f.length →
        exec f.instr s = .next (raiseFail .destinationOverflow s))

end Sys2Proof.Claims

open Sys2Proof Sys2Proof.Machine Sys2Proof.Claims

/-! ## Encoding -/

/-- Words written out from the spec's encoding table decode to the order they stand for (spec/30_encoding.md R62, R82). -/
def Obligations.SpecWordsDecode : Prop :=
  decodeTableWord 8 0b00000011 = some (.bgRun 3) ∧
  decodeTableWord 16 0b00000001_00100000 = some (.fgRunX 1) ∧
  decodeTableWord 8 0b11000010 = some (.setFgRun 2) ∧
  decodeTableWord 16 0b00000011_01000000 = some (.fgbgImageX 3) ∧
  decodeTableWord 8 0b11010001 = some (.setFgbgImage 1) ∧
  decodeTableWord 8 0b11100010 = some (.ditheredRun 2) ∧
  decodeTableWord 8 0b01100011 = some (.colorRun 3) ∧
  decodeTableWord 24 0b00000001_00000010_11110100 = some (.megaColorImage 2 1) ∧
  decodeTableWord 8 0b11111001 = some .specialFgbg1 ∧
  decodeTableWord 8 0b11111101 = some .white ∧
  decodeTableWord 8 0b10100000 = some (.invalidA0BF 0) ∧
  decodeTableWord 8 0b11110101 = some .invalidF5

/-- Under the adopted table: every header byte is accepted by exactly one row of the opcode table, the row has the code the
decoder extracts, that is the code of the pseudocode of R63, and it is INVALID for exactly the header bytes of R75
(spec/30_encoding.md R63, R75, R82). -/
def Obligations.OpcodeTableMatchesDecoder : Prop :=
  ∀ b : Byte, (∃ r, opcodeTable.filter (fun r => r.accepts b) = [r] ∧
      r.code = extractCode Encoding.adopted b) ∧
    extractCode Encoding.adopted b = pseudocodeCode b ∧
    (extractCode Encoding.adopted b = .invalid ↔ isInvalidByte b)

/-- `ENC` is a parameter of the build (R11, D3): under every table that is a map, a header byte a row accepts has that row's
code and its length field, and a header byte is INVALID exactly when no row accepts it. -/
def Obligations.EncodingTableDecidesTheCode : Prop :=
  ∀ (e : Encoding) (b : Byte), e.wf →
    (∀ r ∈ e.rows, r.accepts b = true → extractCode e b = r.code ∧ lengthField e b = b &&& r.field) ∧
    ((∀ r ∈ e.rows, r.accepts b = false) ↔ extractCode e b = .invalid)

/-- Under the adopted table, decoding an encoded well-formed header gives the header and the bytes after it, for every form
and every operand. -/
def Obligations.DecodeOfEncode : Prop :=
  ∀ (i : Instr) (rest : List Byte), i.wellFormed = true → decode Encoding.adopted (encode i ++ rest) = .ok (i, rest)

/-- Whatever decodes under the adopted table is the encoding of what it decodes to, which is well formed: no byte string has
two readings. -/
def Obligations.EncodeOfDecode : Prop :=
  ∀ (bs : List Byte) (i : Instr) (rest : List Byte),
    decode Encoding.adopted bs = .ok (i, rest) → i.wellFormed = true ∧ encode i ++ rest = bs

/-- R66 to R71, under the adopted table: what a valid header latches into `runLength` and `advance`, and that a header
whose run-length bytes are missing fails the call with MalformedHeader. -/
def Obligations.HeaderBytesGiveRunLength : Prop :=
  ∀ s : State, s.Inv → s.cfg.enc = Encoding.adopted → s.status = .busy → s.sp < s.srcLen →
    ¬ isInvalidByte (s.src.read s.sp) →
    ∀ h, h = headerOf (s.src.read s.sp) (s.src.read (s.sp + 1)) (s.src.read (s.sp + 2)) →
      (¬ s.srcAvail h.2 → step s = .next (raiseFail .malformedHeader (firstLineUpdate s))) ∧
      (s.srcAvail h.2 → ∀ t, step s = .next t → t.status = .busy →
        t.advance = h.2 ∧ ∀ n, h.1 = some n → t.runLength = n)

/-! ## The orders: result, frame and completion -/

/-- R103: a background run writes `runLength` pixels, each `BgPixel()`, the first one `FgPixel()` when `fInsertFgPel` is set;
without room for all of them it fails the call. Nothing else changes but the header registers, the cursors and
`fInsertFgPel`. -/
def Obligations.BackgroundRunResult : Prop :=
  ∀ (s : State) (L : BitVec 5) (n lo hi : Byte) (f : Form), f ∈ bgForms s.cfg.enc L n lo hi → s.Ready →
    (s.dstAvail f.length → ∃ d,
      exec f.instr s = .next { s with
        code := f.code
        runLength := f.length
        advance := f.advance
        sp := s.sp + f.advance
        dp := s.dp + f.length * s.pxBytes
        fInsertFgPel := true
        dst := d } ∧
      RunBytes s d f.length fun k j =>
        if s.fInsertFgPel = true ∧ k = 0 then fgByte s d s.fgPel k j else bgByte s d k j) ∧
    (¬ s.dstAvail f.length → exec f.instr s = .next (raiseFail .destinationOverflow s))

/-- R104 with R91, R93, R94: a foreground run writes `runLength` times `FgPixel()`; a set-color form first loads `fgPel` with
the literal pixel after the header. A missing literal fails the call with SourceExhaustion, missing room with
DestinationOverflow. Not the document's but the spec's and the model's choice: the first of the two is named where both are
missing (R94, log 23), and `code`, `runLength`, `advance` keep the header's values after the order (log 14). -/
def Obligations.ForegroundRunResult : Prop := PlainForegroundRuns ∧ SetColorForegroundRuns

/-- R115: a dithered run reads two literal pixels and writes them in turn, `2 * runLength` pixels in all. -/
def Obligations.DitheredRunResult : Prop :=
  ∀ (s : State) (L : BitVec 4) (n lo hi : Byte) (f : Form), f ∈ ditheredForms s.cfg.enc L n lo hi → s.Ready →
    (s.srcAvail (f.advance + 2 * s.pxBytes) → s.dstAvail (2 * f.length) → ∃ d,
      exec f.instr s = .next { s with
        code := f.code
        runLength := f.length
        advance := f.advance
        pixA := s.src.readBytes (s.sp + f.advance) s.pxBytes
        pixB := s.src.readBytes (s.sp + f.advance + s.pxBytes) s.pxBytes
        sp := s.sp + f.advance + 2 * s.pxBytes
        dp := s.dp + 2 * f.length * s.pxBytes
        fInsertFgPel := false
        dst := d } ∧
      RunBytes s d (2 * f.length) fun k j => s.src.read (s.sp + f.advance + k % 2 * s.pxBytes + j)) ∧
    (¬ s.srcAvail (f.advance + 2 * s.pxBytes) → exec f.instr s = .next (raiseFail .sourceExhaustion s)) ∧
    (s.srcAvail (f.advance + 2 * s.pxBytes) → ¬ s.dstAvail (2 * f.length) →
      exec f.instr s = .next (raiseFail .destinationOverflow s))

/-- R119: a color run reads one literal pixel and writes it `runLength` times. -/
def Obligations.ColorRunResult : Prop :=
  ∀ (s : State) (L : BitVec 5) (n lo hi : Byte) (f : Form), f ∈ colorRunForms s.cfg.enc L n lo hi → s.Ready →
    (s.srcAvail (f.advance + s.pxBytes) → s.dstAvail f.length → ∃ d,
      exec f.instr s = .next { s with
        code := f.code
        runLength := f.length
        advance := f.advance
        pix := s.src.readBytes (s.sp + f.advance) s.pxBytes
        sp := s.sp + f.advance + s.pxBytes
        dp := s.dp + f.length * s.pxBytes
        fInsertFgPel := false
        dst := d } ∧
      RunBytes s d f.length fun _ j => s.src.read (s.sp + f.advance + j)) ∧
    (¬ s.srcAvail (f.advance + s.pxBytes) → exec f.instr s = .next (raiseFail .sourceExhaustion s)) ∧
    (s.srcAvail (f.advance + s.pxBytes) → ¬ s.dstAvail f.length →
      exec f.instr s = .next (raiseFail .destinationOverflow s))

/-- R126: an FG/BG image writes `runLength` pixels, pixel `k` being `FgPixel()` or `BgPixel()` by bit `k mod 8` of mask byte
`k / 8`, and consumes `ceil(runLength / 8)` mask bytes; a set-color form first loads `fgPel` with the literal pixel after the
header. Afterwards `bitmask` is a free value (log 14). -/
def Obligations.FgbgImageResult : Prop := PlainFgbgImages ∧ SetColorFgbgImages

/-- R132 with R91, R93, R94: a color image copies `runLength * P` bytes from source to destination, byte for byte; missing
source bytes fail the call with SourceExhaustion, missing room with DestinationOverflow. Not the document's but the spec's
and the model's choice: the first of the two is named where both are missing (R94, log 23), and `code`, `runLength`,
`advance` keep the header's values after the order (log 14). -/
def Obligations.ColorImageResult : Prop :=
  ∀ (s : State) (L : BitVec 5) (n lo hi : Byte) (f : Form), f ∈ colorImageForms s.cfg.enc L n lo hi → s.Ready →
    (s.srcAvail (f.advance + f.length * s.pxBytes) → s.dstAvail f.length → ∃ d,
      exec f.instr s = .next { s with
        code := f.code
        runLength := f.length
        advance := f.advance
        sp := s.sp + f.advance + f.length * s.pxBytes
        dp := s.dp + f.length * s.pxBytes
        fInsertFgPel := false
        dst := d } ∧
      RunBytes s d f.length fun k j => s.src.read (s.sp + f.advance + k * s.pxBytes + j)) ∧
    (¬ s.srcAvail (f.advance + f.length * s.pxBytes) → exec f.instr s = .next (raiseFail .sourceExhaustion s)) ∧
    (s.srcAvail (f.advance + f.length * s.pxBytes) → ¬ s.dstAvail f.length →
      exec f.instr s = .next (raiseFail .destinationOverflow s))

/-- R140, R141, R142: the two special FG/BG orders write 8 pixels under their build-time masks, low bit first, reading no source
byte but the header; without room for 8 they fail the call. The value of `runLength` is the model's choice (log 25), and
`bitmask` is a free value afterwards (log 14). -/
def Obligations.SpecialFgbgResult : Prop :=
  ∀ (s : State) (f : Form) (mask : Byte),
    ((f, mask) = (⟨.specialFgbg1, .specialFgbg1, 8, 1⟩, s.cfg.maskSpecial1) ∨
      (f, mask) = (⟨.specialFgbg2, .specialFgbg2, 8, 1⟩, s.cfg.maskSpecial2)) → s.Ready →
    (s.dstAvail 8 → ∃ d,
      exec f.instr s = .next { s with
        code := f.code
        runLength := f.length
        advance := f.advance
        sp := s.sp + 1
        bitmask := Config.freeBitmask s.freeCount
        dp := s.dp + 8 * s.pxBytes
        fInsertFgPel := false
        dst := d
        freeCount := s.freeCount + 1 } ∧
      RunBytes s d 8 fun k j => if mask.getLsbD k = true then fgByte s d s.fgPel k j else bgByte s d k j) ∧
    (¬ s.dstAvail 8 → exec f.instr s = .next (raiseFail .destinationOverflow s))

/-- R146, R143, R144: WHITE and BLACK write one pixel, the build-time constant; without room for it they fail the call. The value
of `runLength` is the model's choice (log 25). -/
def Obligations.SinglePixelResult : Prop :=
  ∀ (s : State) (f : Form) (v : Pixel),
    ((f, v) = (⟨.white, .white, 1, 1⟩, s.cfg.whitePixel) ∨
      (f, v) = (⟨.black, .black, 1, 1⟩, s.cfg.blackPixel)) → s.Ready →
    (s.dstAvail 1 → ∃ d,
      exec f.instr s = .next { s with
        code := f.code
        runLength := f.length
        advance := f.advance
        sp := s.sp + 1
        dp := s.dp + s.pxBytes
        fInsertFgPel := false
        dst := d } ∧
      RunBytes s d 1 fun _ j => v.getD j 0) ∧
    (¬ s.dstAvail 1 → exec f.instr s = .next (raiseFail .destinationOverflow s))

/-- R145: each of the five INVALID forms fails the call with InvalidOrderCode in every state; a header byte at the cursor that
`ENC` maps to no order does so, whatever follows it; under the adopted table those are the bytes of R75. -/
def Obligations.InvalidCodeFailsTheCall : Prop :=
  (∀ (s : State) (x : BitVec 5), ∀ i ∈ [.invalidA0BF x, .invalidF5, .invalidFB, .invalidFC, .invalidFF],
    exec i s = .next (raiseFail .invalidOrderCode s)) ∧
  ∀ s : State, s.status = .busy → s.sp < s.srcLen →
    (extractCode s.cfg.enc (s.src.read s.sp) = .invalid →
      step s = .next (raiseFail .invalidOrderCode (firstLineUpdate s))) ∧
    (s.cfg.enc = Encoding.adopted → isInvalidByte (s.src.read s.sp) →
      step s = .next (raiseFail .invalidOrderCode (firstLineUpdate s)))

/-- R95: a mega order with `runLength = 0` writes nothing; its header and fixed literals are consumed, a set-color order
still loads `fgPel`, and the insert flag is updated. -/
def Obligations.ZeroLengthMegaOrders : Prop :=
  ∀ s : State, s.Ready → s.dp ≤ s.dstSize →
    (s.srcAvail 3 → ∀ i ∈ [.megaBgRun 0 0, .megaFgRun 0 0, .megaFgbgImage 0 0, .megaColorImage 0 0], ∃ t,
      exec i s = .next t ∧
      t.dst = s.dst ∧ t.dp = s.dp ∧ t.sp = s.sp + 3 ∧ t.fgPel = s.fgPel ∧ t.status = s.status ∧
      t.fInsertFgPel = isBackground (orderCode i)) ∧
    (s.srcAvail (3 + s.pxBytes) → ∀ i ∈ [.megaSetFgRun 0 0, .megaSetFgbgImage 0 0], ∃ t, exec i s = .next t ∧
      t.dst = s.dst ∧ t.dp = s.dp ∧ t.sp = s.sp + 3 + s.pxBytes ∧ t.status = s.status ∧
      t.fgPel = s.src.readBytes (s.sp + 3) s.pxBytes ∧ t.fInsertFgPel = false) ∧
    (s.srcAvail (3 + s.pxBytes) → ∃ t, exec (.megaColorRun 0 0) s = .next t ∧ t.dst = s.dst ∧ t.dp = s.dp ∧
      t.sp = s.sp + 3 + s.pxBytes ∧ t.fgPel = s.fgPel ∧ t.status = s.status ∧ t.fInsertFgPel = false) ∧
    (s.srcAvail (3 + 2 * s.pxBytes) → ∃ t, exec (.megaDitheredRun 0 0) s = .next t ∧ t.dst = s.dst ∧ t.dp = s.dp ∧
      t.sp = s.sp + 3 + 2 * s.pxBytes ∧ t.fgPel = s.fgPel ∧ t.status = s.status ∧ t.fInsertFgPel = false)

/-! ## Shared operations -/

/-- R100 with R47: the two pixel generators. On the first line neither reads the destination; later both read the `P` bytes
at `dp - ROW_DELTA` (R47). With a black pixel of zeros the first line behaves as if a row of black pixels lay above it: that
clause is the spec's own derivation ([derived: from R9 and R16] in R100), not the document's. -/
def Obligations.PixelGenerators : Prop :=
  ∀ s : State, s.Ready → s.dstAvail 1 →
    (s.fFirstLine = true → bgPixel s = .ok s.cfg.blackPixel ∧ fgPixel s = .ok s.fgPel ∧
      (s.cfg.blackPixel = List.replicate s.pxBytes 0x00#8 → fgPixel s = .ok (xorPixel s.cfg.blackPixel s.fgPel))) ∧
    (s.fFirstLine = false → ∃ up fg, bgPixel s = .ok up ∧ fgPixel s = .ok fg ∧
      up.length = s.pxBytes ∧ fg.length = s.pxBytes ∧
      ∀ j, j < s.pxBytes → up.getD j 0 = s.dst.read (s.dp - s.rowDelta + j) ∧
        fg.getD j 0 = up.getD j 0 ^^^ s.fgPel.getD j 0)

/-- R125: the group writer writes `g` pixels under `bitmask`, bit 0 first, and ignores the bits from `g` on. -/
def Obligations.GroupWriterFollowsMask : Prop :=
  ∀ (s : State) (g : Nat), g ≤ 8 → s.Ready → s.dstAvail g →
    (∃ d, writeFgBgGroup g s = .ok { s with dp := s.dp + g * s.pxBytes, dst := d } ∧
      RunBytes s d g fun k j =>
        if s.bitmask.getLsbD k = true then fgByte s d s.fgPel k j else bgByte s d k j) ∧
    ∀ m : Byte, (∀ k, k < g → m.getLsbD k = s.bitmask.getLsbD k) →
      ∃ t t', writeFgBgGroup g s = .ok t ∧ writeFgBgGroup g { s with bitmask := m } = .ok t' ∧ t'.dst = t.dst

/-! ## Flags and registers -/

/-- R93: after an order the insert flag is true exactly when the order was a background run; so at the top of an iteration
it is true exactly when the order before it in this call was one, and at the first iteration it is false. That a START
leaves it false is the spec's decision D8 (R26, R37; DEDUCED, log 22), not a sentence of R93. -/
def Obligations.InsertFlagAfterOrder : Prop :=
  (∀ (s t : State) (i : Instr), s.Ready → s.status = .busy → exec i s = .next t → t.status = .busy →
    t.fInsertFgPel = isBackground (orderCode i)) ∧
  (∀ (s t : State) (i : Instr) (rest : List Byte), s.Inv → s.status = .busy → s.sp < s.srcLen →
    decode s.cfg.enc (fetchHeader s) = .ok (i, rest) → step s = .next t → t.status = .busy →
    t.fInsertFgPel = isBackground (orderCode i)) ∧
  ∀ (c : HostCall) (s : State), (startCall c s).status = .busy → (startCall c s).fInsertFgPel = false

/-- R88: the first-line update turns the flag off when `dp >= ROW_DELTA`; on the transition, and only there, it clears
`fInsertFgPel` when CLEAR_INSERT_ON_LINE_CHANGE is true. No order changes the flag: after an iteration it is
`dp < ROW_DELTA` for the cursor at the top of that iteration. -/
def Obligations.FirstLineFlagIsFrozen : Prop :=
  (∀ s : State, (firstLineUpdate s).fFirstLine = (s.fFirstLine && decide (s.dp < s.rowDelta)) ∧
    (firstLineUpdate s).fInsertFgPel =
      (s.fInsertFgPel && !(s.cfg.clearInsertOnLineChange && s.fFirstLine && decide (s.rowDelta ≤ s.dp))) ∧
    firstLineUpdate s = { s with
      fFirstLine := (firstLineUpdate s).fFirstLine
      fInsertFgPel := (firstLineUpdate s).fInsertFgPel }) ∧
  ∀ s t : State, s.Inv → s.status = .busy → step s = .next t → t.status = .busy →
    t.fFirstLine = decide (s.dp < s.rowDelta)

/-- R184: `fgPel` is white at call start and changes only at set-color orders, which load it with the literal pixel after
their header. -/
def Obligations.FgPelChangesOnlyAtSetColor : Prop :=
  (∀ (c : HostCall) (s : State), (startCall c s).status = .busy → (startCall c s).fgPel = s.cfg.whitePixel) ∧
  ∀ (s t : State) (i : Instr), s.Ready → s.status = .busy → exec i s = .next t → t.status = .busy →
    t.fgPel = if isSetColor (orderCode i) = true then s.src.readBytes (s.sp + headerBytes i) s.pxBytes else s.fgPel

/-- The bytes an order writes are the `P * pixels` bytes from `dp` on, front to back; the source, the parameters, the
configuration, STATUS, CAUSE, `fFirstLine` and the host's calls stay (R39(b), R41, R13, R36). -/
def Obligations.OrderFrame : Prop :=
  ∀ (s t : State) (i : Instr), s.Ready → s.status = .busy → exec i s = .next t → t.status = .busy →
    t.dp = s.dp + orderPixels s.cfg.enc i * s.pxBytes ∧
    (∀ a, a < s.dp ∨ t.dp ≤ a → t.dst.read a = s.dst.read a) ∧
    t.src = s.src ∧ t.cfg = s.cfg ∧ t.srcLen = s.srcLen ∧ t.rowDelta = s.rowDelta ∧ t.width = s.width ∧
    t.height = s.height ∧ t.hostCalls = s.hostCalls ∧ t.cause = s.cause ∧ t.fFirstLine = s.fFirstLine

/-! ## Failures -/

/-- R153 with R155 and R86: what a failure does. STATUS and CAUSE are set; the source, the parameters and the configuration
stay; every destination byte outside the bound stays, and after InvalidConfiguration every one; inside the bound the bytes
are the free values of this failure. -/
def Obligations.FailureEntry : Prop :=
  ∀ (c : Cause) (s : State), s.dst.wf = true →
    (raiseFail c s).status = .fail ∧ (raiseFail c s).cause = c ∧ (raiseFail c s).dst.wf = true ∧
    (∀ a, s.dstSize ≤ a → (raiseFail c s).dst.read a = s.dst.read a) ∧
    (c = .invalidConfiguration → (raiseFail c s).dst = s.dst) ∧
    (c ≠ .invalidConfiguration → ∀ a, a < s.dstSize →
      (raiseFail c s).dst.read a = Config.freeDstByte s.freeCount a) ∧
    (raiseFail c s).src = s.src ∧ (raiseFail c s).cfg = s.cfg ∧ (raiseFail c s).srcLen = s.srcLen ∧
    (raiseFail c s).rowDelta = s.rowDelta ∧ (raiseFail c s).width = s.width ∧
    (raiseFail c s).height = s.height ∧ (raiseFail c s).hostCalls = s.hostCalls

/-- R94, R154, R186: an order passes its source checks and its capacity check and then writes all its pixels, or fails the
call; the source is tested first; whether it completes depends on the two sizes alone. -/
def Obligations.OrderCompletesExactlyWhenItFits : Prop :=
  ∀ (s : State) (i : Instr), s.Ready → s.srcAvail (headerBytes i) → orderCode i ≠ .invalid →
    (¬ s.srcAvail (headerBytes i + operandBytes s.cfg.enc s.pxBytes i) → exec i s = .next (raiseFail .sourceExhaustion s)) ∧
    (s.srcAvail (headerBytes i + operandBytes s.cfg.enc s.pxBytes i) → ¬ s.dstAvail (orderPixels s.cfg.enc i) →
      exec i s = .next (raiseFail .destinationOverflow s)) ∧
    (s.srcAvail (headerBytes i + operandBytes s.cfg.enc s.pxBytes i) → s.dstAvail (orderPixels s.cfg.enc i) →
      ∃ t, exec i s = .next t ∧ t.status = s.status ∧
        t.sp = s.sp + headerBytes i + operandBytes s.cfg.enc s.pxBytes i ∧ t.dp = s.dp + orderPixels s.cfg.enc i * s.pxBytes)

/-- Which cause the body of an order can raise (the upper bounds of the table of R151). -/
def Obligations.CausesPerOrder : Prop :=
  ∀ (s t : State) (i : Instr), s.Ready → s.status = .busy → exec i s = .next t → t.status = .fail →
    t.cause ∈ bodyCauses (orderCode i)

/-- R160: after a failure the engine does nothing; only a new START follows. -/
def Obligations.FailureIsFinal : Prop :=
  (∀ s : State, s.status = .fail → s.hostCalls = [] → step s = .next s) ∧
  ∀ (s : State) (c : HostCall) (rest : List HostCall), s.status = .fail → s.hostCalls = c :: rest →
    step s = .next (startCall c { s with hostCalls := rest })

/-! ## The call -/

/-- R86: a START whose ROW_DELTA is 0 or below WIDTH fails with InvalidConfiguration; the destination keeps exactly what the
host left there. -/
def Obligations.BadConfigurationFailsFirst : Prop :=
  ∀ (s : State) (c : HostCall) (rest : List HostCall), s.status ≠ .busy → s.hostCalls = c :: rest →
    c.rowDelta = 0 ∨ c.rowDelta < c.width →
    ∃ t, step s = .next t ∧ t.status = .fail ∧ t.cause = .invalidConfiguration ∧ t.hostCalls = rest ∧
      t.dst = s.dst.writeBytes 0 c.destination ∧ t.src = s.src.writeBytes 0 c.source

/-- R87 with R85 and R37: a START with a legal configuration begins the call with the five values of R87, STATUS BUSY (R85), the
host's parameters and the host's buffers. The model's choices: the host's bytes go to the buffers from offset 0 on (log 17),
and its coming calls are a list (log 15). That `fInsertFgPel` starts false is the spec's decision D8 (log 22). -/
def Obligations.StartBeginsTheCall : Prop :=
  ∀ (s : State) (c : HostCall) (rest : List HostCall), s.status ≠ .busy → s.hostCalls = c :: rest →
    c.rowDelta ≠ 0 → c.width ≤ c.rowDelta →
    ∃ t, step s = .next t ∧ t.status = .busy ∧ t.sp = 0 ∧ t.dp = 0 ∧ t.fgPel = s.cfg.whitePixel ∧
      t.fFirstLine = true ∧ t.fInsertFgPel = false ∧ t.srcLen = c.srcLen ∧ t.rowDelta = c.rowDelta ∧
      t.width = c.width ∧ t.height = c.height ∧ t.hostCalls = rest ∧ t.cfg = s.cfg ∧
      t.dst = s.dst.writeBytes 0 c.destination ∧ t.src = s.src.writeBytes 0 c.source

/-- R38: nothing persists from one call to the next. What a START leaves is the same for any two states with the same
configuration, buffers, coming calls and free counter, whatever the registers of the call before held. -/
def Obligations.NothingPersistsBetweenCalls : Prop :=
  ∀ (s s' : State) (c : HostCall), s.cfg = s'.cfg → s.src = s'.src → s.dst = s'.dst → s.hostCalls = s'.hostCalls →
    s.freeCount = s'.freeCount → startCall c s = startCall c s'

/-- R90: with the source consumed exactly the call ends in success, whatever `dp` is, with both buffers and the parameters as
they are; a running call ends in success in no other way. -/
def Obligations.SuccessExactlyAtEndOfSource : Prop :=
  (∀ s : State, s.status = .busy → s.sp = s.srcLen → ∃ t, step s = .next t ∧ t.status = .ok ∧ t.dst = s.dst ∧
    t.src = s.src ∧ t.cfg = s.cfg ∧ t.srcLen = s.srcLen ∧ t.rowDelta = s.rowDelta ∧ t.width = s.width ∧
    t.height = s.height ∧ t.hostCalls = s.hostCalls) ∧
  ∀ s t : State, s.Inv → s.status = .busy → step s = .next t → t.status = .ok → s.sp = s.srcLen

/-- R89, R91, R97: while source bytes are left, the step of a running call is the decoded order's `exec` after the first-line
update. -/
def Obligations.StepRunsDecodedOrder : Prop :=
  ∀ (s : State) (i : Instr) (rest : List Byte), s.status = .busy → s.sp < s.srcLen →
    decode s.cfg.enc (fetchHeader s) = .ok (i, rest) → step s = exec i (firstLineUpdate s)

/-- Under the adopted table, a well-formed order whose header bytes stand at the cursor, inside the source, is the one the
step runs. -/
def Obligations.StepRunsEncodedOrder : Prop :=
  ∀ (s : State) (i : Instr), s.cfg.enc = Encoding.adopted → s.status = .busy → i.wellFormed = true →
    s.srcAvail (headerBytes i) → StandsAt s.src s.sp (encode i) → step s = exec i (firstLineUpdate s)

/-- A word of the opcode table placed after reset is the first order the machine runs (log 24). -/
def Obligations.PlacedWordRunsFirst : Prop :=
  ∀ (nbits w : Nat) (i : Instr), decodeTableWord nbits w = some i →
    step (State.reset.withFetchWord nbits w) = exec i (State.reset.withFetchWord nbits w)

/-- R30, R85, R160: how STATUS moves. A running call stays running or ends; without one, nothing happens or a call starts,
which runs or fails at once. -/
def Obligations.StatusTransitions : Prop :=
  ∀ s t : State, step s = .next t →
    (s.status = .busy → t.status = .busy ∨ t.status = .ok ∨ t.status = .fail) ∧
    (s.status ≠ .busy → t = s ∨ t.status = .busy ∨ (t.status = .fail ∧ t.cause = .invalidConfiguration))

/-! ## Invariants and whole-machine rules -/

/-- Power-on reset of every instance meets the invariant, and STATUS is IDLE (R170). -/
def Obligations.ResetMeetsInvariant : Prop :=
  State.reset.Inv ∧ State.reset.status = .idle ∧
    ∀ c : Config, c.wf → (State.powerOn c).Inv ∧ (State.powerOn c).status = .idle

/-- R39: every step keeps the invariant, from every state that meets it: pixels have `P` bytes, the memories are canonical,
and while a call runs its configuration is legal, both cursors are inside their bounds, `dp` is a multiple of `P` and
`fFirstLine` is false only past the first row. -/
def Obligations.StepKeepsInvariant : Prop :=
  ∀ s t : State, s.Inv → step s = .next t → t.Inv

/-- R58: from every state that meets the invariant the step answers a next state: no access is ever outside a buffer and no
order is refused. -/
def Obligations.NoAccessOutOfBounds : Prop :=
  ∀ s : State, s.Inv → isNext (step s)

/-- R99(c), R58, R41: no step of a running call changes the source, the parameters, the configuration or a destination byte
outside the bound. -/
def Obligations.NothingOutsideTheBoundChanges : Prop :=
  ∀ s t : State, s.Inv → s.status = .busy → step s = .next t →
    t.src = s.src ∧ t.cfg = s.cfg ∧ t.srcLen = s.srcLen ∧ t.rowDelta = s.rowDelta ∧ t.width = s.width ∧
    t.height = s.height ∧ ∀ a, s.dstSize ≤ a → t.dst.read a = s.dst.read a

/-- R23, R24, R98: the cursors. A step that leaves the call running moves `sp` by at least one and at most to `SRC_LEN`, and
never moves `dp` back. -/
def Obligations.CursorsOnlyAdvance : Prop :=
  ∀ s t : State, s.Inv → s.status = .busy → s.sp < s.srcLen → step s = .next t → t.status = .busy →
    s.sp + 1 ≤ t.sp ∧ t.sp ≤ t.srcLen ∧ s.dp ≤ t.dp ∧ t.dp ≤ t.dstSize

/-- R98: every iteration fails the call or moves `sp` on by at least one and, under the adopted table, writes at most
`2 * 65535` pixels; a running call ends, after at most one step for each source byte left and one more. -/
def Obligations.CallAlwaysEnds : Prop :=
  (∀ s t : State, s.Inv → s.status = .busy → s.sp < s.srcLen → step s = .next t →
    t.status = .fail ∨ (s.sp + 1 ≤ t.sp ∧ (s.cfg.enc = Encoding.adopted → t.dp ≤ s.dp + 2 * 65535 * s.pxBytes))) ∧
  ∀ s : State, s.Inv → s.status = .busy →
    ∃ k t, k ≤ s.srcLen - s.sp + 1 ∧ Sys2Proof.core.run k s = .next t ∧ (t.status = .ok ∨ t.status = .fail)

/-- R39 with R174: when `ROW_DELTA >= P`, two runs of a call that differ only in destination bytes the call has not written yet
go the same way; while the call goes on they still differ at most there, and when it succeeds the bytes it has written are
the same. -/
def Obligations.ResultIndependentOfOldDestination : Prop :=
  ∀ s s' t : State, s.Inv → s.status = .busy → s.pxBytes ≤ s.rowDelta → SameBelowCursor s s' → step s = .next t →
    ∃ t', step s' = .next t' ∧ t'.status = t.status ∧ (t.status = .busy → SameBelowCursor t t') ∧
      (t.status = .ok → ∀ a, a < s.dp → t.dst.read a = t'.dst.read a)

/-- R27, R28, R29: `bitmask`, the RunOrder registers and the pixel temporaries are written before they are read: their values
before an order change nothing but themselves after it. -/
def Obligations.EphemeralRegistersAreNotRead : Prop :=
  ∀ (s t : State) (i : Instr) (m : Byte) (c : OrderCode) (n a : Nat) (pa pb p : Pixel), s.Ready →
    exec i s = .next t →
    ∃ t', exec i { s with bitmask := m, code := c, runLength := n, advance := a, pixA := pa, pixB := pb, pix := p } =
        .next t' ∧
      t' = { t with
        bitmask := t'.bitmask
        code := t'.code
        runLength := t'.runLength
        advance := t'.advance
        pixA := t'.pixA
        pixB := t'.pixB
        pix := t'.pix }

/-- R180: the host has no move while a call runs: the calls it will still make do not change what the step of a running call
does. -/
def Obligations.HostHasNoMoveDuringCall : Prop :=
  ∀ (s t : State) (cs : List HostCall), s.status = .busy → step s = .next t →
    t.hostCalls = s.hostCalls ∧ step { s with hostCalls := cs } = .next { t with hostCalls := cs }

/-- Literal orders depend on ROW_DELTA only through DST_SIZE, and not on `fFirstLine`, `fgPel` or `fInsertFgPel`
(one order's share of R122). -/
def Obligations.LiteralOrdersIgnoreTheRowAbove : Prop :=
  ∀ (s t : State) (i : Instr) (rd h : Nat) (first insert : Bool) (fg : Pixel), s.Ready → s.status = .busy →
    isLiteral (orderCode i) = true → rd * h = s.dstSize → exec i s = .next t → t.status = .busy →
    exec i { s with rowDelta := rd, height := h, fFirstLine := first, fInsertFgPel := insert, fgPel := fg } =
      .next { t with rowDelta := rd, height := h, fFirstLine := first, fgPel := fg }

/-! ## Rules about runs -/

/-- R110: an order that begins with `fFirstLine` true is rendered with the first-line forms throughout, also where it crosses
into later rows: a foreground run writes `fgPel`, a background run writes black, but for its inserted pixel, which is `fgPel`
(log 22). -/
def Obligations.FirstLineRunsAreLiteral : Prop :=
  ∀ (s : State) (L : BitVec 5) (n lo hi : Byte) (f : Form), s.Ready → s.fFirstLine = true → s.dstAvail f.length →
    (f ∈ fgForms s.cfg.enc L n lo hi → ∃ t, exec f.instr s = .next t ∧
      RunBytes s t.dst f.length fun _ j => s.fgPel.getD j 0) ∧
    (f ∈ bgForms s.cfg.enc L n lo hi → ∃ t, exec f.instr s = .next t ∧
      RunBytes s t.dst f.length fun k j =>
        if s.fInsertFgPel = true ∧ k = 0 then s.fgPel.getD j 0 else s.cfg.blackPixel.getD j 0)

/-- Two background runs of lengths `L1`, `L2` one after the other below the first line: pixel 0 is copied unless the flag was
already set, pixel `L1` is the row above XOR `fgPel`, every other pixel is copied (R109 for `ROW_DELTA >= P`). -/
def Obligations.BackgroundRunAdjacency : Prop :=
  ∀ (s : State) (L L' : BitVec 5) (n n' lo lo' hi hi' : Byte) (f g : Form), f ∈ bgForms s.cfg.enc L n lo hi →
    g ∈ bgForms s.cfg.enc L' n' lo' hi' → s.Ready → s.fFirstLine = false → s.pxBytes ≤ s.rowDelta → 0 < f.length →
    s.dstAvail (f.length + g.length) →
    ∃ t u, exec f.instr s = .next t ∧ exec g.instr t = .next u ∧ u.fInsertFgPel = true ∧
      ∀ k, k < f.length + g.length → ∀ j, j < s.pxBytes →
        u.dst.read (s.dp + k * s.pxBytes + j) =
          if (s.fInsertFgPel = true ∧ k = 0) ∨ k = f.length then
            u.dst.read (s.dp + k * s.pxBytes + j - s.rowDelta) ^^^ s.fgPel.getD j 0
          else u.dst.read (s.dp + k * s.pxBytes + j - s.rowDelta)

/-- R112: below the first line, in a run longer than a row, a byte a row into the run is made from the byte this same run wrote
a row before: a background run copies it, a foreground run XORs it with `fgPel`; where rows hold whole pixels, a foreground
run repeats the row two before. -/
def Obligations.RunsLongerThanARow : Prop :=
  ∀ (s : State) (L : BitVec 5) (n lo hi : Byte) (f : Form), s.Ready → s.fFirstLine = false → s.pxBytes ≤ s.rowDelta →
    s.dstAvail f.length →
    (f ∈ bgForms s.cfg.enc L n lo hi → ∃ t, exec f.instr s = .next t ∧
      ∀ a, s.dp + s.rowDelta ≤ a → a < s.dp + f.length * s.pxBytes →
        t.dst.read a = t.dst.read (a - s.rowDelta)) ∧
    (f ∈ fgForms s.cfg.enc L n lo hi → ∃ t, exec f.instr s = .next t ∧
      (∀ a, s.dp + s.rowDelta ≤ a → a < s.dp + f.length * s.pxBytes →
        t.dst.read a = t.dst.read (a - s.rowDelta) ^^^ s.fgPel.getD ((a - s.dp) % s.pxBytes) 0) ∧
      (s.pxBytes ∣ s.rowDelta → ∀ a, s.dp + 2 * s.rowDelta ≤ a → a < s.dp + f.length * s.pxBytes →
        t.dst.read a = t.dst.read (a - 2 * s.rowDelta)))

/-- R135, under the adopted table: a stream of color image orders that covers the whole destination reproduces
the grid byte for byte: from START the call succeeds after one step for each order and one for the end. -/
def Obligations.ColorImageRoundTrip : Prop :=
  ∀ (s : State) (c : HostCall) (rest : List HostCall) (cs : List (Form × List Byte)), s.Inv →
    s.cfg.enc = Encoding.adopted → s.status ≠ .busy → s.hostCalls = c :: rest → c.rowDelta ≠ 0 → c.width ≤ c.rowDelta →
    (∀ x ∈ cs, IsColorImageChunk s.cfg.enc s.pxBytes x) → c.source = streamOf cs → c.srcLen = (streamOf cs).length →
    (gridOf cs).length = c.rowDelta * c.height →
    ∃ t, Sys2Proof.core.run (cs.length + 2) s = .next t ∧ t.status = .ok ∧ StandsAt t.dst 0 (gridOf cs)

/-- A successful call leaves every destination byte at or above its final `dp` as it found it, covered or not, and the host sees
STATUS OK with that destination, and nothing before (R57, R52, one side of R99(a)). -/
def Obligations.UnwrittenBytesKeepTheirValue : Prop :=
  ∀ (s u : State) (k : Nat), s.Inv → s.status = .busy → s.hostCalls = [] → Sys2Proof.core.run k s = .next u →
    u.status = .busy → u.sp = u.srcLen →
    u.hostView = none ∧ ∃ t, step u = .next t ∧ t.hostView = some (.ok, t.dst) ∧
      ∀ a, u.dp ≤ a → t.dst.read a = s.dst.read a
end

