-- ==== Sys2Proof/Laws/Decode.lean ====
section
/-! SUPPORT. The build's encoding table and the decoder: the adopted table is a map, what a row found says, how many bytes a
decode takes under any table. -/

namespace Sys2Proof

/-- The adopted table maps no header byte twice, and every length field fits its format. -/
theorem Encoding.adopted_wf : Encoding.adopted.wf := by decide

@[simp] theorem Encoding.adopted_regularBias : Encoding.adopted.regularBias = 32 := rfl
@[simp] theorem Encoding.adopted_liteBias : Encoding.adopted.liteBias = 16 := rfl
@[simp] theorem Encoding.adopted_imageBias : Encoding.adopted.imageBias = 1 := rfl
@[simp] theorem Encoding.adopted_imageScale : Encoding.adopted.imageScale = 8 := rfl
@[simp] theorem Encoding.adopted_megaOrder : Encoding.adopted.megaOrder = .lowFirst := rfl

/-- The build the spec adopts is a legal one, for every pixel width. -/
theorem Config.adopted_wf (w : PixelWidth) (clear : Bool) : (Config.adopted w clear).wf :=
  ⟨List.length_replicate, List.length_replicate, Encoding.adopted_wf⟩

/-- A row found for a header byte is a row of the table and accepts the byte. -/
theorem Encoding.row_eq_some {e : Encoding} {b : Byte} {r : EncodingRow} (h : e.row b = some r) :
    r ∈ e.rows ∧ r.accepts b = true :=
  ⟨List.mem_of_find?_eq_some h, List.find?_some (p := fun q : EncodingRow => q.accepts b) h⟩

/-- No row is found exactly when no row accepts the header byte. -/
theorem Encoding.row_eq_none {e : Encoding} {b : Byte} : e.row b = none ↔ ∀ r ∈ e.rows, r.accepts b = false := by
  simp [Encoding.row]

open Machine

/-- A REGULAR header takes the bytes of the form it decodes to. -/
theorem decodeRegular_length {short : BitVec 5 → Instr} {extended : Byte → Instr} {b f : Byte} {bs rest : List Byte}
    {i : Instr} (hs : ∀ L, headerBytes (short L) = 1) (hx : ∀ n, headerBytes (extended n) = 2)
    (h : decodeRegular short extended f bs = .ok (i, rest)) : headerBytes i + rest.length = (b :: bs).length := by
  unfold decodeRegular at h
  split at h
  · cases h; simp [hs, Nat.add_comm]
  · split at h <;> cases h
    simp [hx]; omega

/-- A LITE header takes the bytes of the form it decodes to. -/
theorem decodeLite_length {short : BitVec 4 → Instr} {extended : Byte → Instr} {b f : Byte} {bs rest : List Byte}
    {i : Instr} (hs : ∀ L, headerBytes (short L) = 1) (hx : ∀ n, headerBytes (extended n) = 2)
    (h : decodeLite short extended f bs = .ok (i, rest)) : headerBytes i + rest.length = (b :: bs).length := by
  unfold decodeLite at h
  split at h
  · cases h; simp [hs, Nat.add_comm]
  · split at h <;> cases h
    simp [hx]; omega

/-- A MEGA header takes three bytes. -/
theorem decodeMega_length {o : ByteOrder} {mega : Byte → Byte → Instr} {b : Byte} {bs rest : List Byte} {i : Instr}
    (hm : ∀ lo hi, headerBytes (mega lo hi) = 3) (h : decodeMega o mega bs = .ok (i, rest)) :
    headerBytes i + rest.length = (b :: bs).length := by
  unfold decodeMega at h
  split at h
  · split at h <;> cases h <;> (simp [hm]; omega)
  · cases h

/-- An INVALID header byte is one byte. -/
theorem headerBytes_invalidForm (b : Byte) : headerBytes (invalidForm b) = 1 := by
  unfold invalidForm
  split_ifs <;> rfl

/-- Under every table, a decoded header takes its bytes from the front of the source bytes. -/
theorem decode_length {e : Encoding} {bs rest : List Byte} {i : Instr} (h : decode e bs = .ok (i, rest)) :
    headerBytes i + rest.length = bs.length := by
  cases bs with
  | nil => cases h
  | cons b bs =>
    simp only [decode] at h
    split at h
    all_goals first
      | exact decodeRegular_length (fun _ => rfl) (fun _ => rfl) h
      | exact decodeLite_length (fun _ => rfl) (fun _ => rfl) h
      | exact decodeMega_length (fun _ _ => rfl) h
      | (cases h; exact Nat.add_comm 1 _)
      | (cases h; rw [headerBytes_invalidForm]; exact Nat.add_comm 1 _)

/-- Under every table, only where no source byte is left there is no header byte. -/
theorem decode_noHeaderByte {e : Encoding} {bs : List Byte} (h : decode e bs = .error .noHeaderByte) : bs = [] := by
  cases bs with
  | nil => rfl
  | cons b bs =>
    simp only [decode] at h
    split at h
    all_goals first
      | cases h
      | (unfold decodeRegular at h; (repeat' split at h) <;> cases h)
      | (unfold decodeLite at h; (repeat' split at h) <;> cases h)
      | (unfold decodeMega at h; (repeat' split at h) <;> cases h)

end Sys2Proof
end

