-- ==== Sys2Proof/Laws/Memory.lean ====
section
/-! SUPPORT. The laws of byte memories: read after write, and that every operation keeps the canonical form. -/

namespace Sys2Proof.Machine

theorem Memory.sortedFrom_mono {lo lo' : Nat} {m : Memory} (h : m.sortedFrom lo = true) (hl : lo' ≤ lo) :
    m.sortedFrom lo' = true := by
  cases m with
  | nil => rfl
  | cons c m =>
    simp only [Memory.sortedFrom, Bool.and_eq_true, decide_eq_true_eq] at h ⊢
    exact ⟨⟨by omega, h.1.2⟩, h.2⟩

theorem Memory.read_of_lt {lo a : Nat} {m : Memory} (h : m.sortedFrom lo = true) (ha : a < lo) :
    m.read a = Memory.unlisted := by
  induction m generalizing lo with
  | nil => rfl
  | cons c m ih =>
    simp only [Memory.sortedFrom, Bool.and_eq_true, decide_eq_true_eq] at h
    have hne : a ≠ c.1 := by omega
    simp only [Memory.read, hne, if_false]
    exact ih h.2 (by omega)

theorem Memory.write_sortedFrom {lo a : Nat} {m : Memory} (v : Byte) (h : m.sortedFrom lo = true) (ha : lo ≤ a) :
    (m.write a v).sortedFrom lo = true := by
  induction m generalizing lo with
  | nil => by_cases hv : v = Memory.unlisted <;> simp [Memory.write, Memory.sortedFrom, hv, ha]
  | cons c m ih =>
    simp only [Memory.sortedFrom, Bool.and_eq_true, decide_eq_true_eq] at h
    obtain ⟨⟨h1, h2⟩, h3⟩ := h
    simp only [Memory.write]
    split_ifs with h4 h5 h6 h7
    · simp [Memory.sortedFrom, h1, h2, h3]
    · simp [Memory.sortedFrom, ha, h5, h2, h3]; omega
    · exact Memory.sortedFrom_mono h3 (by omega)
    · simp [Memory.sortedFrom, h1, h7, h3]
    · simp [Memory.sortedFrom, h1, h2]; exact ih h3 (by omega)

theorem Memory.read_write_of_sorted {lo a : Nat} {m : Memory} (v : Byte) (h : m.sortedFrom lo = true) (b : Nat) :
    (m.write a v).read b = if b = a then v else m.read b := by
  induction m generalizing lo with
  | nil => by_cases hv : v = Memory.unlisted <;> simp [Memory.write, Memory.read, hv]
  | cons c m ih =>
    simp only [Memory.sortedFrom, Bool.and_eq_true, decide_eq_true_eq] at h
    obtain ⟨⟨h1, h2⟩, h3⟩ := h
    have hlow : ∀ x, x ≤ c.1 → Memory.read m x = Memory.unlisted := fun x hx =>
      Memory.read_of_lt h3 (by omega)
    rcases Nat.lt_trichotomy a c.1 with hac | hac | hac
    · by_cases hv : v = Memory.unlisted
      · simp only [Memory.write, hac, hv, if_true]
        by_cases hb : b = a
        · subst hb
          have hne : b ≠ c.1 := by omega
          simp [Memory.read, hne, hlow b (by omega)]
        · simp [hb]
      · simp only [Memory.write, hac, hv, if_true, if_false]
        simp [Memory.read]
    · subst hac
      by_cases hv : v = Memory.unlisted
      · simp only [Memory.write, hv, if_true, Nat.lt_irrefl, if_false]
        by_cases hb : b = c.1
        · simp [hb, hlow c.1 (by omega)]
        · simp [Memory.read, hb]
      · simp only [Memory.write, hv, if_true, Nat.lt_irrefl, if_false]
        by_cases hb : b = c.1 <;> simp [Memory.read, hb]
    · have hn1 : ¬ a < c.1 := by omega
      have hn2 : a ≠ c.1 := by omega
      simp only [Memory.write, hn1, hn2, if_false, Memory.read, ih h3]
      by_cases hb : b = c.1
      · have hba : b ≠ a := by omega
        simp [hb]; omega
      · simp [hb]

/-- Read after write. -/
theorem Memory.read_write {m : Memory} (h : m.wf = true) (a : Nat) (v : Byte) (b : Nat) :
    (m.write a v).read b = if b = a then v else m.read b := Memory.read_write_of_sorted v h b

theorem Memory.write_wf {m : Memory} (h : m.wf = true) (a : Nat) (v : Byte) : (m.write a v).wf = true :=
  Memory.write_sortedFrom v h (Nat.zero_le a)

theorem Memory.writeBytes_wf {m : Memory} (h : m.wf = true) (a : Nat) (vs : List Byte) :
    (m.writeBytes a vs).wf = true := by
  induction vs generalizing m a with
  | nil => exact h
  | cons v vs ih => exact ih (Memory.write_wf h a v) (a + 1)

/-- Read after a write of a byte sequence. -/
theorem Memory.read_writeBytes {m : Memory} (h : m.wf = true) (a : Nat) (vs : List Byte) (b : Nat) :
    (m.writeBytes a vs).read b = if a ≤ b ∧ b < a + vs.length then vs.getD (b - a) 0 else m.read b := by
  induction vs generalizing m a with
  | nil =>
    have : ¬ (a ≤ b ∧ b < a + ([] : List Byte).length) := by simp
    rw [Memory.writeBytes, if_neg this]
  | cons v vs ih =>
    rw [Memory.writeBytes, ih (Memory.write_wf h a v), Memory.read_write h, List.length_cons]
    by_cases hb : b = a
    · subst hb
      have h1 : ¬ (b + 1 ≤ b ∧ b < b + 1 + vs.length) := by omega
      have h2 : b ≤ b ∧ b < b + (vs.length + 1) := by omega
      rw [if_neg h1, if_pos h2, if_pos rfl]; simp
    · by_cases hin : a + 1 ≤ b ∧ b < a + 1 + vs.length
      · have h2 : a ≤ b ∧ b < a + (vs.length + 1) := by omega
        have h3 : b - a = (b - (a + 1)) + 1 := by omega
        simp [hin, h2, h3]
      · have h2 : ¬ (a ≤ b ∧ b < a + (vs.length + 1)) := by omega
        rw [if_neg hin, if_neg h2, if_neg hb]

/-- Outside the bytes of a write nothing changes. -/
theorem Memory.read_writeBytes_of_outside {m : Memory} (h : m.wf = true) {a b : Nat} {vs : List Byte}
    (hb : b < a ∨ a + vs.length ≤ b) : (m.writeBytes a vs).read b = m.read b := by
  have : ¬ (a ≤ b ∧ b < a + vs.length) := by omega
  rw [Memory.read_writeBytes h, if_neg this]

@[simp] theorem Memory.length_readBytes (m : Memory) (a n : Nat) : (m.readBytes a n).length = n := by
  induction n generalizing a with
  | zero => rfl
  | succ n ih => simp [Memory.readBytes, ih]

theorem Memory.getD_readBytes (m : Memory) (a : Nat) {n i : Nat} (h : i < n) :
    (m.readBytes a n).getD i 0 = m.read (a + i) := by
  induction n generalizing a i with
  | zero => omega
  | succ n ih =>
    cases i with
    | zero => rfl
    | succ i =>
      have := ih (a + 1) (i := i) (by omega)
      simp only [Memory.readBytes, List.getD_cons_succ, this]
      congr 1; omega

theorem Memory.readBytes_congr {m m' : Memory} {a n : Nat}
    (h : ∀ b, a ≤ b → b < a + n → m.read b = m'.read b) : m.readBytes a n = m'.readBytes a n := by
  induction n generalizing a with
  | zero => rfl
  | succ n ih =>
    rw [Memory.readBytes, Memory.readBytes, h a (by omega) (by omega),
      ih (fun b h1 h2 => h b (by omega) (by omega))]

theorem Memory.keepFrom_sortedFrom {lo bound : Nat} {m : Memory} (h : m.sortedFrom lo = true) :
    (m.keepFrom bound).sortedFrom (max lo bound) = true := by
  induction m generalizing lo with
  | nil => rfl
  | cons c m ih =>
    simp only [Memory.sortedFrom, Bool.and_eq_true, decide_eq_true_eq] at h
    have ih := ih h.2
    simp only [Memory.keepFrom] at ih ⊢
    by_cases hc : bound ≤ c.1
    · rw [show max (c.1 + 1) bound = c.1 + 1 by omega] at ih
      simp only [List.filter, hc, decide_true, Memory.sortedFrom, ih, Bool.and_true, Bool.and_eq_true,
        decide_eq_true_eq]
      exact ⟨by omega, h.1.2⟩
    · simp only [List.filter, hc, decide_false]
      exact Memory.sortedFrom_mono ih (by omega)

theorem Memory.keepBelow_sortedFrom {lo bound : Nat} {m : Memory} (h : m.sortedFrom lo = true) :
    (m.keepBelow bound).sortedFrom lo = true := by
  induction m generalizing lo with
  | nil => rfl
  | cons c m ih =>
    simp only [Memory.sortedFrom, Bool.and_eq_true, decide_eq_true_eq] at h
    have ih := ih h.2
    simp only [Memory.keepBelow] at ih ⊢
    by_cases hc : c.1 < bound
    · simp only [List.filter, hc, decide_true, Memory.sortedFrom, ih, Bool.and_true, Bool.and_eq_true,
        decide_eq_true_eq]
      exact h.1
    · simp only [List.filter, hc, decide_false]
      exact Memory.sortedFrom_mono ih (by omega)

theorem Memory.fillFrom_sortedFrom {f : Nat → Byte} {a n : Nat} {tail : Memory}
    (h : tail.sortedFrom (a + n) = true) : (Memory.fillFrom f a tail n).sortedFrom a = true := by
  induction n generalizing a with
  | zero => exact h
  | succ n ih =>
    have := ih (a := a + 1) (by rw [show a + 1 + n = a + (n + 1) by omega]; exact h)
    rw [Memory.fillFrom]
    split
    · exact Memory.sortedFrom_mono this (by omega)
    · next hf => simp [Memory.sortedFrom, hf, this]

theorem Memory.fillBelow_wf {m : Memory} (h : m.wf = true) (bound : Nat) (f : Nat → Byte) :
    (m.fillBelow bound f).wf = true := by
  refine Memory.fillFrom_sortedFrom ?_
  have := Memory.keepFrom_sortedFrom (bound := bound) h
  rwa [show max 0 bound = 0 + bound by omega] at this

theorem Memory.read_keepFrom_of_ge (m : Memory) {bound b : Nat} (h : bound ≤ b) :
    (m.keepFrom bound).read b = m.read b := by
  induction m with
  | nil => rfl
  | cons c m ih =>
    simp only [Memory.keepFrom] at ih ⊢
    by_cases hc : bound ≤ c.1
    · simp only [List.filter, hc, decide_true, Memory.read, ih]
    · have hne : b ≠ c.1 := by omega
      simp only [List.filter, hc, decide_false, Memory.read, hne, if_false, ih]

theorem Memory.read_fillFrom {f : Nat → Byte} {a n : Nat} {tail : Memory}
    (h : tail.sortedFrom (a + n) = true) (b : Nat) :
    (Memory.fillFrom f a tail n).read b = if a ≤ b ∧ b < a + n then f b else tail.read b := by
  induction n generalizing a with
  | zero =>
    have : ¬ (a ≤ b ∧ b < a + 0) := by omega
    rw [Memory.fillFrom, if_neg this]
  | succ n ih =>
    have ih' := ih (a := a + 1) (by rw [show a + 1 + n = a + (n + 1) by omega]; exact h)
    rw [Memory.fillFrom]
    by_cases hb : b = a
    · subst hb
      have h1 : ¬ (b + 1 ≤ b ∧ b < b + 1 + n) := by omega
      rw [if_pos (by omega : b ≤ b ∧ b < b + (n + 1))]
      have h3 : tail.read b = Memory.unlisted := Memory.read_of_lt h (by omega)
      split
      · next hf => rw [ih', if_neg h1, hf, h3]
      · simp [Memory.read]
    · have h1 : (a + 1 ≤ b ∧ b < a + 1 + n) ↔ (a ≤ b ∧ b < a + (n + 1)) := by omega
      split
      · simp only [ih', h1]
      · simp only [Memory.read, hb, if_false, ih', h1]

/-- What a fill leaves at each offset. -/
theorem Memory.read_fillBelow {m : Memory} (h : m.wf = true) (bound : Nat) (f : Nat → Byte) (b : Nat) :
    (m.fillBelow bound f).read b = if b < bound then f b else m.read b := by
  have hs := Memory.keepFrom_sortedFrom (bound := bound) h
  rw [show max 0 bound = 0 + bound by omega] at hs
  rw [Memory.fillBelow, Memory.read_fillFrom hs]
  by_cases hb : b < bound
  · simp [hb]
  · have : ¬ (0 ≤ b ∧ b < 0 + bound) := by omega
    rw [if_neg this, if_neg hb, Memory.read_keepFrom_of_ge m (by omega)]

/-- Canonical memories with the same bytes are the same data. -/
theorem Memory.eq_of_read_eq {m m' : Memory} {lo lo' : Nat} (h : m.sortedFrom lo = true)
    (h' : m'.sortedFrom lo' = true) (hr : ∀ a, m.read a = m'.read a) : m = m' := by
  induction m generalizing m' lo lo' with
  | nil =>
    cases m' with
    | nil => rfl
    | cons c' m' =>
      simp only [Memory.sortedFrom, Bool.and_eq_true, decide_eq_true_eq] at h'
      have := hr c'.1
      simp only [Memory.read, if_true] at this
      exact absurd this.symm h'.1.2
  | cons c m ih =>
    simp only [Memory.sortedFrom, Bool.and_eq_true, decide_eq_true_eq] at h
    cases m' with
    | nil =>
      have := hr c.1
      simp only [Memory.read, if_true] at this
      exact absurd this h.1.2
    | cons c' m' =>
      simp only [Memory.sortedFrom, Bool.and_eq_true, decide_eq_true_eq] at h'
      obtain ⟨b, v⟩ := c
      obtain ⟨b', v'⟩ := c'
      have hbb : b = b' := by
        rcases Nat.lt_trichotomy b b' with hlt | heq | hgt
        · have := hr b
          have hne : b ≠ b' := by omega
          simp only [Memory.read, if_true, hne, if_false] at this
          rw [Memory.read_of_lt h'.2 (by simp; omega)] at this
          exact absurd this h.1.2
        · exact heq
        · have := hr b'
          have hne : b' ≠ b := by omega
          simp only [Memory.read, if_true, hne, if_false] at this
          rw [Memory.read_of_lt h.2 (by simp; omega)] at this
          exact absurd this.symm h'.1.2
      subst hbb
      have hv : v = v' := by have := hr b; simpa [Memory.read] using this
      subst hv
      rw [ih h.2 h'.2 (fun a => ?_)]
      by_cases ha : a = b
      · subst ha
        rw [Memory.read_of_lt h.2 (by simp), Memory.read_of_lt h'.2 (by simp)]
      · have := hr a
        simpa [Memory.read, ha] using this

end Sys2Proof.Machine
end

