-- ==== Sys2Proof/Laws/State.lean ====
section
/-! SUPPORT. One lemma per field per named update of the state, so that no later proof unfolds a record update. -/

namespace Sys2Proof.Machine

/-! ### loadHeader -/

@[simp] theorem loadHeader_cfg (c : OrderCode) (n adv : Nat) (s : State) : (loadHeader c n adv s).cfg = s.cfg := rfl
@[simp] theorem loadHeader_status (c : OrderCode) (n adv : Nat) (s : State) :
    (loadHeader c n adv s).status = s.status := rfl
@[simp] theorem loadHeader_cause (c : OrderCode) (n adv : Nat) (s : State) :
    (loadHeader c n adv s).cause = s.cause := rfl
@[simp] theorem loadHeader_srcLen (c : OrderCode) (n adv : Nat) (s : State) :
    (loadHeader c n adv s).srcLen = s.srcLen := rfl
@[simp] theorem loadHeader_rowDelta (c : OrderCode) (n adv : Nat) (s : State) :
    (loadHeader c n adv s).rowDelta = s.rowDelta := rfl
@[simp] theorem loadHeader_width (c : OrderCode) (n adv : Nat) (s : State) :
    (loadHeader c n adv s).width = s.width := rfl
@[simp] theorem loadHeader_height (c : OrderCode) (n adv : Nat) (s : State) :
    (loadHeader c n adv s).height = s.height := rfl
@[simp] theorem loadHeader_sp (c : OrderCode) (n adv : Nat) (s : State) :
    (loadHeader c n adv s).sp = s.sp + adv := rfl
@[simp] theorem loadHeader_dp (c : OrderCode) (n adv : Nat) (s : State) : (loadHeader c n adv s).dp = s.dp := rfl
@[simp] theorem loadHeader_fgPel (c : OrderCode) (n adv : Nat) (s : State) :
    (loadHeader c n adv s).fgPel = s.fgPel := rfl
@[simp] theorem loadHeader_fFirstLine (c : OrderCode) (n adv : Nat) (s : State) :
    (loadHeader c n adv s).fFirstLine = s.fFirstLine := rfl
@[simp] theorem loadHeader_fInsertFgPel (c : OrderCode) (n adv : Nat) (s : State) :
    (loadHeader c n adv s).fInsertFgPel = s.fInsertFgPel := rfl
@[simp] theorem loadHeader_bitmask (c : OrderCode) (n adv : Nat) (s : State) :
    (loadHeader c n adv s).bitmask = s.bitmask := rfl
@[simp] theorem loadHeader_code (c : OrderCode) (n adv : Nat) (s : State) : (loadHeader c n adv s).code = c := rfl
@[simp] theorem loadHeader_runLength (c : OrderCode) (n adv : Nat) (s : State) :
    (loadHeader c n adv s).runLength = n := rfl
@[simp] theorem loadHeader_advance (c : OrderCode) (n adv : Nat) (s : State) :
    (loadHeader c n adv s).advance = adv := rfl
@[simp] theorem loadHeader_pixA (c : OrderCode) (n adv : Nat) (s : State) :
    (loadHeader c n adv s).pixA = s.pixA := rfl
@[simp] theorem loadHeader_pixB (c : OrderCode) (n adv : Nat) (s : State) :
    (loadHeader c n adv s).pixB = s.pixB := rfl
@[simp] theorem loadHeader_pix (c : OrderCode) (n adv : Nat) (s : State) : (loadHeader c n adv s).pix = s.pix := rfl
@[simp] theorem loadHeader_src (c : OrderCode) (n adv : Nat) (s : State) : (loadHeader c n adv s).src = s.src := rfl
@[simp] theorem loadHeader_dst (c : OrderCode) (n adv : Nat) (s : State) : (loadHeader c n adv s).dst = s.dst := rfl
@[simp] theorem loadHeader_hostCalls (c : OrderCode) (n adv : Nat) (s : State) :
    (loadHeader c n adv s).hostCalls = s.hostCalls := rfl
@[simp] theorem loadHeader_freeCount (c : OrderCode) (n adv : Nat) (s : State) :
    (loadHeader c n adv s).freeCount = s.freeCount := rfl
@[simp] theorem loadHeader_pxBytes (c : OrderCode) (n adv : Nat) (s : State) : (loadHeader c n adv s).pxBytes = s.pxBytes := rfl
@[simp] theorem loadHeader_dstSize (c : OrderCode) (n adv : Nat) (s : State) : (loadHeader c n adv s).dstSize = s.dstSize := rfl

/-! ### insertFlagUpdate -/

@[simp] theorem insertFlagUpdate_cfg (c : OrderCode) (s : State) : (insertFlagUpdate c s).cfg = s.cfg := rfl
@[simp] theorem insertFlagUpdate_status (c : OrderCode) (s : State) : (insertFlagUpdate c s).status = s.status := rfl
@[simp] theorem insertFlagUpdate_cause (c : OrderCode) (s : State) : (insertFlagUpdate c s).cause = s.cause := rfl
@[simp] theorem insertFlagUpdate_srcLen (c : OrderCode) (s : State) : (insertFlagUpdate c s).srcLen = s.srcLen := rfl
@[simp] theorem insertFlagUpdate_rowDelta (c : OrderCode) (s : State) :
    (insertFlagUpdate c s).rowDelta = s.rowDelta := rfl
@[simp] theorem insertFlagUpdate_width (c : OrderCode) (s : State) : (insertFlagUpdate c s).width = s.width := rfl
@[simp] theorem insertFlagUpdate_height (c : OrderCode) (s : State) : (insertFlagUpdate c s).height = s.height := rfl
@[simp] theorem insertFlagUpdate_sp (c : OrderCode) (s : State) : (insertFlagUpdate c s).sp = s.sp := rfl
@[simp] theorem insertFlagUpdate_dp (c : OrderCode) (s : State) : (insertFlagUpdate c s).dp = s.dp := rfl
@[simp] theorem insertFlagUpdate_fgPel (c : OrderCode) (s : State) : (insertFlagUpdate c s).fgPel = s.fgPel := rfl
@[simp] theorem insertFlagUpdate_fFirstLine (c : OrderCode) (s : State) :
    (insertFlagUpdate c s).fFirstLine = s.fFirstLine := rfl
@[simp] theorem insertFlagUpdate_fInsertFgPel (c : OrderCode) (s : State) :
    (insertFlagUpdate c s).fInsertFgPel = isBackgroundRun c := rfl
@[simp] theorem insertFlagUpdate_bitmask (c : OrderCode) (s : State) :
    (insertFlagUpdate c s).bitmask = s.bitmask := rfl
@[simp] theorem insertFlagUpdate_code (c : OrderCode) (s : State) : (insertFlagUpdate c s).code = s.code := rfl
@[simp] theorem insertFlagUpdate_runLength (c : OrderCode) (s : State) :
    (insertFlagUpdate c s).runLength = s.runLength := rfl
@[simp] theorem insertFlagUpdate_advance (c : OrderCode) (s : State) :
    (insertFlagUpdate c s).advance = s.advance := rfl
@[simp] theorem insertFlagUpdate_pixA (c : OrderCode) (s : State) : (insertFlagUpdate c s).pixA = s.pixA := rfl
@[simp] theorem insertFlagUpdate_pixB (c : OrderCode) (s : State) : (insertFlagUpdate c s).pixB = s.pixB := rfl
@[simp] theorem insertFlagUpdate_pix (c : OrderCode) (s : State) : (insertFlagUpdate c s).pix = s.pix := rfl
@[simp] theorem insertFlagUpdate_src (c : OrderCode) (s : State) : (insertFlagUpdate c s).src = s.src := rfl
@[simp] theorem insertFlagUpdate_dst (c : OrderCode) (s : State) : (insertFlagUpdate c s).dst = s.dst := rfl
@[simp] theorem insertFlagUpdate_hostCalls (c : OrderCode) (s : State) :
    (insertFlagUpdate c s).hostCalls = s.hostCalls := rfl
@[simp] theorem insertFlagUpdate_freeCount (c : OrderCode) (s : State) :
    (insertFlagUpdate c s).freeCount = s.freeCount := rfl
@[simp] theorem insertFlagUpdate_pxBytes (c : OrderCode) (s : State) : (insertFlagUpdate c s).pxBytes = s.pxBytes := rfl
@[simp] theorem insertFlagUpdate_dstSize (c : OrderCode) (s : State) : (insertFlagUpdate c s).dstSize = s.dstSize := rfl

/-! ### forgetRegisters -/

@[simp] theorem forgetRegisters_cfg (s : State) : (forgetRegisters s).cfg = s.cfg := rfl
@[simp] theorem forgetRegisters_status (s : State) : (forgetRegisters s).status = s.status := rfl
@[simp] theorem forgetRegisters_cause (s : State) : (forgetRegisters s).cause = Config.freeCause s.freeCount := rfl
@[simp] theorem forgetRegisters_srcLen (s : State) : (forgetRegisters s).srcLen = s.srcLen := rfl
@[simp] theorem forgetRegisters_rowDelta (s : State) : (forgetRegisters s).rowDelta = s.rowDelta := rfl
@[simp] theorem forgetRegisters_width (s : State) : (forgetRegisters s).width = s.width := rfl
@[simp] theorem forgetRegisters_height (s : State) : (forgetRegisters s).height = s.height := rfl
@[simp] theorem forgetRegisters_sp (s : State) : (forgetRegisters s).sp = Config.freeNumber s.freeCount 0 := rfl
@[simp] theorem forgetRegisters_dp (s : State) : (forgetRegisters s).dp = Config.freeNumber s.freeCount 1 := rfl
@[simp] theorem forgetRegisters_fgPel (s : State) : (forgetRegisters s).fgPel = freePixel s.cfg s.freeCount 0 := rfl
@[simp] theorem forgetRegisters_fFirstLine (s : State) :
    (forgetRegisters s).fFirstLine = Config.freeFlag s.freeCount 0 := rfl
@[simp] theorem forgetRegisters_fInsertFgPel (s : State) :
    (forgetRegisters s).fInsertFgPel = Config.freeFlag s.freeCount 1 := rfl
@[simp] theorem forgetRegisters_bitmask (s : State) :
    (forgetRegisters s).bitmask = Config.freeBitmask s.freeCount := rfl
@[simp] theorem forgetRegisters_code (s : State) : (forgetRegisters s).code = Config.freeCode s.freeCount := rfl
@[simp] theorem forgetRegisters_runLength (s : State) :
    (forgetRegisters s).runLength = Config.freeNumber s.freeCount 2 := rfl
@[simp] theorem forgetRegisters_advance (s : State) :
    (forgetRegisters s).advance = Config.freeNumber s.freeCount 3 := rfl
@[simp] theorem forgetRegisters_pixA (s : State) : (forgetRegisters s).pixA = freePixel s.cfg s.freeCount 1 := rfl
@[simp] theorem forgetRegisters_pixB (s : State) : (forgetRegisters s).pixB = freePixel s.cfg s.freeCount 2 := rfl
@[simp] theorem forgetRegisters_pix (s : State) : (forgetRegisters s).pix = freePixel s.cfg s.freeCount 3 := rfl
@[simp] theorem forgetRegisters_src (s : State) : (forgetRegisters s).src = s.src := rfl
@[simp] theorem forgetRegisters_dst (s : State) : (forgetRegisters s).dst = s.dst := rfl
@[simp] theorem forgetRegisters_hostCalls (s : State) : (forgetRegisters s).hostCalls = s.hostCalls := rfl
@[simp] theorem forgetRegisters_freeCount (s : State) : (forgetRegisters s).freeCount = s.freeCount + 1 := rfl
@[simp] theorem forgetRegisters_pxBytes (s : State) : (forgetRegisters s).pxBytes = s.pxBytes := rfl
@[simp] theorem forgetRegisters_dstSize (s : State) : (forgetRegisters s).dstSize = s.dstSize := rfl

/-! ### raiseFail -/

@[simp] theorem raiseFail_cfg (c : Cause) (s : State) : (raiseFail c s).cfg = s.cfg := rfl
@[simp] theorem raiseFail_status (c : Cause) (s : State) : (raiseFail c s).status = .fail := rfl
@[simp] theorem raiseFail_cause (c : Cause) (s : State) : (raiseFail c s).cause = c := rfl
@[simp] theorem raiseFail_srcLen (c : Cause) (s : State) : (raiseFail c s).srcLen = s.srcLen := rfl
@[simp] theorem raiseFail_rowDelta (c : Cause) (s : State) : (raiseFail c s).rowDelta = s.rowDelta := rfl
@[simp] theorem raiseFail_width (c : Cause) (s : State) : (raiseFail c s).width = s.width := rfl
@[simp] theorem raiseFail_height (c : Cause) (s : State) : (raiseFail c s).height = s.height := rfl
@[simp] theorem raiseFail_sp (c : Cause) (s : State) : (raiseFail c s).sp = Config.freeNumber s.freeCount 0 := rfl
@[simp] theorem raiseFail_dp (c : Cause) (s : State) : (raiseFail c s).dp = Config.freeNumber s.freeCount 1 := rfl
@[simp] theorem raiseFail_fgPel (c : Cause) (s : State) : (raiseFail c s).fgPel = freePixel s.cfg s.freeCount 0 := rfl
@[simp] theorem raiseFail_fFirstLine (c : Cause) (s : State) :
    (raiseFail c s).fFirstLine = Config.freeFlag s.freeCount 0 := rfl
@[simp] theorem raiseFail_fInsertFgPel (c : Cause) (s : State) :
    (raiseFail c s).fInsertFgPel = Config.freeFlag s.freeCount 1 := rfl
@[simp] theorem raiseFail_bitmask (c : Cause) (s : State) :
    (raiseFail c s).bitmask = Config.freeBitmask s.freeCount := rfl
@[simp] theorem raiseFail_code (c : Cause) (s : State) : (raiseFail c s).code = Config.freeCode s.freeCount := rfl
@[simp] theorem raiseFail_runLength (c : Cause) (s : State) :
    (raiseFail c s).runLength = Config.freeNumber s.freeCount 2 := rfl
@[simp] theorem raiseFail_advance (c : Cause) (s : State) :
    (raiseFail c s).advance = Config.freeNumber s.freeCount 3 := rfl
@[simp] theorem raiseFail_pixA (c : Cause) (s : State) : (raiseFail c s).pixA = freePixel s.cfg s.freeCount 1 := rfl
@[simp] theorem raiseFail_pixB (c : Cause) (s : State) : (raiseFail c s).pixB = freePixel s.cfg s.freeCount 2 := rfl
@[simp] theorem raiseFail_pix (c : Cause) (s : State) : (raiseFail c s).pix = freePixel s.cfg s.freeCount 3 := rfl
@[simp] theorem raiseFail_src (c : Cause) (s : State) : (raiseFail c s).src = s.src := rfl
@[simp] theorem raiseFail_dst (c : Cause) (s : State) : (raiseFail c s).dst = dstAfterFailure c s := rfl
@[simp] theorem raiseFail_hostCalls (c : Cause) (s : State) : (raiseFail c s).hostCalls = s.hostCalls := rfl
@[simp] theorem raiseFail_freeCount (c : Cause) (s : State) : (raiseFail c s).freeCount = s.freeCount + 1 := rfl
@[simp] theorem raiseFail_pxBytes (c : Cause) (s : State) : (raiseFail c s).pxBytes = s.pxBytes := rfl
@[simp] theorem raiseFail_dstSize (c : Cause) (s : State) : (raiseFail c s).dstSize = s.dstSize := rfl

/-! ### callReset -/

@[simp] theorem callReset_cfg (s : State) : (callReset s).cfg = s.cfg := rfl
@[simp] theorem callReset_status (s : State) : (callReset s).status = .busy := rfl
@[simp] theorem callReset_cause (s : State) : (callReset s).cause = Config.freeCause s.freeCount := rfl
@[simp] theorem callReset_srcLen (s : State) : (callReset s).srcLen = s.srcLen := rfl
@[simp] theorem callReset_rowDelta (s : State) : (callReset s).rowDelta = s.rowDelta := rfl
@[simp] theorem callReset_width (s : State) : (callReset s).width = s.width := rfl
@[simp] theorem callReset_height (s : State) : (callReset s).height = s.height := rfl
@[simp] theorem callReset_sp (s : State) : (callReset s).sp = 0 := rfl
@[simp] theorem callReset_dp (s : State) : (callReset s).dp = 0 := rfl
@[simp] theorem callReset_fgPel (s : State) : (callReset s).fgPel = s.cfg.whitePixel := rfl
@[simp] theorem callReset_fFirstLine (s : State) : (callReset s).fFirstLine = true := rfl
@[simp] theorem callReset_fInsertFgPel (s : State) : (callReset s).fInsertFgPel = false := rfl
@[simp] theorem callReset_bitmask (s : State) : (callReset s).bitmask = Config.freeBitmask s.freeCount := rfl
@[simp] theorem callReset_code (s : State) : (callReset s).code = Config.freeCode s.freeCount := rfl
@[simp] theorem callReset_runLength (s : State) : (callReset s).runLength = Config.freeNumber s.freeCount 2 := rfl
@[simp] theorem callReset_advance (s : State) : (callReset s).advance = Config.freeNumber s.freeCount 3 := rfl
@[simp] theorem callReset_pixA (s : State) : (callReset s).pixA = freePixel s.cfg s.freeCount 1 := rfl
@[simp] theorem callReset_pixB (s : State) : (callReset s).pixB = freePixel s.cfg s.freeCount 2 := rfl
@[simp] theorem callReset_pix (s : State) : (callReset s).pix = freePixel s.cfg s.freeCount 3 := rfl
@[simp] theorem callReset_src (s : State) : (callReset s).src = s.src := rfl
@[simp] theorem callReset_dst (s : State) : (callReset s).dst = s.dst := rfl
@[simp] theorem callReset_hostCalls (s : State) : (callReset s).hostCalls = s.hostCalls := rfl
@[simp] theorem callReset_freeCount (s : State) : (callReset s).freeCount = s.freeCount + 1 := rfl
@[simp] theorem callReset_pxBytes (s : State) : (callReset s).pxBytes = s.pxBytes := rfl
@[simp] theorem callReset_dstSize (s : State) : (callReset s).dstSize = s.dstSize := rfl

/-! ### finishCall -/

@[simp] theorem finishCall_cfg (s : State) : (finishCall s).cfg = s.cfg := rfl
@[simp] theorem finishCall_status (s : State) : (finishCall s).status = .ok := rfl
@[simp] theorem finishCall_cause (s : State) : (finishCall s).cause = Config.freeCause s.freeCount := rfl
@[simp] theorem finishCall_srcLen (s : State) : (finishCall s).srcLen = s.srcLen := rfl
@[simp] theorem finishCall_rowDelta (s : State) : (finishCall s).rowDelta = s.rowDelta := rfl
@[simp] theorem finishCall_width (s : State) : (finishCall s).width = s.width := rfl
@[simp] theorem finishCall_height (s : State) : (finishCall s).height = s.height := rfl
@[simp] theorem finishCall_sp (s : State) : (finishCall s).sp = Config.freeNumber s.freeCount 0 := rfl
@[simp] theorem finishCall_dp (s : State) : (finishCall s).dp = Config.freeNumber s.freeCount 1 := rfl
@[simp] theorem finishCall_fgPel (s : State) : (finishCall s).fgPel = freePixel s.cfg s.freeCount 0 := rfl
@[simp] theorem finishCall_fFirstLine (s : State) : (finishCall s).fFirstLine = Config.freeFlag s.freeCount 0 :=
  rfl
@[simp] theorem finishCall_fInsertFgPel (s : State) :
    (finishCall s).fInsertFgPel = Config.freeFlag s.freeCount 1 := rfl
@[simp] theorem finishCall_bitmask (s : State) : (finishCall s).bitmask = Config.freeBitmask s.freeCount := rfl
@[simp] theorem finishCall_code (s : State) : (finishCall s).code = Config.freeCode s.freeCount := rfl
@[simp] theorem finishCall_runLength (s : State) : (finishCall s).runLength = Config.freeNumber s.freeCount 2 := rfl
@[simp] theorem finishCall_advance (s : State) : (finishCall s).advance = Config.freeNumber s.freeCount 3 := rfl
@[simp] theorem finishCall_pixA (s : State) : (finishCall s).pixA = freePixel s.cfg s.freeCount 1 := rfl
@[simp] theorem finishCall_pixB (s : State) : (finishCall s).pixB = freePixel s.cfg s.freeCount 2 := rfl
@[simp] theorem finishCall_pix (s : State) : (finishCall s).pix = freePixel s.cfg s.freeCount 3 := rfl
@[simp] theorem finishCall_src (s : State) : (finishCall s).src = s.src := rfl
@[simp] theorem finishCall_dst (s : State) : (finishCall s).dst = s.dst := rfl
@[simp] theorem finishCall_hostCalls (s : State) : (finishCall s).hostCalls = s.hostCalls := rfl
@[simp] theorem finishCall_freeCount (s : State) : (finishCall s).freeCount = s.freeCount + 1 := rfl
@[simp] theorem finishCall_pxBytes (s : State) : (finishCall s).pxBytes = s.pxBytes := rfl
@[simp] theorem finishCall_dstSize (s : State) : (finishCall s).dstSize = s.dstSize := rfl

/-! ### forgetBitmask -/

@[simp] theorem forgetBitmask_cfg (s : State) : (forgetBitmask s).cfg = s.cfg := rfl
@[simp] theorem forgetBitmask_status (s : State) : (forgetBitmask s).status = s.status := rfl
@[simp] theorem forgetBitmask_cause (s : State) : (forgetBitmask s).cause = s.cause := rfl
@[simp] theorem forgetBitmask_srcLen (s : State) : (forgetBitmask s).srcLen = s.srcLen := rfl
@[simp] theorem forgetBitmask_rowDelta (s : State) : (forgetBitmask s).rowDelta = s.rowDelta := rfl
@[simp] theorem forgetBitmask_width (s : State) : (forgetBitmask s).width = s.width := rfl
@[simp] theorem forgetBitmask_height (s : State) : (forgetBitmask s).height = s.height := rfl
@[simp] theorem forgetBitmask_sp (s : State) : (forgetBitmask s).sp = s.sp := rfl
@[simp] theorem forgetBitmask_dp (s : State) : (forgetBitmask s).dp = s.dp := rfl
@[simp] theorem forgetBitmask_fgPel (s : State) : (forgetBitmask s).fgPel = s.fgPel := rfl
@[simp] theorem forgetBitmask_fFirstLine (s : State) : (forgetBitmask s).fFirstLine = s.fFirstLine := rfl
@[simp] theorem forgetBitmask_fInsertFgPel (s : State) : (forgetBitmask s).fInsertFgPel = s.fInsertFgPel := rfl
@[simp] theorem forgetBitmask_code (s : State) : (forgetBitmask s).code = s.code := rfl
@[simp] theorem forgetBitmask_runLength (s : State) : (forgetBitmask s).runLength = s.runLength := rfl
@[simp] theorem forgetBitmask_advance (s : State) : (forgetBitmask s).advance = s.advance := rfl
@[simp] theorem forgetBitmask_pixA (s : State) : (forgetBitmask s).pixA = s.pixA := rfl
@[simp] theorem forgetBitmask_pixB (s : State) : (forgetBitmask s).pixB = s.pixB := rfl
@[simp] theorem forgetBitmask_pix (s : State) : (forgetBitmask s).pix = s.pix := rfl
@[simp] theorem forgetBitmask_src (s : State) : (forgetBitmask s).src = s.src := rfl
@[simp] theorem forgetBitmask_dst (s : State) : (forgetBitmask s).dst = s.dst := rfl
@[simp] theorem forgetBitmask_hostCalls (s : State) : (forgetBitmask s).hostCalls = s.hostCalls := rfl
@[simp] theorem forgetBitmask_pxBytes (s : State) : (forgetBitmask s).pxBytes = s.pxBytes := rfl
@[simp] theorem forgetBitmask_dstSize (s : State) : (forgetBitmask s).dstSize = s.dstSize := rfl
@[simp] theorem forgetBitmask_bitmask (s : State) : (forgetBitmask s).bitmask = Config.freeBitmask s.freeCount := rfl
@[simp] theorem forgetBitmask_freeCount (s : State) : (forgetBitmask s).freeCount = s.freeCount + 1 := rfl

/-! ### hostPlaces -/

@[simp] theorem hostPlaces_cfg (c : HostCall) (s : State) : (hostPlaces c s).cfg = s.cfg := rfl
@[simp] theorem hostPlaces_status (c : HostCall) (s : State) : (hostPlaces c s).status = s.status := rfl
@[simp] theorem hostPlaces_cause (c : HostCall) (s : State) : (hostPlaces c s).cause = s.cause := rfl
@[simp] theorem hostPlaces_srcLen (c : HostCall) (s : State) : (hostPlaces c s).srcLen = c.srcLen := rfl
@[simp] theorem hostPlaces_rowDelta (c : HostCall) (s : State) : (hostPlaces c s).rowDelta = c.rowDelta := rfl
@[simp] theorem hostPlaces_width (c : HostCall) (s : State) : (hostPlaces c s).width = c.width := rfl
@[simp] theorem hostPlaces_height (c : HostCall) (s : State) : (hostPlaces c s).height = c.height := rfl
@[simp] theorem hostPlaces_sp (c : HostCall) (s : State) : (hostPlaces c s).sp = s.sp := rfl
@[simp] theorem hostPlaces_dp (c : HostCall) (s : State) : (hostPlaces c s).dp = s.dp := rfl
@[simp] theorem hostPlaces_fgPel (c : HostCall) (s : State) : (hostPlaces c s).fgPel = s.fgPel := rfl
@[simp] theorem hostPlaces_fFirstLine (c : HostCall) (s : State) : (hostPlaces c s).fFirstLine = s.fFirstLine := rfl
@[simp] theorem hostPlaces_fInsertFgPel (c : HostCall) (s : State) :
    (hostPlaces c s).fInsertFgPel = s.fInsertFgPel := rfl
@[simp] theorem hostPlaces_bitmask (c : HostCall) (s : State) : (hostPlaces c s).bitmask = s.bitmask := rfl
@[simp] theorem hostPlaces_code (c : HostCall) (s : State) : (hostPlaces c s).code = s.code := rfl
@[simp] theorem hostPlaces_runLength (c : HostCall) (s : State) : (hostPlaces c s).runLength = s.runLength := rfl
@[simp] theorem hostPlaces_advance (c : HostCall) (s : State) : (hostPlaces c s).advance = s.advance := rfl
@[simp] theorem hostPlaces_pixA (c : HostCall) (s : State) : (hostPlaces c s).pixA = s.pixA := rfl
@[simp] theorem hostPlaces_pixB (c : HostCall) (s : State) : (hostPlaces c s).pixB = s.pixB := rfl
@[simp] theorem hostPlaces_pix (c : HostCall) (s : State) : (hostPlaces c s).pix = s.pix := rfl
@[simp] theorem hostPlaces_src (c : HostCall) (s : State) : (hostPlaces c s).src = s.src.writeBytes 0 c.source := rfl
@[simp] theorem hostPlaces_dst (c : HostCall) (s : State) :
    (hostPlaces c s).dst = s.dst.writeBytes 0 c.destination := rfl
@[simp] theorem hostPlaces_hostCalls (c : HostCall) (s : State) : (hostPlaces c s).hostCalls = s.hostCalls := rfl
@[simp] theorem hostPlaces_freeCount (c : HostCall) (s : State) : (hostPlaces c s).freeCount = s.freeCount := rfl
@[simp] theorem hostPlaces_pxBytes (c : HostCall) (s : State) : (hostPlaces c s).pxBytes = s.pxBytes := rfl

/-! ### firstLineUpdate -/

@[simp] theorem firstLineUpdate_cfg (s : State) : (firstLineUpdate s).cfg = s.cfg := by
  unfold firstLineUpdate; split <;> rfl
@[simp] theorem firstLineUpdate_status (s : State) : (firstLineUpdate s).status = s.status := by
  unfold firstLineUpdate; split <;> rfl
@[simp] theorem firstLineUpdate_cause (s : State) : (firstLineUpdate s).cause = s.cause := by
  unfold firstLineUpdate; split <;> rfl
@[simp] theorem firstLineUpdate_srcLen (s : State) : (firstLineUpdate s).srcLen = s.srcLen := by
  unfold firstLineUpdate; split <;> rfl
@[simp] theorem firstLineUpdate_rowDelta (s : State) : (firstLineUpdate s).rowDelta = s.rowDelta := by
  unfold firstLineUpdate; split <;> rfl
@[simp] theorem firstLineUpdate_width (s : State) : (firstLineUpdate s).width = s.width := by
  unfold firstLineUpdate; split <;> rfl
@[simp] theorem firstLineUpdate_height (s : State) : (firstLineUpdate s).height = s.height := by
  unfold firstLineUpdate; split <;> rfl
@[simp] theorem firstLineUpdate_sp (s : State) : (firstLineUpdate s).sp = s.sp := by
  unfold firstLineUpdate; split <;> rfl
@[simp] theorem firstLineUpdate_dp (s : State) : (firstLineUpdate s).dp = s.dp := by
  unfold firstLineUpdate; split <;> rfl
@[simp] theorem firstLineUpdate_fgPel (s : State) : (firstLineUpdate s).fgPel = s.fgPel := by
  unfold firstLineUpdate; split <;> rfl
@[simp] theorem firstLineUpdate_bitmask (s : State) : (firstLineUpdate s).bitmask = s.bitmask := by
  unfold firstLineUpdate; split <;> rfl
@[simp] theorem firstLineUpdate_code (s : State) : (firstLineUpdate s).code = s.code := by
  unfold firstLineUpdate; split <;> rfl
@[simp] theorem firstLineUpdate_runLength (s : State) : (firstLineUpdate s).runLength = s.runLength := by
  unfold firstLineUpdate; split <;> rfl
@[simp] theorem firstLineUpdate_advance (s : State) : (firstLineUpdate s).advance = s.advance := by
  unfold firstLineUpdate; split <;> rfl
@[simp] theorem firstLineUpdate_pixA (s : State) : (firstLineUpdate s).pixA = s.pixA := by
  unfold firstLineUpdate; split <;> rfl
@[simp] theorem firstLineUpdate_pixB (s : State) : (firstLineUpdate s).pixB = s.pixB := by
  unfold firstLineUpdate; split <;> rfl
@[simp] theorem firstLineUpdate_pix (s : State) : (firstLineUpdate s).pix = s.pix := by
  unfold firstLineUpdate; split <;> rfl
@[simp] theorem firstLineUpdate_src (s : State) : (firstLineUpdate s).src = s.src := by
  unfold firstLineUpdate; split <;> rfl
@[simp] theorem firstLineUpdate_dst (s : State) : (firstLineUpdate s).dst = s.dst := by
  unfold firstLineUpdate; split <;> rfl
@[simp] theorem firstLineUpdate_hostCalls (s : State) : (firstLineUpdate s).hostCalls = s.hostCalls := by
  unfold firstLineUpdate; split <;> rfl
@[simp] theorem firstLineUpdate_freeCount (s : State) : (firstLineUpdate s).freeCount = s.freeCount := by
  unfold firstLineUpdate; split <;> rfl
@[simp] theorem firstLineUpdate_pxBytes (s : State) : (firstLineUpdate s).pxBytes = s.pxBytes := by
  unfold firstLineUpdate; split <;> rfl
@[simp] theorem firstLineUpdate_dstSize (s : State) : (firstLineUpdate s).dstSize = s.dstSize := by
  unfold firstLineUpdate; split <;> rfl

/-- After the update `fFirstLine` is false exactly when it was, or when the cursor has left the first row. -/
theorem firstLineUpdate_fFirstLine (s : State) :
    (firstLineUpdate s).fFirstLine = (s.fFirstLine && decide (s.dp < s.rowDelta)) := by
  unfold firstLineUpdate
  cases hf : s.fFirstLine <;> by_cases hd : s.rowDelta ≤ s.dp
  · simp [hf]
  · simp [hf]
  · simp [hd]
  · simp [hf, hd]; omega

@[simp] theorem length_freePixel (c : Config) (k r : Nat) : (freePixel c k r).length = c.pxBytes := by
  simp [freePixel]

end Sys2Proof.Machine
end

