-- ==== Sys2Proof/Laws/Ops.lean ====
section
/-! SUPPORT. What each shared operation does, said once: the primitives, the pixel generators, the write loops. -/

namespace Sys2Proof.Machine

/-! ### Run-time of a body -/

@[simp] theorem bind_ok {α β : Type} (a : α) (f : α → Except Stop β) : (Except.ok a >>= f) = f a := rfl

@[simp] theorem bind_error {α β : Type} (e : Stop) (f : α → Except Stop β) :
    ((Except.error e : Except Stop α) >>= f) = Except.error e := rfl

@[simp] theorem pure_eq_ok {α : Type} (a : α) : (pure a : Except Stop α) = Except.ok a := rfl

/-- The three ends of an order. -/
theorem runOrder_of_ok {c : OrderCode} {n adv : Nat} {body : State → Except Stop State} {s t : State}
    (h : body (loadHeader c n adv s) = .ok t) : runOrder c n adv body s = .next (insertFlagUpdate c t) := by
  simp [runOrder, h]

theorem runOrder_of_fail {c : OrderCode} {n adv : Nat} {body : State → Except Stop State} {s : State} {e : Cause}
    (h : body (loadHeader c n adv s) = .error (.fail e)) : runOrder c n adv body s = .next (raiseFail e s) := by
  simp [runOrder, h]

/-! ### Checks -/

theorem requireSrc_ok {n : Nat} {s : State} (h : s.srcAvail n) : requireSrc n s = .ok () := if_pos h

theorem requireSrc_fail {n : Nat} {s : State} (h : ¬ s.srcAvail n) :
    requireSrc n s = .error (.fail .sourceExhaustion) := if_neg h

theorem requireDst_ok {n : Nat} {s : State} (h : s.dstAvail n) : requireDst n s = .ok () := if_pos h

theorem requireDst_fail {n : Nat} {s : State} (h : ¬ s.dstAvail n) :
    requireDst n s = .error (.fail .destinationOverflow) := if_neg h

/-! ### Pixels -/

@[simp] theorem length_xorPixel (a b : Pixel) : (xorPixel a b).length = min a.length b.length := by
  simp [xorPixel]

theorem getD_xorPixel {a b : Pixel} {i : Nat} (ha : i < a.length) (hb : i < b.length) :
    (xorPixel a b).getD i 0 = a.getD i 0 ^^^ b.getD i 0 := by
  simp [xorPixel, List.getD_eq_getElem?_getD, ha, hb]

theorem pxBytes_pos (s : State) : 0 < s.pxBytes := by
  unfold State.pxBytes Config.pxBytes
  cases s.cfg.pixelBytes <;> decide

/-! ### Source reads -/

theorem readSrcPixel_ok {s : State} (h : s.srcAvail s.pxBytes) :
    readSrcPixel s = .ok (s.src.readBytes s.sp s.pxBytes, { s with sp := s.sp + s.pxBytes }) := by
  simp [readSrcPixel, memReadSrc, h]

theorem readSrcByte_ok {s : State} (h : s.srcAvail 1) :
    readSrcByte s = .ok (s.src.read s.sp, { s with sp := s.sp + 1 }) := if_pos h

theorem loadFgPel_ok {s : State} (h : s.srcAvail s.pxBytes) :
    loadFgPel s = .ok { s with sp := s.sp + s.pxBytes, fgPel := s.src.readBytes s.sp s.pxBytes } := by
  simp [loadFgPel, requireSrc_ok h, readSrcPixel_ok h]

theorem loadFgPel_fail {s : State} (h : ¬ s.srcAvail s.pxBytes) :
    loadFgPel s = .error (.fail .sourceExhaustion) := by
  simp [loadFgPel, requireSrc_fail h]

/-! ### Pixel writes and the row above -/

/-- The state after `v` is written at the destination cursor. -/
def afterPixel (v : Pixel) (s : State) : State :=
  { s with dst := s.dst.writeBytes s.dp v, dp := s.dp + s.pxBytes }

theorem writePixel_ok {s : State} {v : Pixel} (hv : v.length = s.pxBytes) (hc : s.dstAvail 1) :
    writePixel v s = .ok (afterPixel v s) := by
  have : s.dp + v.length ≤ s.dstSize := by rw [hv]; simpa using hc
  simp [writePixel, memWriteDst, this, afterPixel, State.pxBytes]

theorem afterPixel_ready {s : State} {v : Pixel} (h : s.Ready) : (afterPixel v s).Ready where
  cfg := h.cfg
  dst := Memory.writeBytes_wf h.dst _ _
  fgPel := h.fgPel
  above := fun hf => by
    have h1 := h.above hf
    have h2 : (afterPixel v s).dp = s.dp + s.pxBytes := rfl
    have h3 : (afterPixel v s).rowDelta = s.rowDelta := rfl
    omega

/-- `Above()` is inside the buffer when the pixel to be written fits (spec/20_memory.md R47). -/
theorem above_ok {s : State} (h : s.Ready) (hf : s.fFirstLine = false) (hc : s.dstAvail 1) :
    above s = .ok (s.dst.readBytes (s.dp - s.rowDelta) s.pxBytes) := by
  have h1 := h.above hf
  have h2 : s.dp - s.rowDelta + s.pxBytes ≤ s.dstSize := by simp only [State.dstAvail] at hc; omega
  simp [above, memReadDst, h1, h2]

theorem bgPixel_firstLine {s : State} (hf : s.fFirstLine = true) : bgPixel s = .ok s.cfg.blackPixel := by
  simp [bgPixel, hf]

theorem bgPixel_below {s : State} (h : s.Ready) (hf : s.fFirstLine = false) (hc : s.dstAvail 1) :
    bgPixel s = .ok (s.dst.readBytes (s.dp - s.rowDelta) s.pxBytes) := by
  simp [bgPixel, hf, above_ok h hf hc]

theorem fgPixel_firstLine {s : State} (hf : s.fFirstLine = true) : fgPixel s = .ok s.fgPel := by
  simp [fgPixel, hf]

theorem fgPixel_below {s : State} (h : s.Ready) (hf : s.fFirstLine = false) (hc : s.dstAvail 1) :
    fgPixel s = .ok (xorPixel (s.dst.readBytes (s.dp - s.rowDelta) s.pxBytes) s.fgPel) := by
  simp [fgPixel, hf, above_ok h hf hc]

theorem bgPixel_total {s : State} (h : s.Ready) (hc : s.dstAvail 1) :
    ∃ v, bgPixel s = .ok v ∧ v.length = s.pxBytes := by
  cases hf : s.fFirstLine with
  | true => exact ⟨_, bgPixel_firstLine hf, h.cfg.2.1⟩
  | false => exact ⟨_, bgPixel_below h hf hc, by simp⟩

theorem fgPixel_total {s : State} (h : s.Ready) (hc : s.dstAvail 1) :
    ∃ v, fgPixel s = .ok v ∧ v.length = s.pxBytes := by
  cases hf : s.fFirstLine with
  | true => exact ⟨_, fgPixel_firstLine hf, h.fgPel⟩
  | false => exact ⟨_, fgPixel_below h hf hc, by simp [h.fgPel]⟩

theorem maskedPixel_total {s : State} (i : Nat) (h : s.Ready) (hc : s.dstAvail 1) :
    ∃ v, maskedPixel i s = .ok v ∧ v.length = s.pxBytes := by
  unfold maskedPixel
  split
  · exact fgPixel_total h hc
  · exact bgPixel_total h hc

/-! ### Write loops -/

/-- `t` is `s` after `n` pixels were written at the cursor: the destination cursor moved past them and only their bytes
changed. -/
structure Wrote (s t : State) (n : Nat) : Prop where
  state : t = { s with dp := s.dp + n * s.pxBytes, dst := t.dst }
  ready : t.Ready
  frame : ∀ a, a < s.dp ∨ s.dp + n * s.pxBytes ≤ a → t.dst.read a = s.dst.read a

/-- `u` is a state on the way from `s` to `t`, when `k` pixels were written: below its cursor the destination is already
as in `t`, from there on still as in `s`. -/
structure Midway (s t u : State) (k : Nat) : Prop where
  state : u = { s with sp := u.sp, bitmask := u.bitmask, dp := s.dp + k * s.pxBytes, dst := u.dst }
  ready : u.Ready
  below : ∀ a, a < s.dp + k * s.pxBytes → u.dst.read a = t.dst.read a
  above : ∀ a, s.dp + k * s.pxBytes ≤ a → u.dst.read a = s.dst.read a

/-- `u` differs from `s` at most in the destination and its cursor. -/
def SameButDst (s u : State) : Prop := u = { s with dp := u.dp, dst := u.dst }

/-- What the write loop does: all pixels are written, each as its generator gives it at its own place. -/
theorem writeRun_spec {gen : Nat → State → Except Stop Pixel} {s : State} (i n : Nat) (h : s.Ready)
    (hcap : s.dstAvail n)
    (hgen : ∀ k u, SameButDst s u → u.Ready → u.dstAvail 1 → ∃ v, gen k u = .ok v ∧ v.length = u.pxBytes) :
    ∃ t, writeRun gen i n s = .ok t ∧ Wrote s t n ∧
      ∀ k, k < n → ∃ u v, Midway s t u k ∧ SameButDst s u ∧ gen (i + k) u = .ok v ∧ v.length = s.pxBytes ∧
        ∀ j, j < s.pxBytes → t.dst.read (s.dp + k * s.pxBytes + j) = v.getD j 0 := by
  induction n generalizing i s with
  | zero =>
    refine ⟨s, rfl, ⟨by simp, h, fun _ _ => rfl⟩, fun k hk => by omega⟩
  | succ n ih =>
    have hcap1 : s.dstAvail 1 := by
      simp only [State.dstAvail, Nat.succ_mul] at hcap ⊢; omega
    obtain ⟨v, hv, hvl⟩ := hgen i s rfl h hcap1
    have hw := writePixel_ok hvl hcap1
    have hpx : (afterPixel v s).pxBytes = s.pxBytes := rfl
    have hdp : (afterPixel v s).dp = s.dp + s.pxBytes := rfl
    have hcap' : (afterPixel v s).dstAvail n := by
      have hsz : (afterPixel v s).dstSize = s.dstSize := rfl
      simp only [State.dstAvail, Nat.succ_mul, hpx, hdp, hsz] at hcap ⊢; omega
    obtain ⟨t, ht, hwr, hpix⟩ := ih (i + 1) (afterPixel_ready h) hcap' (fun k u hu => hgen k u (by
      unfold SameButDst at hu ⊢; rw [hu]; rfl))
    have hreadv : ∀ a, (afterPixel v s).dst.read a =
        if s.dp ≤ a ∧ a < s.dp + s.pxBytes then v.getD (a - s.dp) 0 else s.dst.read a := fun a => by
      have := Memory.read_writeBytes h.dst s.dp v a
      rwa [hvl] at this
    refine ⟨t, by simp [writeRun, hv, hw, ht], ⟨?_, hwr.ready, ?_⟩, ?_⟩
    · refine hwr.state.trans ?_
      show ({ s with dp := s.dp + s.pxBytes + n * s.pxBytes, dst := t.dst } : State) = _
      rw [show s.dp + s.pxBytes + n * s.pxBytes = s.dp + (n + 1) * s.pxBytes by rw [Nat.succ_mul]; omega]
    · intro a ha
      rw [Nat.succ_mul] at ha
      rw [hwr.frame a (by rw [hpx, hdp]; omega), hreadv, if_neg (by omega)]
    · intro k hk
      cases k with
      | zero =>
        refine ⟨s, v, ⟨by simp, h, ?_, fun _ _ => rfl⟩, rfl, by simpa using hv, hvl, ?_⟩
        · intro a ha
          rw [hwr.frame a (by omega), hreadv, if_neg (by omega)]
        · intro j hj
          rw [hwr.frame _ (by omega), hreadv, if_pos (by omega)]
          congr 1; omega
      | succ k =>
        obtain ⟨u, w, hmid, hsame, hg, hl, hb⟩ := hpix k (by omega)
        rw [hpx, hdp] at hb
        refine ⟨u, w, ⟨?_, hmid.ready, ?_, ?_⟩, ?_, by rw [← hg]; congr 1; omega, hl, ?_⟩
        · refine hmid.state.trans ?_
          show ({ s with sp := u.sp, bitmask := u.bitmask, dp := s.dp + s.pxBytes + k * s.pxBytes, dst := u.dst } :
            State) = _
          rw [show s.dp + s.pxBytes + k * s.pxBytes = s.dp + (k + 1) * s.pxBytes by rw [Nat.succ_mul]; omega]
        · intro a ha
          exact hmid.below a (by rw [Nat.succ_mul] at ha; show a < s.dp + s.pxBytes + k * s.pxBytes; omega)
        · intro a ha
          rw [Nat.succ_mul] at ha
          rw [hmid.above a (by show s.dp + s.pxBytes + k * s.pxBytes ≤ a; omega), hreadv, if_neg (by omega)]
        · unfold SameButDst at hsame ⊢; rw [hsame]; rfl
        · intro j hj
          have := hb j hj
          rw [← this]; congr 1; rw [Nat.succ_mul]; omega

/-- What the copy loop does: `n` pixels go from source to destination byte for byte (spec/43_image_orders.md R132). -/
theorem copyPixels_spec {s : State} (n : Nat) (h : s.Ready) (hsrc : s.srcAvail (n * s.pxBytes)) (hcap : s.dstAvail n) :
    ∃ t, copyPixels n s = .ok t ∧
      t = { s with sp := s.sp + n * s.pxBytes, dp := s.dp + n * s.pxBytes, dst := t.dst } ∧ t.Ready ∧
      (∀ a, a < s.dp ∨ s.dp + n * s.pxBytes ≤ a → t.dst.read a = s.dst.read a) ∧
      ∀ j, j < n * s.pxBytes → t.dst.read (s.dp + j) = s.src.read (s.sp + j) := by
  induction n generalizing s with
  | zero => exact ⟨s, rfl, by simp, h, fun _ _ => rfl, fun j hj => by omega⟩
  | succ n ih =>
    simp only [State.srcAvail, State.dstAvail, Nat.succ_mul] at hsrc hcap
    have hr : readSrcPixel s = _ := readSrcPixel_ok (by simp only [State.srcAvail]; omega)
    have h1 : ({ s with sp := s.sp + s.pxBytes } : State).Ready := ⟨h.cfg, h.dst, h.fgPel, h.above⟩
    have hw : writePixel (s.src.readBytes s.sp s.pxBytes) { s with sp := s.sp + s.pxBytes } = _ :=
      writePixel_ok (by simp [State.pxBytes]) (by show s.dp + 1 * s.pxBytes ≤ s.dstSize; omega)
    have h2 := afterPixel_ready (v := s.src.readBytes s.sp s.pxBytes) h1
    obtain ⟨t, ht, hst, hre, hfr, hby⟩ := ih h2
      (by show s.sp + s.pxBytes + n * s.pxBytes ≤ s.srcLen; omega)
      (by show s.dp + s.pxBytes + n * s.pxBytes ≤ s.dstSize; omega)
    have hread : ∀ a, (afterPixel (s.src.readBytes s.sp s.pxBytes) { s with sp := s.sp + s.pxBytes }).dst.read a =
        if s.dp ≤ a ∧ a < s.dp + s.pxBytes then (s.src.readBytes s.sp s.pxBytes).getD (a - s.dp) 0
        else s.dst.read a := fun a => by
      have := Memory.read_writeBytes h.dst s.dp (s.src.readBytes s.sp s.pxBytes) a
      rwa [Memory.length_readBytes] at this
    change ∀ a, a < s.dp + s.pxBytes ∨ s.dp + s.pxBytes + n * s.pxBytes ≤ a → _ at hfr
    change ∀ j, j < n * s.pxBytes → t.dst.read (s.dp + s.pxBytes + j) = s.src.read (s.sp + s.pxBytes + j) at hby
    refine ⟨t, by simp [copyPixels, hr, hw, ht], ?_, hre, ?_, ?_⟩
    · refine hst.trans ?_
      show ({ s with sp := s.sp + s.pxBytes + n * s.pxBytes, dp := s.dp + s.pxBytes + n * s.pxBytes, dst := t.dst } :
        State) = _
      rw [show s.dp + s.pxBytes + n * s.pxBytes = s.dp + (n + 1) * s.pxBytes by rw [Nat.succ_mul]; omega,
        show s.sp + s.pxBytes + n * s.pxBytes = s.sp + (n + 1) * s.pxBytes by rw [Nat.succ_mul]; omega]
    · intro a ha
      rw [Nat.succ_mul] at ha
      rw [hfr a (by omega), hread, if_neg (by omega)]
    · intro j hj
      rw [Nat.succ_mul] at hj
      by_cases hjp : j < s.pxBytes
      · rw [hfr _ (by omega), hread, if_pos (by omega), show s.dp + j - s.dp = j by omega,
          Memory.getD_readBytes _ _ hjp]
      · have := hby (j - s.pxBytes) (by omega)
        rwa [show s.dp + s.pxBytes + (j - s.pxBytes) = s.dp + j by omega,
          show s.sp + s.pxBytes + (j - s.pxBytes) = s.sp + j by omega] at this

/-- What the group loop does: `n` pixels, pixel `k` chosen by bit `k mod 8` of mask byte `k / 8`
(spec/43_image_orders.md R125, R126). -/
theorem writeGroups_spec {s : State} (groups n : Nat) (hg : groups = maskBytes n) (h : s.Ready)
    (hsrc : s.srcAvail groups) (hcap : s.dstAvail n) :
    ∃ t, writeGroups groups n s = .ok t ∧
      t = { s with sp := s.sp + groups, bitmask := t.bitmask, dp := s.dp + n * s.pxBytes, dst := t.dst } ∧ t.Ready ∧
      t.bitmask = (if n = 0 then s.bitmask else s.src.read (s.sp + (n - 1) / 8)) ∧
      (∀ a, a < s.dp ∨ s.dp + n * s.pxBytes ≤ a → t.dst.read a = s.dst.read a) ∧
      ∀ k, k < n → ∃ u v, Midway s t u k ∧
        (if (s.src.read (s.sp + k / 8)).getLsbD (k % 8) then fgPixel u else bgPixel u) = .ok v ∧
        v.length = s.pxBytes ∧ ∀ j, j < s.pxBytes → t.dst.read (s.dp + k * s.pxBytes + j) = v.getD j 0 := by
  induction groups generalizing n s with
  | zero =>
    have hn : n = 0 := by simp only [maskBytes] at hg; omega
    subst hn
    exact ⟨s, rfl, by simp, h, by simp, fun _ _ => rfl, fun k hk => by omega⟩
  | succ groups ih =>
    have hn : 0 < n := by simp only [maskBytes] at hg; omega
    have hle : min 8 n * s.pxBytes ≤ n * s.pxBytes := Nat.mul_le_mul_right _ (by omega)
    have hsum : min 8 n * s.pxBytes + (n - min 8 n) * s.pxBytes = n * s.pxBytes := by
      rw [← Nat.add_mul]; congr 1; omega
    simp only [State.srcAvail, State.dstAvail] at hsrc hcap
    have hr : readSrcByte s = _ := readSrcByte_ok (by simp only [State.srcAvail]; omega)
    have h1 : ({ s with sp := s.sp + 1, bitmask := s.src.read s.sp } : State).Ready :=
      ⟨h.cfg, h.dst, h.fgPel, h.above⟩
    obtain ⟨s2, hs2, hwr, hpix⟩ := writeRun_spec (gen := maskedPixel) 0 (min 8 n) h1
      (by show s.dp + min 8 n * s.pxBytes ≤ s.dstSize; omega) (fun k u _ hu hc => maskedPixel_total k hu hc)
    have hst2 : s2 = { s with sp := s.sp + 1, bitmask := s.src.read s.sp, dp := s.dp + min 8 n * s.pxBytes, dst := s2.dst } :=
      hwr.state
    have e1 : s2.sp = s.sp + 1 := by rw [hst2]
    have e2 : s2.dp = s.dp + min 8 n * s.pxBytes := by rw [hst2]
    have e3 : s2.pxBytes = s.pxBytes := by rw [hst2]; rfl
    have e4 : s2.dstSize = s.dstSize := by rw [hst2]; rfl
    have e5 : s2.srcLen = s.srcLen := by rw [hst2]
    have e6 : s2.src = s.src := by rw [hst2]
    have e7 : s2.bitmask = s.src.read s.sp := by rw [hst2]
    obtain ⟨t, ht, hst, hre, hbm, hfr, hpx⟩ := ih (s := s2) (n - min 8 n)
      (by simp only [maskBytes] at hg ⊢; omega) hwr.ready
      (by simp only [State.srcAvail, e1, e5]; omega)
      (by simp only [State.dstAvail, e2, e3, e4]; omega)
    simp only [e1, e2, e3, e6, e7] at hst hbm hfr hpx
    have hfr2 : ∀ a, a < s.dp ∨ s.dp + min 8 n * s.pxBytes ≤ a → s2.dst.read a = s.dst.read a := hwr.frame
    refine ⟨t, by simp [writeGroups, writeFgBgGroup, hr, hs2, ht], ?_, hre, ?_, ?_, ?_⟩
    · refine hst.trans ?_
      rw [hst2]
      show ({ s with
        sp := s.sp + 1 + groups
        bitmask := t.bitmask
        dp := s.dp + min 8 n * s.pxBytes + (n - min 8 n) * s.pxBytes
        dst := t.dst } : State) = _
      rw [show s.sp + 1 + groups = s.sp + (groups + 1) by omega,
        show s.dp + min 8 n * s.pxBytes + (n - min 8 n) * s.pxBytes = s.dp + n * s.pxBytes by omega]
    · rw [hbm, if_neg (by omega : ¬ n = 0)]
      by_cases h8 : n - min 8 n = 0
      · rw [if_pos h8]; congr 1; omega
      · rw [if_neg h8]; congr 1; omega
    · intro a ha
      rw [hfr a (by omega), hfr2 a (by omega)]
    · intro k hk
      by_cases hk8 : k < min 8 n
      · obtain ⟨u, v, hmid, hsame, hgv, hl, hb⟩ := hpix k hk8
        have hkp : (k + 1) * s.pxBytes ≤ min 8 n * s.pxBytes := Nat.mul_le_mul_right _ hk8
        rw [Nat.succ_mul] at hkp
        have hub : u.bitmask = s.src.read s.sp := by rw [hsame]
        refine ⟨u, v, ⟨hmid.state, hmid.ready, ?_, hmid.above⟩, ?_, hl, ?_⟩
        · intro a ha
          rw [hfr a (by omega)]
          exact hmid.below a ha
        · rw [← hgv, maskedPixel, hub, show k / 8 = 0 by omega, show k % 8 = 0 + k by omega]; rfl
        · intro j hj
          rw [hfr _ (by omega)]
          exact hb j hj
      · obtain ⟨u, v, hmid, hgv, hl, hb⟩ := hpx (k - min 8 n) (by omega)
        have hks : min 8 n * s.pxBytes + (k - min 8 n) * s.pxBytes = k * s.pxBytes := by
          rw [← Nat.add_mul]; congr 1; omega
        have hbel := hmid.below
        have habo := hmid.above
        simp only [e2, e3] at hbel habo
        refine ⟨u, v, ⟨?_, hmid.ready, ?_, ?_⟩, ?_, hl, ?_⟩
        · refine hmid.state.trans ?_
          rw [hst2]
          show ({ s with
            sp := u.sp
            bitmask := u.bitmask
            dp := s.dp + min 8 n * s.pxBytes + (k - min 8 n) * s.pxBytes
            dst := u.dst } : State) = _
          rw [show s.dp + min 8 n * s.pxBytes + (k - min 8 n) * s.pxBytes = s.dp + k * s.pxBytes by omega]
        · intro a ha
          exact hbel a (by omega)
        · intro a ha
          rw [habo a (by omega), hfr2 a (by omega)]
        · rw [← hgv, show s.sp + 1 + (k - min 8 n) / 8 = s.sp + k / 8 by omega,
            show (k - min 8 n) % 8 = k % 8 by omega]
        · intro j hj
          rw [← hb j hj]; congr 1; omega

/-! ### The failure of the call -/

theorem dstAfterFailure_wf {s : State} (h : s.dst.wf = true) (c : Cause) : (dstAfterFailure c s).wf = true := by
  cases c <;> simp only [dstAfterFailure, h] <;> exact Memory.fillBelow_wf h _ _

/-- Outside the bound a failure leaves the destination as it was (spec/20_memory.md R57, R58). -/
theorem read_dstAfterFailure_of_ge {s : State} (h : s.dst.wf = true) (c : Cause) {a : Nat} (ha : s.dstSize ≤ a) :
    (dstAfterFailure c s).read a = s.dst.read a := by
  cases c <;> simp only [dstAfterFailure] <;>
    rw [Memory.read_fillBelow h, if_neg (by omega)]

end Sys2Proof.Machine
end

