-- ==== Sys2Proof/Laws/PerInstr.lean ====
section
/-! SUPPORT. What holds of every order header as syntax, one lemma per constructor: its encoding is one to three bytes and its
first byte carries its code (spec/30_encoding.md R61, R62, R63). -/

namespace Sys2Proof.Laws.HeaderShape

open Sys2Proof.Machine

/-- The encoding of a well-formed header is one to three bytes, the first of which has the header's code. -/
def Statement (i : Instr) : Prop :=
  i.wellFormed = true →
    (1 ≤ (encode i).length ∧ (encode i).length ≤ 3) ∧ extractCode Encoding.adopted ((encode i).headD 0#8) = orderCode i

theorem bgRun (L : BitVec 5) : Statement (.bgRun L) := by
  revert L; unfold Statement; decide

theorem bgRunX (n : Byte) : Statement (.bgRunX n) :=
  fun _ => ⟨by simp [encode], (by decide : extractCode Encoding.adopted 0x00#8 = .bgRun)⟩

theorem fgRun (L : BitVec 5) : Statement (.fgRun L) := by
  revert L; unfold Statement; decide

theorem fgRunX (n : Byte) : Statement (.fgRunX n) :=
  fun _ => ⟨by simp [encode], (by decide : extractCode Encoding.adopted 0x20#8 = .fgRun)⟩

theorem fgbgImage (L : BitVec 5) : Statement (.fgbgImage L) := by
  revert L; unfold Statement; decide

theorem fgbgImageX (n : Byte) : Statement (.fgbgImageX n) :=
  fun _ => ⟨by simp [encode], (by decide : extractCode Encoding.adopted 0x40#8 = .fgbgImage)⟩

theorem colorRun (L : BitVec 5) : Statement (.colorRun L) := by
  revert L; unfold Statement; decide

theorem colorRunX (n : Byte) : Statement (.colorRunX n) :=
  fun _ => ⟨by simp [encode], (by decide : extractCode Encoding.adopted 0x60#8 = .colorRun)⟩

theorem colorImage (L : BitVec 5) : Statement (.colorImage L) := by
  revert L; unfold Statement; decide

theorem colorImageX (n : Byte) : Statement (.colorImageX n) :=
  fun _ => ⟨by simp [encode], (by decide : extractCode Encoding.adopted 0x80#8 = .colorImage)⟩

theorem setFgRun (L : BitVec 4) : Statement (.setFgRun L) := by
  revert L; unfold Statement; decide

theorem setFgRunX (n : Byte) : Statement (.setFgRunX n) :=
  fun _ => ⟨by simp [encode], (by decide : extractCode Encoding.adopted 0xC0#8 = .setFgRun)⟩

theorem setFgbgImage (L : BitVec 4) : Statement (.setFgbgImage L) := by
  revert L; unfold Statement; decide

theorem setFgbgImageX (n : Byte) : Statement (.setFgbgImageX n) :=
  fun _ => ⟨by simp [encode], (by decide : extractCode Encoding.adopted 0xD0#8 = .setFgbgImage)⟩

theorem ditheredRun (L : BitVec 4) : Statement (.ditheredRun L) := by
  revert L; unfold Statement; decide

theorem ditheredRunX (n : Byte) : Statement (.ditheredRunX n) :=
  fun _ => ⟨by simp [encode], (by decide : extractCode Encoding.adopted 0xE0#8 = .ditheredRun)⟩

theorem megaBgRun (lo hi : Byte) : Statement (.megaBgRun lo hi) :=
  fun _ => ⟨by simp [encode], (by decide : extractCode Encoding.adopted 0xF0#8 = .megaBgRun)⟩

theorem megaFgRun (lo hi : Byte) : Statement (.megaFgRun lo hi) :=
  fun _ => ⟨by simp [encode], (by decide : extractCode Encoding.adopted 0xF1#8 = .megaFgRun)⟩

theorem megaFgbgImage (lo hi : Byte) : Statement (.megaFgbgImage lo hi) :=
  fun _ => ⟨by simp [encode], (by decide : extractCode Encoding.adopted 0xF2#8 = .megaFgbgImage)⟩

theorem megaColorRun (lo hi : Byte) : Statement (.megaColorRun lo hi) :=
  fun _ => ⟨by simp [encode], (by decide : extractCode Encoding.adopted 0xF3#8 = .megaColorRun)⟩

theorem megaColorImage (lo hi : Byte) : Statement (.megaColorImage lo hi) :=
  fun _ => ⟨by simp [encode], (by decide : extractCode Encoding.adopted 0xF4#8 = .megaColorImage)⟩

theorem megaSetFgRun (lo hi : Byte) : Statement (.megaSetFgRun lo hi) :=
  fun _ => ⟨by simp [encode], (by decide : extractCode Encoding.adopted 0xF6#8 = .megaSetFgRun)⟩

theorem megaSetFgbgImage (lo hi : Byte) : Statement (.megaSetFgbgImage lo hi) :=
  fun _ => ⟨by simp [encode], (by decide : extractCode Encoding.adopted 0xF7#8 = .megaSetFgbgImage)⟩

theorem megaDitheredRun (lo hi : Byte) : Statement (.megaDitheredRun lo hi) :=
  fun _ => ⟨by simp [encode], (by decide : extractCode Encoding.adopted 0xF8#8 = .megaDitheredRun)⟩

theorem specialFgbg1 : Statement (.specialFgbg1) := by
  unfold Statement; decide

theorem specialFgbg2 : Statement (.specialFgbg2) := by
  unfold Statement; decide

theorem white : Statement (.white) := by
  unfold Statement; decide

theorem black : Statement (.black) := by
  unfold Statement; decide

theorem invalidA0BF (x : BitVec 5) : Statement (.invalidA0BF x) := by
  revert x; unfold Statement; decide

theorem invalidF5 : Statement (.invalidF5) := by
  unfold Statement; decide

theorem invalidFB : Statement (.invalidFB) := by
  unfold Statement; decide

theorem invalidFC : Statement (.invalidFC) := by
  unfold Statement; decide

theorem invalidFF : Statement (.invalidFF) := by
  unfold Statement; decide

end Sys2Proof.Laws.HeaderShape
end

