-- ==== Sys2Proof/Laws/Step.lean ====
section
/-! SUPPORT. What lies around the meaning of an order in a step: the first-line update, the fetch, runs of several steps. -/

namespace Sys2Proof.Machine

/-- One step of a run, for any core. -/
theorem core_run_succ (M : Host.Core) {s t : M.State} (k : Nat) (h : M.step s = .next t) : M.run (k + 1) s = M.run k t := by
  rw [Host.Core.run, h]

/-- One step of a run of this machine. -/
theorem run_succ {s t : State} (k : Nat) (h : step s = .next t) :
    Sys2Proof.core.run (k + 1) s = Sys2Proof.core.run k t := core_run_succ Sys2Proof.core k h

/-- The first-line update is made for the rule that a row above exists when `fFirstLine` is false
(spec/10_state.md R39). -/
theorem firstLineUpdate_ready {s : State} (h : s.Ready) : (firstLineUpdate s).Ready := by
  unfold firstLineUpdate
  split
  · next hf => exact ⟨h.cfg, h.dst, h.fgPel, fun _ => hf.2⟩
  · exact h

/-- The header is fetched at the same place before and after the first-line update. -/
@[simp] theorem fetchHeader_firstLineUpdate (s : State) : fetchHeader (firstLineUpdate s) = fetchHeader s := by
  simp [fetchHeader]

/-- While source bytes are left, the step of a running call is one iteration of the main loop. -/
theorem step_of_busy {s : State} (hb : s.status = .busy) (h : s.sp < s.srcLen) : step s = loopIteration s := by
  simp [step, hb, engineTurn, h]

/-- Without a running call, the step is the host's turn. -/
theorem step_of_not_busy {s : State} (hb : s.status ≠ .busy) : step s = .next (hostTurn s) := by
  cases h : s.status <;> simp [step, h] at hb ⊢

end Sys2Proof.Machine
end

