-- ==== Sys2Proof/Tests/Slice0.lean ====
section
/-! SUPPORT. The model's own tests. Expected results come from the encoding table and the vectors of spec/95_test_vectors.md (their
names in the comments); the witnesses show that the hypotheses of each statement can be met together. -/

namespace Sys2Proof.Tests

open Sys2Proof.Machine Sys2Proof.Claims

/-! ### Well-formedness: a length field of 0 marks the extended spelling (R61) -/

theorem test_bgRun_zero_refused : (Instr.bgRun 0).wellFormed = false := by decide
theorem test_fgRun_zero_refused : (Instr.fgRun 0).wellFormed = false := by decide
theorem test_fgbgImage_zero_refused : (Instr.fgbgImage 0).wellFormed = false := by decide
theorem test_colorRun_zero_refused : (Instr.colorRun 0).wellFormed = false := by decide
theorem test_colorImage_zero_refused : (Instr.colorImage 0).wellFormed = false := by decide
theorem test_setFgRun_zero_refused : (Instr.setFgRun 0).wellFormed = false := by decide
theorem test_setFgbgImage_zero_refused : (Instr.setFgbgImage 0).wellFormed = false := by decide
theorem test_ditheredRun_zero_refused : (Instr.ditheredRun 0).wellFormed = false := by decide

/-! ### Decoding: words written out from R61, R62 -/

theorem test_decode_background :
    decodeTableWord 8 0b000_11111 = some (.bgRun 31) ∧
    decodeTableWord 16 0b00000101_000_00000 = some (.bgRunX 5) ∧
    decodeTableWord 24 0b00000001_00000010_11110000 = some (.megaBgRun 2 1) := by decide

theorem test_decode_foreground :
    decodeTableWord 8 0b001_00001 = some (.fgRun 1) ∧
    decodeTableWord 16 0b11111111_001_00000 = some (.fgRunX 255) ∧
    decodeTableWord 24 0b00000001_00000010_11110001 = some (.megaFgRun 2 1) := by decide

theorem test_decode_fgbg_image :
    decodeTableWord 8 0b010_00011 = some (.fgbgImage 3) ∧
    decodeTableWord 16 0b00000011_010_00000 = some (.fgbgImageX 3) ∧
    decodeTableWord 24 0b00000001_00000010_11110010 = some (.megaFgbgImage 2 1) := by decide

theorem test_decode_color_run :
    decodeTableWord 8 0b011_00100 = some (.colorRun 4) ∧
    decodeTableWord 16 0b11111111_011_00000 = some (.colorRunX 255) ∧
    decodeTableWord 24 0b00000001_00000010_11110011 = some (.megaColorRun 2 1) := by decide

theorem test_decode_color_image :
    decodeTableWord 8 0b100_00100 = some (.colorImage 4) ∧
    decodeTableWord 16 0b00000000_100_00000 = some (.colorImageX 0) ∧
    decodeTableWord 24 0b00000001_00000010_11110100 = some (.megaColorImage 2 1) := by decide

theorem test_decode_set_foreground :
    decodeTableWord 8 0b1100_1111 = some (.setFgRun 15) ∧
    decodeTableWord 16 0b11111111_1100_0000 = some (.setFgRunX 255) ∧
    decodeTableWord 24 0b00000001_00000010_11110110 = some (.megaSetFgRun 2 1) := by decide

theorem test_decode_set_fgbg_image :
    decodeTableWord 8 0b1101_0001 = some (.setFgbgImage 1) ∧
    decodeTableWord 16 0b00000011_1101_0000 = some (.setFgbgImageX 3) ∧
    decodeTableWord 24 0b00000001_00000010_11110111 = some (.megaSetFgbgImage 2 1) := by decide

theorem test_decode_dithered :
    decodeTableWord 8 0b1110_0010 = some (.ditheredRun 2) ∧
    decodeTableWord 16 0b00000000_1110_0000 = some (.ditheredRunX 0) ∧
    decodeTableWord 24 0b00000001_00000010_11111000 = some (.megaDitheredRun 2 1) := by decide

theorem test_decode_special :
    decodeTableWord 8 0b11111001 = some .specialFgbg1 ∧ decodeTableWord 8 0b11111010 = some .specialFgbg2 ∧
    decodeTableWord 8 0b11111101 = some .white ∧ decodeTableWord 8 0b11111110 = some .black := by decide

theorem test_decode_invalid :
    decodeTableWord 8 0b101_00000 = some (.invalidA0BF 0) ∧ decodeTableWord 8 0b101_11111 = some (.invalidA0BF 31) ∧
    decodeTableWord 8 0b11110101 = some .invalidF5 ∧ decodeTableWord 8 0b11111011 = some .invalidFB ∧
    decodeTableWord 8 0b11111100 = some .invalidFC ∧ decodeTableWord 8 0b11111111 = some .invalidFF := by decide

/-- Truncated headers (E5, E6) and no header. -/
theorem test_decode_truncated :
    decode Encoding.adopted [0x00#8] = .error .malformedHeader ∧
    decode Encoding.adopted [0xF0#8, 0x05#8] = .error .malformedHeader ∧
    decode Encoding.adopted [] = .error .noHeaderByte := by decide

/-- A table of three kinds, with other numbers everywhere: `ENC` is a parameter (R11, D3). -/
def otherTable : Encoding where
  rows := [⟨.white, 0x00#8, 0xFF#8, 0x00#8⟩, ⟨.fgRun, 0x80#8, 0xF8#8, 0x07#8⟩, ⟨.megaBgRun, 0x90#8, 0xFF#8, 0x00#8⟩]
  regularBias := 8
  liteBias := 4
  imageBias := 0
  imageScale := 4
  megaOrder := .highFirst

/-- The build's table decides what a header byte stands for, in what order mega length bytes come, and what is invalid. -/
theorem test_decode_otherTable :
    otherTable.wf ∧ decode otherTable [0x00] = .ok (.white, []) ∧ decode otherTable [0x83] = .ok (.fgRun 3, []) ∧
    decode otherTable [0x80, 0x01] = .ok (.fgRunX 1, []) ∧ decode otherTable [0x90, 0x01, 0x02] = .ok (.megaBgRun 2 1, []) ∧
    extractCode otherTable 0xFD = .invalid := by decide

/-! ### One step on a small state -/

/-- A running call with the source bytes at offset 0 and the cursor there, `dest` in the destination, and the destination
cursor at `dp` in a destination of `h` rows of `rd` bytes. -/
def call (w : PixelWidth) (rd h dp : Nat) (source dest : List Byte) : State :=
  { State.powerOn (Config.adopted w false) with
    status := .busy
    srcLen := source.length
    rowDelta := rd
    width := 1
    height := h
    dp := dp
    fFirstLine := decide (dp < rd)
    src := Memory.writeBytes [] 0 source
    dst := Memory.writeBytes [] 0 dest }

/-- The row-0 prefix of the vectors is already in the destination: `RD = 4`, two rows, cursor at the second. -/
def secondRow (source : List Byte) : State := call .one 4 2 4 source [0x11, 0x22, 0x33, 0x44]

/-- What a test looks at: `STATUS`, `sp`, `dp`, `fInsertFgPel`, and `n` destination bytes from `a`. -/
def seen (o : Host.Outcome State Fault Refusal) (a n : Nat) : Option (Status × Nat × Nat × Bool × List Byte) :=
  match o with
  | .next t => some (t.status, t.sp, t.dp, t.fInsertFgPel, t.dst.readBytes a n)
  | .fault _ => none
  | .refused _ => none

/-- The cause of a failed call. -/
def failure (o : Host.Outcome State Fault Refusal) : Option Cause :=
  match o with
  | .next t => if t.status = .fail then some t.cause else none
  | .fault _ => none
  | .refused _ => none

/-- V1. -/
theorem test_bgRun : seen (step (secondRow [0x04])) 4 4 = some (.busy, 1, 8, true, [0x11, 0x22, 0x33, 0x44]) := by decide

/-- V2, its second run: the inserted pixel is `33 xor FF`. -/
theorem test_bgRun_inserts :
    seen (step { call .one 4 2 6 [0x02] [0x11, 0x22, 0x33, 0x44, 0x11, 0x22] with fInsertFgPel := true }) 6 2 =
      some (.busy, 1, 8, true, [0xCC, 0x44]) := by decide

/-- V5, its second run: on the first line the inserted pixel is `fgPel` (log 22). -/
theorem test_bgRun_inserts_on_first_line :
    seen (step { call .one 4 1 2 [0x02] [] with fInsertFgPel := true }) 2 2 = some (.busy, 1, 4, true, [0xFF, 0x00]) := by
  decide

/-- V11, its second run: the line change keeps the flag. -/
theorem test_bgRun_line_change :
    seen (step { call .one 4 2 4 [0x04] [] with fFirstLine := true, fInsertFgPel := true }) 4 4 =
      some (.busy, 1, 8, true, [0xFF, 0x00, 0x00, 0x00]) := by decide

/-- V11b, its second run: with CLEAR_INSERT_ON_LINE_CHANGE the line change clears the flag. -/
theorem test_bgRun_line_change_clears :
    seen (step { call .one 4 2 4 [0x04] [] with
      cfg := Config.adopted .one true, fFirstLine := true, fInsertFgPel := true }) 4 4 =
      some (.busy, 1, 8, true, [0x00, 0x00, 0x00, 0x00]) := by decide

/-- E1. -/
theorem test_bgRunX : seen (step (call .one 40 1 0 [0x00, 0x00] (List.replicate 40 0x99))) 30 4 =
    some (.busy, 2, 32, true, [0x00, 0x00, 0x99, 0x99]) := by decide

/-- E4 and V14: a mega run of length 0 writes nothing and sets the flag. -/
theorem test_megaBgRun_zero : seen (step (call .one 4 1 0 [0xF0, 0x00, 0x00] [0x99])) 0 1 =
    some (.busy, 3, 0, true, [0x99]) := by decide

/-- R102: the mega form of V1. -/
theorem test_megaBgRun : seen (step (secondRow [0xF0, 0x03, 0x00])) 4 4 =
    some (.busy, 3, 7, true, [0x11, 0x22, 0x33, 0x00]) := by decide

/-- V7. -/
theorem test_fgRun : seen (step (secondRow [0x24])) 4 4 = some (.busy, 1, 8, false, [0xEE, 0xDD, 0xCC, 0xBB]) := by decide

/-- V9, its first order: a run that starts on the first line writes `fgPel` also in row 1. -/
theorem test_fgRun_first_line_freeze : seen (step (call .one 4 2 0 [0x26] [])) 3 4 =
    some (.busy, 1, 6, false, [0xFF, 0xFF, 0xFF, 0x00]) := by decide

/-- E2. -/
theorem test_fgRunX : seen (step (call .one 40 1 0 [0x20, 0x01] (List.replicate 40 0x99))) 31 3 =
    some (.busy, 2, 33, false, [0xFF, 0xFF, 0x99]) := by decide

/-- PC, its last order: 3-byte pixels, `fgPel` F0 0F FF. -/
theorem test_megaFgRun :
    seen (step { call .three 6 3 12 [0xF1, 0x02, 0x00]
      [0x01, 0x02, 0x03, 0x01, 0x02, 0x03, 0x01, 0x02, 0x03, 0xF1, 0x0D, 0xFC] with fgPel := [0xF0, 0x0F, 0xFF] }) 12 6 =
      some (.busy, 3, 18, false, [0xF1, 0x0D, 0xFC, 0x01, 0x02, 0x03]) := by decide

/-- V8, its first order. -/
theorem test_setFgRun : seen (step (secondRow [0xC2, 0x0F])) 4 3 = some (.busy, 2, 6, false, [0x1E, 0x2D, 0x00]) := by decide

/-- R68: `n + 16` pixels. -/
theorem test_setFgRunX : seen (step (call .one 20 1 0 [0xC0, 0x01, 0x0F] [])) 15 3 =
    some (.busy, 3, 17, false, [0x0F, 0x0F, 0x00]) := by decide

/-- V16, its first order: length 0 still loads `fgPel`. -/
theorem test_megaSetFgRun_zero :
    (match step (call .one 4 1 0 [0xF6, 0x00, 0x00, 0x0F] []) with
      | .next t => some (t.sp, t.dp, t.fgPel)
      | .fault _ => none
      | .refused _ => none) = some (4, 0, [0x0F]) := by decide

/-- R108: the mega form of V8. -/
theorem test_megaSetFgRun : seen (step (secondRow [0xF6, 0x02, 0x00, 0x0F])) 4 3 =
    some (.busy, 4, 6, false, [0x1E, 0x2D, 0x00]) := by decide

/-- V27: 2-byte pixels. -/
theorem test_ditheredRun : seen (step (call .two 4 1 0 [0xE1, 0x01, 0x02, 0x03, 0x04] [])) 0 4 =
    some (.busy, 5, 4, false, [0x01, 0x02, 0x03, 0x04]) := by decide

/-- V21: the capacity check counts `2 * runLength` pixels. -/
theorem test_ditheredRun_overflow : failure (step (call .one 4 1 0 [0xE3, 0xAA, 0x55] [])) = some .destinationOverflow := by
  decide

/-- Under another table the same order has another run length: `1 + 8` pixels. -/
theorem test_fgRunX_otherTable :
    seen (step { call .one 40 1 0 [0x80, 0x01] [] with cfg := { Config.adopted .one false with enc := otherTable } }) 8 2 =
      some (.busy, 2, 9, false, [0xFF, 0x00]) := by decide

/-- E3. -/
theorem test_ditheredRunX : seen (step (call .one 40 1 0 [0xE0, 0x00, 0xAA, 0x55] [])) 29 4 =
    some (.busy, 4, 32, false, [0x55, 0xAA, 0x55, 0x00]) := by decide

/-- V26. -/
theorem test_megaDitheredRun : seen (step (call .one 4 1 0 [0xF8, 0x02, 0x00, 0xAA, 0x55] [])) 0 4 =
    some (.busy, 5, 4, false, [0xAA, 0x55, 0xAA, 0x55]) := by decide

/-- V23: bytes are copied in source order. -/
theorem test_colorRun : seen (step (call .two 4 1 0 [0x62, 0x34, 0x12] [])) 0 4 =
    some (.busy, 3, 4, false, [0x34, 0x12, 0x34, 0x12]) := by decide

/-- V25: a pixel of three bytes, of which two are left. -/
theorem test_colorRun_source : failure (step (call .three 6 1 0 [0x62, 0x01, 0x02] [])) = some .sourceExhaustion := by decide

/-- R70: `n + 32` pixels. -/
theorem test_colorRunX : seen (step (call .one 40 1 0 [0x60, 0x01, 0x7E] [])) 32 2 =
    some (.busy, 3, 33, false, [0x7E, 0x00]) := by decide

/-- PC, its first order. -/
theorem test_megaColorRun : seen (step (call .three 6 3 0 [0xF3, 0x02, 0x00, 0x01, 0x02, 0x03] [])) 0 7 =
    some (.busy, 6, 6, false, [0x01, 0x02, 0x03, 0x01, 0x02, 0x03, 0x00]) := by decide

/-- V81's length bytes: `02 01` is 258, which does not fit in 257 bytes. -/
theorem test_megaColorRun_length : failure (step (call .one 257 1 0 [0xF3, 0x02, 0x01, 0x7E] [])) =
    some .destinationOverflow := by decide

/-- E12: mask A5 on the first line, low bit first. -/
theorem test_fgbgImage : seen (step (call .one 8 1 0 [0x41, 0xA5] [])) 0 8 =
    some (.busy, 2, 8, false, [0xFF, 0x00, 0xFF, 0x00, 0x00, 0xFF, 0x00, 0xFF]) := by decide

/-- V33: 16 pixels need two mask bytes, one is left. -/
theorem test_fgbgImage_source : failure (step (call .one 16 1 0 [0x42, 0xFF] [])) = some .sourceExhaustion := by decide

/-- V31: two groups, the second of four pixels. -/
theorem test_fgbgImageX :
    seen (step (call .one 12 2 12 [0x40, 0x0B, 0xFF, 0x0A] [1, 2, 3, 4, 5, 6, 7, 8, 9, 10, 11, 12])) 12 12 =
      some (.busy, 4, 24, false, [0xFE, 0xFD, 0xFC, 0xFB, 0xFA, 0xF9, 0xF8, 0xF7, 0x09, 0xF5, 0x0B, 0xF3]) := by decide

/-- V36: a mega length counts pixels. -/
theorem test_megaFgbgImage : seen (step (secondRow [0xF2, 0x04, 0x00, 0x05])) 4 4 =
    some (.busy, 4, 8, false, [0xEE, 0x22, 0xCC, 0x44]) := by decide

/-- V40, its last order: an FG/BG image inserts nothing. -/
theorem test_fgbgImageX_inserts_nothing :
    seen (step { call .one 4 2 5 [0x40, 0x02, 0x00] [0x11, 0x22, 0x33, 0x44, 0x11] with fInsertFgPel := true }) 5 3 =
      some (.busy, 3, 8, false, [0x22, 0x33, 0x44]) := by decide

/-- E13. -/
theorem test_setFgbgImage : seen (step (call .one 8 1 0 [0xD1, 0x0F, 0xA5] [])) 0 8 =
    some (.busy, 3, 8, false, [0x0F, 0x00, 0x0F, 0x00, 0x00, 0x0F, 0x00, 0x0F]) := by decide

/-- V35. -/
theorem test_setFgbgImageX : seen (step (secondRow [0xD0, 0x03, 0x0F, 0x05])) 4 4 =
    some (.busy, 4, 8, false, [0x1E, 0x22, 0x3C, 0x44]) := by decide

/-- V42. -/
theorem test_megaSetFgbgImage : seen (step (secondRow [0xF7, 0x04, 0x00, 0x0F, 0x05])) 4 4 =
    some (.busy, 5, 8, false, [0x1E, 0x22, 0x3C, 0x44]) := by decide

/-- V37. -/
theorem test_colorImage : seen (step (call .three 6 1 0 [0x82, 0x01, 0x02, 0x03, 0x04, 0x05, 0x06] [])) 0 6 =
    some (.busy, 7, 6, false, [0x01, 0x02, 0x03, 0x04, 0x05, 0x06]) := by decide

/-- V38 and V39: the source is tested before the capacity. -/
theorem test_colorImage_checks :
    failure (step (call .one 4 1 0 [0x83, 0x0A, 0x0B] [])) = some .sourceExhaustion ∧
    failure (step (call .one 4 1 0 [0x85, 0x01, 0x02, 0x03, 0x04, 0x05] [])) = some .destinationOverflow := by decide

/-- R70: `n + 32` pixels need `n + 32` source bytes. -/
theorem test_colorImageX : seen (step (call .one 40 1 0 (0x80 :: 0x00 :: List.replicate 32 0x5A) [])) 31 2 =
    some (.busy, 34, 32, false, [0x5A, 0x00]) := by decide

/-- V41. -/
theorem test_megaColorImage : seen (step (call .one 4 1 0 [0xF4, 0x03, 0x00, 0x0A, 0x0B, 0x0C] [0, 0, 0, 0x99])) 0 4 =
    some (.busy, 6, 3, false, [0x0A, 0x0B, 0x0C, 0x99]) := by decide

/-- V53: mask 03 on a later line. -/
theorem test_specialFgbg1 :
    seen (step (call .one 8 2 8 [0xF9] [0x11, 0x22, 0x33, 0x44, 0x55, 0x66, 0x77, 0x88])) 8 8 =
      some (.busy, 1, 16, false, [0xEE, 0xDD, 0x33, 0x44, 0x55, 0x66, 0x77, 0x88]) := by decide

/-- V51: mask 05 on the first line. -/
theorem test_specialFgbg2 : seen (step (call .one 8 1 0 [0xFA] [])) 0 8 =
    some (.busy, 1, 8, false, [0xFF, 0x00, 0xFF, 0x00, 0x00, 0x00, 0x00, 0x00]) := by decide

/-- V54. -/
theorem test_specialFgbg1_overflow : failure (step (call .one 4 1 0 [0xF9] [])) = some .destinationOverflow := by decide

/-- V71, its first order: four bytes FF. -/
theorem test_white : seen (step (call .four 8 1 0 [0xFD] [])) 0 5 = some (.busy, 1, 4, false, [0xFF, 0xFF, 0xFF, 0xFF, 0x00]) := by
  decide

/-- V55, its second order; and S1. -/
theorem test_black : seen (step (call .two 4 1 2 [0xFE] [0xFF, 0xFF, 0x99, 0x99])) 0 4 =
    some (.busy, 1, 4, false, [0xFF, 0xFF, 0x00, 0x00]) := by decide

/-- V66: two bytes fit in three, four do not. -/
theorem test_black_overflow : failure (step (call .two 3 1 2 [0xFE] [])) = some .destinationOverflow := by decide

/-- E8, E9, E10: the invalid header bytes. -/
theorem test_invalid :
    failure (step (call .one 4 1 0 [0xA0] [])) = some .invalidOrderCode ∧
    failure (step (call .one 4 1 0 [0xBF] [])) = some .invalidOrderCode ∧
    failure (step (call .one 4 1 0 [0xF5, 0x00, 0x00] [])) = some .invalidOrderCode ∧
    failure (step (call .one 4 1 0 [0xFB] [])) = some .invalidOrderCode ∧
    failure (step (call .one 4 1 0 [0xFC] [])) = some .invalidOrderCode ∧
    failure (step (call .one 4 1 1 [0xFF] [])) = some .invalidOrderCode := by decide

/-- E5, E6, E7, E11: truncated headers. -/
theorem test_malformed :
    failure (step (call .one 4 1 0 [0x00] [])) = some .malformedHeader ∧
    failure (step (call .one 4 1 0 [0xF0, 0x05] [])) = some .malformedHeader ∧
    failure (step (call .one 4 1 0 [0xF3] [])) = some .malformedHeader ∧
    failure (step (call .one 4 1 0 [0xC0] [])) = some .malformedHeader := by decide

/-- V70, its last order: `ROW_DELTA` is no multiple of `P`. -/
theorem test_above_straddles : seen (step (call .two 5 2 6 [0x02] [0x01, 0x02, 0x03, 0x04, 0xFF, 0xFF])) 6 4 =
    some (.busy, 1, 10, true, [0x02, 0x03, 0x04, 0xFF]) := by decide

/-- A state in which the host is about to start one call. -/
def calling (rd width h : Nat) (source dest : List Byte) : State :=
  { State.reset with hostCalls := [⟨source, source.length, rd, width, h, dest⟩] }

/-- V60, V61: the configuration check. -/
theorem test_start_refused :
    failure (step (calling 0 0 1 [0xFE] [])) = some .invalidConfiguration ∧
    failure (step (calling 3 4 1 [0xFE] [0x99])) = some .invalidConfiguration := by decide

/-- R85, R87: a legal configuration starts the call. -/
theorem test_start : seen (step (calling 4 4 1 [] [0x99])) 0 1 = some (.busy, 0, 0, false, [0x99]) := by decide

/-- V62: the empty stream succeeds and writes nothing. -/
theorem test_empty_stream :
    (match step (call .one 4 1 0 [] [0x99]) with
      | .next t => t.hostView
      | .fault _ => none
      | .refused _ => none) = some (.ok, [(0, 0x99)]) := by decide

/-- A word placed after reset is the first order that runs (log 24). -/
theorem test_withFetchWord : seen (step (State.reset.withFetchWord 8 0xFE)) 0 1 = some (.busy, 1, 1, false, [0x00]) := by
  decide

/-- The operand bytes of a placed word are 0x00 (log 24). -/
theorem test_withFetchWord_operand :
    seen (step (State.reset.withFetchWord 24 0x0001F3)) 0 1 = some (.busy, 4, 1, false, [0x00]) := by decide

/-! ### Witnesses: the hypotheses of each statement, met together -/

theorem call_inv {w : PixelWidth} {rd h dp : Nat} {source dest : List Byte} (h1 : 0 < rd) (h2 : dp ≤ rd * h)
    (h3 : w.bytes ∣ dp) : (call w rd h dp source dest).Inv := by
  have hw : (call w rd h dp source dest).dst.wf = true := Memory.writeBytes_wf rfl _ _
  have hc : (call w rd h dp source dest).cfg.wf := Config.adopted_wf w false
  refine ⟨hc, Memory.writeBytes_wf rfl _ _, hw, fun _ => ⟨⟨hc, hw, hc.1, fun hf => ?_⟩, ?_, Nat.zero_le _, h2, h3⟩⟩
  · have hlt : ¬ dp < rd := of_decide_eq_false hf
    exact Nat.le_of_not_lt hlt
  · rintro (hr | hr)
    · exact absurd hr (Nat.ne_of_gt h1)
    · exact absurd hr (Nat.not_lt.2 h1)

theorem secondRow_inv (source : List Byte) : (secondRow source).Inv := call_inv (by decide) (by decide) (by decide)

theorem secondRow_ready (source : List Byte) : (secondRow source).Ready := ((secondRow_inv source).running rfl).ready

theorem firstRow_inv (source : List Byte) : (call .one 4 2 0 source []).Inv :=
  call_inv (by decide) (by decide) (by decide)

theorem firstRow_ready (source : List Byte) : (call .one 4 2 0 source []).Ready := ((firstRow_inv source).running rfl).ready

/-- The byte 0xA0 and 0xBF, and no neighbour of theirs, are invalid. -/
theorem witness_OpcodeTableMatchesDecoder :
    isInvalidByte 0xA0 ∧ isInvalidByte 0xBF ∧ ¬ isInvalidByte 0x9F ∧ ¬ isInvalidByte 0xC0 := by
  unfold isInvalidByte; decide

/-- The last byte of a row and the first of the next; a byte no row accepts. -/
theorem witness_EncodingTableDecidesTheCode :
    Encoding.adopted.wf ∧
    (∃ r ∈ Encoding.adopted.rows, r.accepts 0x1F = true ∧ r.code = .bgRun) ∧
    (∃ r ∈ Encoding.adopted.rows, r.accepts 0x20 = true ∧ r.code = .fgRun) ∧
    ∀ r ∈ Encoding.adopted.rows, r.accepts 0xA0 = false :=
  ⟨Encoding.adopted_wf, by decide, by decide, by decide⟩

theorem witness_DecodeOfEncode : (Instr.bgRun 31).wellFormed = true ∧ (Instr.megaDitheredRun 255 255).wellFormed = true := by
  decide

theorem witness_EncodeOfDecode : decode Encoding.adopted [0x1F, 0x77] = .ok (.bgRun 31, [0x77]) ∧
    decode Encoding.adopted [0xF8, 0xFF, 0xFF] = .ok (.megaDitheredRun 255 255, []) := by decide

/-- One byte of a two-byte header is left. -/
theorem witness_HeaderBytesGiveRunLength_truncated :
    ∃ s : State, s.Inv ∧ s.cfg.enc = Encoding.adopted ∧ s.status = .busy ∧ s.sp < s.srcLen ∧ ¬ isInvalidByte (s.src.read s.sp) ∧
      ¬ s.srcAvail (headerOf (s.src.read s.sp) (s.src.read (s.sp + 1)) (s.src.read (s.sp + 2))).2 :=
  ⟨_, firstRow_inv [0x00], rfl, rfl, by decide, by unfold isInvalidByte; decide, by decide⟩

/-- A short form with the largest length field. -/
theorem witness_HeaderBytesGiveRunLength_short :
    ∃ s t : State, s.Inv ∧ s.cfg.enc = Encoding.adopted ∧ s.status = .busy ∧ s.sp < s.srcLen ∧ ¬ isInvalidByte (s.src.read s.sp) ∧
      headerOf (s.src.read s.sp) (s.src.read (s.sp + 1)) (s.src.read (s.sp + 2)) = (some 31, 1) ∧ s.srcAvail 1 ∧
      step s = .next t ∧ t.status = .busy :=
  ⟨_, _, call_inv (w := .one) (rd := 31) (h := 1) (dp := 0) (source := [0x1F]) (dest := []) (by decide) (by decide)
    (by decide), rfl, rfl, by decide, by unfold isInvalidByte; decide, by decide, by decide, rfl, rfl⟩

/-- A mega header that ends the source. -/
theorem witness_HeaderBytesGiveRunLength_mega :
    ∃ s t : State, s.Inv ∧ s.cfg.enc = Encoding.adopted ∧ s.status = .busy ∧ s.sp < s.srcLen ∧ ¬ isInvalidByte (s.src.read s.sp) ∧
      headerOf (s.src.read s.sp) (s.src.read (s.sp + 1)) (s.src.read (s.sp + 2)) = (some 2, 3) ∧ s.srcAvail 3 ∧
      step s = .next t ∧ t.status = .busy :=
  ⟨_, _, firstRow_inv [0xF0, 0x02, 0x00], rfl, rfl, by decide, by unfold isInvalidByte; decide, by decide, by decide, rfl, rfl⟩

/-- A special order has no run length. -/
theorem witness_HeaderBytesGiveRunLength_special :
    ∃ s t : State, s.Inv ∧ s.cfg.enc = Encoding.adopted ∧ s.status = .busy ∧ s.sp < s.srcLen ∧ ¬ isInvalidByte (s.src.read s.sp) ∧
      headerOf (s.src.read s.sp) (s.src.read (s.sp + 1)) (s.src.read (s.sp + 2)) = (none, 1) ∧ s.srcAvail 1 ∧
      step s = .next t ∧ t.status = .busy :=
  ⟨_, _, firstRow_inv [0xFE], rfl, rfl, by decide, by unfold isInvalidByte; decide, by decide, by decide, rfl, rfl⟩

/-- A run that fills the destination exactly, with the insert flag set. -/
theorem witness_BackgroundRunResult_fits :
    ∃ (s : State) (f : Form), f ∈ bgForms s.cfg.enc 4 0 0 0 ∧ s.Ready ∧ s.dstAvail f.length ∧ s.fInsertFgPel = true :=
  ⟨{ secondRow [0x04] with fInsertFgPel := true }, _, List.mem_cons_self,
    ⟨(secondRow_ready []).cfg, (secondRow_ready []).dst, (secondRow_ready []).fgPel, (secondRow_ready []).above⟩,
    by decide, rfl⟩

/-- One pixel too many. -/
theorem witness_BackgroundRunResult_overflow :
    ∃ (s : State) (f : Form), f ∈ bgForms s.cfg.enc 5 0 0 0 ∧ s.Ready ∧ ¬ s.dstAvail f.length :=
  ⟨_, _, List.mem_cons_self, secondRow_ready [0x05], by decide⟩

theorem witness_ForegroundRunResult_plain_fits :
    ∃ (s : State) (f : Form), f ∈ fgForms s.cfg.enc 4 0 0 0 ∧ s.Ready ∧ s.dstAvail f.length :=
  ⟨_, _, List.mem_cons_self, secondRow_ready [0x24], by decide⟩

theorem witness_ForegroundRunResult_plain_overflow :
    ∃ (s : State) (f : Form), f ∈ fgForms s.cfg.enc 5 0 0 0 ∧ s.Ready ∧ ¬ s.dstAvail f.length :=
  ⟨_, _, List.mem_cons_self, secondRow_ready [0x25], by decide⟩

/-- Source and destination are just enough. -/
theorem witness_ForegroundRunResult_setColor_fits :
    ∃ (s : State) (f : Form), f ∈ setFgForms s.cfg.enc 4 0 0 0 ∧ s.Ready ∧ s.srcAvail (f.advance + s.pxBytes) ∧ s.dstAvail (f.length) :=
  ⟨_, _, List.mem_cons_self, secondRow_ready [0xC4, 0x0F], by decide, by decide⟩

/-- One source byte is missing. -/
theorem witness_ForegroundRunResult_setColor_source :
    ∃ (s : State) (f : Form), f ∈ setFgForms s.cfg.enc 4 0 0 0 ∧ s.Ready ∧ ¬ s.srcAvail (f.advance + s.pxBytes) :=
  ⟨_, _, List.mem_cons_self, secondRow_ready [0xC4], by decide⟩

/-- The source is enough, the destination is too small. -/
theorem witness_ForegroundRunResult_setColor_overflow :
    ∃ (s : State) (f : Form), f ∈ setFgForms s.cfg.enc 5 0 0 0 ∧ s.Ready ∧ s.srcAvail (f.advance + s.pxBytes) ∧ ¬ s.dstAvail (f.length) :=
  ⟨_, _, List.mem_cons_self, secondRow_ready [0xC5, 0x0F], by decide, by decide⟩

/-- Source and destination are just enough. -/
theorem witness_DitheredRunResult_fits :
    ∃ (s : State) (f : Form), f ∈ ditheredForms s.cfg.enc 2 0 0 0 ∧ s.Ready ∧ s.srcAvail (f.advance + 2 * s.pxBytes) ∧ s.dstAvail (2 * f.length) :=
  ⟨_, _, List.mem_cons_self, secondRow_ready [0xE2, 0xAA, 0x55], by decide, by decide⟩

/-- One source byte is missing. -/
theorem witness_DitheredRunResult_source :
    ∃ (s : State) (f : Form), f ∈ ditheredForms s.cfg.enc 2 0 0 0 ∧ s.Ready ∧ ¬ s.srcAvail (f.advance + 2 * s.pxBytes) :=
  ⟨_, _, List.mem_cons_self, secondRow_ready [0xE2, 0xAA], by decide⟩

/-- The source is enough, the destination is too small. -/
theorem witness_DitheredRunResult_overflow :
    ∃ (s : State) (f : Form), f ∈ ditheredForms s.cfg.enc 3 0 0 0 ∧ s.Ready ∧ s.srcAvail (f.advance + 2 * s.pxBytes) ∧ ¬ s.dstAvail (2 * f.length) :=
  ⟨_, _, List.mem_cons_self, secondRow_ready [0xE3, 0xAA, 0x55], by decide, by decide⟩

/-- Source and destination are just enough. -/
theorem witness_ColorRunResult_fits :
    ∃ (s : State) (f : Form), f ∈ colorRunForms s.cfg.enc 4 0 0 0 ∧ s.Ready ∧ s.srcAvail (f.advance + s.pxBytes) ∧ s.dstAvail (f.length) :=
  ⟨_, _, List.mem_cons_self, secondRow_ready [0x64, 0x7E], by decide, by decide⟩

/-- One source byte is missing. -/
theorem witness_ColorRunResult_source :
    ∃ (s : State) (f : Form), f ∈ colorRunForms s.cfg.enc 4 0 0 0 ∧ s.Ready ∧ ¬ s.srcAvail (f.advance + s.pxBytes) :=
  ⟨_, _, List.mem_cons_self, secondRow_ready [0x64], by decide⟩

/-- The source is enough, the destination is too small. -/
theorem witness_ColorRunResult_overflow :
    ∃ (s : State) (f : Form), f ∈ colorRunForms s.cfg.enc 5 0 0 0 ∧ s.Ready ∧ s.srcAvail (f.advance + s.pxBytes) ∧ ¬ s.dstAvail (f.length) :=
  ⟨_, _, List.mem_cons_self, secondRow_ready [0x65, 0x7E], by decide, by decide⟩

/-- Source and destination are just enough. -/
theorem witness_ColorImageResult_fits :
    ∃ (s : State) (f : Form), f ∈ colorImageForms s.cfg.enc 4 0 0 0 ∧ s.Ready ∧ s.srcAvail (f.advance + f.length * s.pxBytes) ∧ s.dstAvail (f.length) :=
  ⟨_, _, List.mem_cons_self, secondRow_ready [0x84, 1, 2, 3, 4], by decide, by decide⟩

/-- One source byte is missing. -/
theorem witness_ColorImageResult_source :
    ∃ (s : State) (f : Form), f ∈ colorImageForms s.cfg.enc 4 0 0 0 ∧ s.Ready ∧ ¬ s.srcAvail (f.advance + f.length * s.pxBytes) :=
  ⟨_, _, List.mem_cons_self, secondRow_ready [0x84, 1, 2, 3], by decide⟩

/-- The source is enough, the destination is too small. -/
theorem witness_ColorImageResult_overflow :
    ∃ (s : State) (f : Form), f ∈ colorImageForms s.cfg.enc 5 0 0 0 ∧ s.Ready ∧ s.srcAvail (f.advance + f.length * s.pxBytes) ∧ ¬ s.dstAvail (f.length) :=
  ⟨_, _, List.mem_cons_self, secondRow_ready [0x85, 1, 2, 3, 4, 5], by decide, by decide⟩

/-- Eight pixels fill two rows of four; one mask byte. -/
theorem witness_FgbgImageResult_plain_fits :
    ∃ (s : State) (f : Form), f ∈ fgbgForms s.cfg.enc 1 0 0 0 ∧ s.Ready ∧ s.srcAvail (f.advance + (f.length + 7) / 8) ∧
      s.dstAvail f.length :=
  ⟨_, _, List.mem_cons_self, firstRow_ready [0x41, 0xA5], by decide, by decide⟩

theorem witness_FgbgImageResult_plain_source :
    ∃ (s : State) (f : Form), f ∈ fgbgForms s.cfg.enc 1 0 0 0 ∧ s.Ready ∧ ¬ s.srcAvail (f.advance + (f.length + 7) / 8) :=
  ⟨_, _, List.mem_cons_self, firstRow_ready [0x41], by decide⟩

theorem witness_FgbgImageResult_plain_overflow :
    ∃ (s : State) (f : Form), f ∈ fgbgForms s.cfg.enc 1 0 0 0 ∧ s.Ready ∧ s.srcAvail (f.advance + (f.length + 7) / 8) ∧
      ¬ s.dstAvail f.length :=
  ⟨_, _, List.mem_cons_self, secondRow_ready [0x41, 0xA5], by decide, by decide⟩

theorem witness_FgbgImageResult_setColor_fits :
    ∃ (s : State) (f : Form), f ∈ setFgbgForms s.cfg.enc 1 0 0 0 ∧ s.Ready ∧
      s.srcAvail (f.advance + s.pxBytes + (f.length + 7) / 8) ∧ s.dstAvail f.length :=
  ⟨_, _, List.mem_cons_self, firstRow_ready [0xD1, 0x0F, 0xA5], by decide, by decide⟩

theorem witness_FgbgImageResult_setColor_source :
    ∃ (s : State) (f : Form), f ∈ setFgbgForms s.cfg.enc 1 0 0 0 ∧ s.Ready ∧
      ¬ s.srcAvail (f.advance + s.pxBytes + (f.length + 7) / 8) :=
  ⟨_, _, List.mem_cons_self, firstRow_ready [0xD1, 0x0F], by decide⟩

theorem witness_FgbgImageResult_setColor_overflow :
    ∃ (s : State) (f : Form), f ∈ setFgbgForms s.cfg.enc 1 0 0 0 ∧ s.Ready ∧
      s.srcAvail (f.advance + s.pxBytes + (f.length + 7) / 8) ∧ ¬ s.dstAvail f.length :=
  ⟨_, _, List.mem_cons_self, secondRow_ready [0xD1, 0x0F, 0xA5], by decide, by decide⟩

/-- A mega FG/BG image of no pixels. -/
theorem witness_FgbgImageResult_zero :
    ∃ (s : State) (f : Form), f ∈ fgbgForms s.cfg.enc 0 0 0 0 ∧ f.length = 0 ∧ s.Ready ∧ s.srcAvail (f.advance + (f.length + 7) / 8) ∧
      s.dstAvail f.length :=
  ⟨_, ⟨.megaFgbgImage 0 0, .megaFgbgImage, 0, 3⟩, .tail _ (.tail _ (.head _)), rfl, firstRow_ready [0xF2, 0x00, 0x00],
    by decide, by decide⟩

/-- Both masks; eight pixels fill the destination. -/
theorem witness_SpecialFgbgResult_fits :
    (call .one 4 2 0 [0xF9] []).Ready ∧ (call .one 4 2 0 [0xF9] []).dstAvail 8 ∧
    (call .one 4 2 0 [0xF9] []).cfg.maskSpecial1 = 0x03 ∧ (call .one 4 2 0 [0xF9] []).cfg.maskSpecial2 = 0x05 :=
  ⟨firstRow_ready [0xF9], by decide, rfl, rfl⟩

theorem witness_SpecialFgbgResult_overflow :
    (secondRow [0xF9]).Ready ∧ ¬ (secondRow [0xF9]).dstAvail 8 :=
  ⟨secondRow_ready [0xF9], by decide⟩

/-- The last pixel of the destination. -/
theorem witness_SinglePixelResult_fits :
    (call .one 4 2 7 [0xFD] []).Ready ∧ (call .one 4 2 7 [0xFD] []).dstAvail 1 :=
  ⟨((call_inv (by decide) (by decide) (by decide)).running rfl).ready, by decide⟩

/-- No pixel is left. -/
theorem witness_SinglePixelResult_overflow :
    (call .one 4 2 8 [0xFD] []).Ready ∧ ¬ (call .one 4 2 8 [0xFD] []).dstAvail 1 :=
  ⟨((call_inv (by decide) (by decide) (by decide)).running rfl).ready, by decide⟩

/-- The first and the last byte of the range; and a table that maps nothing. -/
theorem witness_InvalidCodeFailsTheCall :
    (∃ s : State, s.status = .busy ∧ s.sp < s.srcLen ∧ s.cfg.enc = Encoding.adopted ∧ s.src.read s.sp = 0xA0 ∧
      isInvalidByte (s.src.read s.sp)) ∧
    (∃ s : State, s.status = .busy ∧ s.sp < s.srcLen ∧ s.cfg.enc = Encoding.adopted ∧ s.src.read s.sp = 0xBF ∧
      isInvalidByte (s.src.read s.sp)) ∧
    ∃ s : State, s.status = .busy ∧ s.sp < s.srcLen ∧ extractCode s.cfg.enc (s.src.read s.sp) = .invalid ∧
      s.src.read s.sp = 0x04 :=
  ⟨⟨call .one 4 2 0 [0xA0] [], rfl, by decide, rfl, by decide, by unfold isInvalidByte; decide⟩,
    ⟨call .one 4 2 0 [0xBF] [], rfl, by decide, rfl, by decide, by unfold isInvalidByte; decide⟩,
    ⟨{ call .one 4 2 0 [0x04] [] with
        cfg := { Config.adopted .one false with enc := { Encoding.adopted with rows := [] } } }, rfl, by decide, rfl, rfl⟩⟩

/-- Each source bound met exactly, with a full destination. -/
theorem witness_ZeroLengthMegaOrders :
    ∃ s s' s'' : State, (s.Ready ∧ s.dp ≤ s.dstSize ∧ s.srcAvail 3) ∧
      (s'.Ready ∧ s'.dp ≤ s'.dstSize ∧ s'.srcAvail (3 + s'.pxBytes)) ∧
      (s''.Ready ∧ s''.dp ≤ s''.dstSize ∧ s''.srcAvail (3 + 2 * s''.pxBytes)) :=
  ⟨_, _, _, ⟨secondRow_ready [0xF0, 0, 0], by decide, by decide⟩, ⟨secondRow_ready [0xF6, 0, 0, 1], by decide, by decide⟩,
    ⟨secondRow_ready [0xF8, 0, 0, 1, 2], by decide, by decide⟩⟩

/-- On the first line, and at the first pixel below it. -/
theorem witness_PixelGenerators :
    (∃ s : State, s.Ready ∧ s.dstAvail 1 ∧ s.fFirstLine = true ∧ s.cfg.blackPixel = List.replicate s.pxBytes 0x00#8) ∧
    ∃ s : State, s.Ready ∧ s.dstAvail 1 ∧ s.fFirstLine = false ∧
      s.dp = s.rowDelta :=
  ⟨⟨_, firstRow_ready [], by decide, rfl, rfl⟩, ⟨_, secondRow_ready [], by decide, rfl, rfl⟩⟩

/-- A group of eight; and a group of three with masks that differ from bit 3 on. -/
theorem witness_GroupWriterFollowsMask :
    (∃ s : State, s.Ready ∧ s.dstAvail 8) ∧ ∃ (s : State) (m : Byte), s.Ready ∧ s.dstAvail 3 ∧ m ≠ s.bitmask ∧
      ∀ k, k < 3 → m.getLsbD k = s.bitmask.getLsbD k :=
  ⟨⟨_, firstRow_ready [], by decide⟩, ⟨_, 0xF8, secondRow_ready [], by decide, by decide, by decide⟩⟩

/-- A background run and another order, both completing; a step that runs one; a START that begins a call. -/
theorem witness_InsertFlagAfterOrder :
    ∃ s t t' : State, s.Inv ∧ s.Ready ∧ s.status = .busy ∧ (exec (.bgRun 4) s = .next t ∧ t.status = .busy) ∧
      (exec (.fgRun 4) s = .next t' ∧ t'.status = .busy) ∧ s.sp < s.srcLen ∧
      decode s.cfg.enc (fetchHeader s) = .ok (.bgRun 4, []) ∧ step s = .next t ∧
      (startCall ⟨[], 0, 4, 4, 1, []⟩ State.reset).status = .busy :=
  ⟨_, _, _, secondRow_inv [0x04], secondRow_ready [0x04], rfl, ⟨rfl, rfl⟩, ⟨rfl, rfl⟩, by decide, by decide, rfl, rfl⟩

/-- An order that starts at the last byte of the first row, and one that starts at the row end. -/
theorem witness_FirstLineFlagIsFrozen :
    (∃ s t : State, s.Inv ∧ s.status = .busy ∧ s.dp + 1 = s.rowDelta ∧ step s = .next t ∧ t.status = .busy) ∧
    ∃ s t : State, s.Inv ∧ s.status = .busy ∧ s.fFirstLine = true ∧ s.dp = s.rowDelta ∧ step s = .next t ∧ t.status = .busy :=
  ⟨⟨call .one 4 2 3 [0x22] [], _, call_inv (by decide) (by decide) (by decide), rfl, rfl, rfl, rfl⟩,
    ⟨{ secondRow [0x22] with fFirstLine := true }, _,
      ⟨(secondRow_inv []).cfg, Memory.writeBytes_wf rfl _ _, (secondRow_inv []).dst, fun _ =>
        ⟨⟨(secondRow_inv []).cfg, (secondRow_inv []).dst, rfl, fun h => nomatch h⟩, by decide, by decide, by decide,
          by decide⟩⟩, rfl, rfl, rfl, rfl, rfl⟩⟩

/-- A START that begins a call; a set-color order and another one. -/
theorem witness_FgPelChangesOnlyAtSetColor :
    (startCall ⟨[], 0, 4, 4, 1, []⟩ State.reset).status = .busy ∧
    ∃ s t t' : State, s.Ready ∧ s.status = .busy ∧ (exec (.setFgRun 1) s = .next t ∧ t.status = .busy) ∧
      (exec .white s = .next t' ∧ t'.status = .busy) :=
  ⟨rfl, _, _, _, secondRow_ready [0xC1, 0x0F], rfl, ⟨rfl, rfl⟩, ⟨rfl, rfl⟩⟩

/-- A storing order with a destination byte before its pixels and one after them. -/
theorem witness_OrderFrame :
    ∃ s t : State, s.Ready ∧ s.status = .busy ∧ exec (.megaFgRun 2 0) s = .next t ∧ t.status = .busy ∧ 0 < s.dp ∧ t.dp < t.dstSize :=
  ⟨_, _, secondRow_ready [0xF1, 2, 0], rfl, rfl, rfl, by decide, by decide⟩

/-- A canonical destination with offsets on both sides of the bound. -/
theorem witness_FailureEntry :
    (secondRow []).dst.wf = true ∧ (7 < (secondRow []).dstSize ∧ (secondRow []).dstSize ≤ 8) ∧
    Cause.destinationOverflow ≠ .invalidConfiguration :=
  ⟨Memory.writeBytes_wf rfl _ _, by decide, by decide⟩

theorem witness_OrderCompletesExactlyWhenItFits_source :
    ∃ s : State, s.Ready ∧ s.srcAvail (headerBytes (.colorImage 4)) ∧ orderCode (.colorImage 4) ≠ .invalid ∧
      ¬ s.srcAvail (headerBytes (.colorImage 4) + operandBytes s.cfg.enc s.pxBytes (.colorImage 4)) :=
  ⟨_, secondRow_ready [0x84, 1, 2, 3], by decide, by decide, by decide⟩

theorem witness_OrderCompletesExactlyWhenItFits_overflow :
    ∃ s : State, s.Ready ∧ s.srcAvail (headerBytes (.colorImage 5)) ∧ orderCode (.colorImage 5) ≠ .invalid ∧
      s.srcAvail (headerBytes (.colorImage 5) + operandBytes s.cfg.enc s.pxBytes (.colorImage 5)) ∧
      ¬ s.dstAvail (orderPixels s.cfg.enc (.colorImage 5)) :=
  ⟨_, secondRow_ready [0x85, 1, 2, 3, 4, 5], by decide, by decide, by decide, by decide⟩

theorem witness_OrderCompletesExactlyWhenItFits_fits :
    ∃ s : State, s.Ready ∧ s.srcAvail (headerBytes (.colorImage 4)) ∧ orderCode (.colorImage 4) ≠ .invalid ∧
      s.srcAvail (headerBytes (.colorImage 4) + operandBytes s.cfg.enc s.pxBytes (.colorImage 4)) ∧
      s.dstAvail (orderPixels s.cfg.enc (.colorImage 4)) :=
  ⟨_, secondRow_ready [0x84, 1, 2, 3, 4], by decide, by decide, by decide, by decide⟩

theorem witness_CausesPerOrder :
    ∃ s t : State, s.Ready ∧ s.status = .busy ∧ exec (.bgRun 5) s = .next t ∧ t.status = .fail :=
  ⟨_, _, secondRow_ready [0x05], rfl, rfl, rfl⟩

/-- A failed machine without and with a coming call. -/
theorem witness_FailureIsFinal :
    ∃ s s' : State, (s.status = .fail ∧ s.hostCalls = []) ∧ s'.status = .fail ∧ s'.hostCalls = [⟨[], 0, 4, 4, 1, []⟩] :=
  ⟨raiseFail .invalidOrderCode State.reset, { raiseFail .invalidOrderCode State.reset with
    hostCalls := [⟨[], 0, 4, 4, 1, []⟩] }, ⟨rfl, rfl⟩, rfl, rfl⟩

/-- `ROW_DELTA = 0`, and `ROW_DELTA` one below `WIDTH`. -/
theorem witness_BadConfigurationFailsFirst :
    (∃ (s : State) (c : HostCall), s.status ≠ .busy ∧ s.hostCalls = [c] ∧ c.rowDelta = 0) ∧
    ∃ (s : State) (c : HostCall), s.status ≠ .busy ∧ s.hostCalls = [c] ∧ c.rowDelta ≠ 0 ∧ c.rowDelta < c.width :=
  ⟨⟨calling 0 0 1 [0xFE] [], _, by decide, rfl, rfl⟩, ⟨calling 3 4 1 [0xFE] [], _, by decide, rfl, by decide, by decide⟩⟩

/-- `ROW_DELTA = WIDTH`. -/
theorem witness_StartBeginsTheCall :
    ∃ (s : State) (c : HostCall), s.status ≠ .busy ∧ s.hostCalls = [c] ∧ c.rowDelta ≠ 0 ∧ c.width ≤ c.rowDelta :=
  ⟨calling 4 4 1 [0xFE] [0x99], _, by decide, rfl, by decide, by decide⟩

/-- Two states that differ in the registers of the call before. -/
theorem witness_NothingPersistsBetweenCalls :
    ∃ s s' : State, s ≠ s' ∧ s.cfg = s'.cfg ∧ s.src = s'.src ∧ s.dst = s'.dst ∧ s.hostCalls = s'.hostCalls ∧
      s.freeCount = s'.freeCount :=
  ⟨State.reset, { State.reset with fgPel := [0x0F], fInsertFgPel := true }, by decide, rfl, rfl, rfl, rfl, rfl⟩

theorem witness_SuccessExactlyAtEndOfSource :
    ∃ s t : State, s.Inv ∧ s.status = .busy ∧ s.sp = s.srcLen ∧ step s = .next t ∧ t.status = .ok :=
  ⟨_, _, secondRow_inv [], rfl, rfl, rfl, rfl⟩

/-- An order whose header ends the source. -/
theorem witness_StepRunsDecodedOrder :
    ∃ (s : State) (i : Instr) (rest : List Byte), s.status = .busy ∧ s.sp < s.srcLen ∧ decode s.cfg.enc (fetchHeader s) = .ok (i, rest) :=
  ⟨secondRow [0xF0, 0x03, 0x00], _, _, rfl, by decide, rfl⟩

/-- An order whose header ends the source. -/
theorem witness_StepRunsEncodedOrder :
    ∃ s : State, s.cfg.enc = Encoding.adopted ∧ s.status = .busy ∧ (Instr.megaBgRun 3 0).wellFormed = true ∧ s.srcAvail (headerBytes (.megaBgRun 3 0)) ∧
      StandsAt s.src s.sp (encode (.megaBgRun 3 0)) :=
  ⟨secondRow [0xF0, 0x03, 0x00], rfl, rfl, rfl, by decide, by unfold StandsAt; decide⟩

theorem witness_PlacedWordRunsFirst :
    decodeTableWord 24 0xFFFFF8 = some (.megaDitheredRun 255 255) ∧ decodeTableWord 8 0x01 = some (.bgRun 1) :=
  by decide

/-- A step of a running call, a step of the host, a step in which nothing happens. -/
theorem witness_StatusTransitions :
    ∃ s s' t t' : State, s.status = .busy ∧ step s = .next t ∧ s'.status ≠ .busy ∧ step s' = .next t' ∧
      step State.reset = .next State.reset :=
  ⟨secondRow [0x04], calling 4 4 1 [] [], _, _, rfl, rfl, by decide, rfl, rfl⟩

theorem witness_ResetMeetsInvariant :
    (Config.adopted .three true).wf :=
  Config.adopted_wf .three true

/-- Both kinds of state: a call runs, no call runs. -/
theorem witness_StepKeepsInvariant :
    (∃ s t : State, s.Inv ∧ s.status = .busy ∧ step s = .next t) ∧ ∃ s t : State, s.Inv ∧ s.status ≠ .busy ∧ step s = .next t :=
  ⟨⟨_, _, secondRow_inv [0x04], rfl, rfl⟩,
    ⟨calling 4 4 1 [0xFE] [], _, ⟨Config.adopted_wf .one false, rfl, rfl, fun h => nomatch h⟩, by decide, rfl⟩⟩

theorem witness_NoAccessOutOfBounds :
    (∃ s : State, s.Inv ∧ s.status = .busy ∧ s.sp < s.srcLen) ∧ ∃ s : State, s.Inv ∧ s.status = .busy ∧ s.sp = s.srcLen :=
  ⟨⟨_, secondRow_inv [0x04], rfl, by decide⟩, ⟨_, secondRow_inv [], rfl, rfl⟩⟩

/-- The first offset outside. -/
theorem witness_NothingOutsideTheBoundChanges :
    ∃ s t : State, s.Inv ∧ s.status = .busy ∧ step s = .next t ∧ s.dstSize = 8 :=
  ⟨_, _, secondRow_inv [0x04], rfl, rfl, rfl⟩

/-- An order that ends both buffers exactly. -/
theorem witness_CursorsOnlyAdvance :
    ∃ s t : State, s.Inv ∧ s.status = .busy ∧ s.sp < s.srcLen ∧ step s = .next t ∧ t.status = .busy ∧ t.sp = t.srcLen ∧ t.dp = t.dstSize :=
  ⟨_, _, secondRow_inv [0x04], rfl, by decide, rfl, rfl, by decide, by decide⟩

/-- An order that fails and one that completes. -/
theorem witness_CallAlwaysEnds :
    ∃ s s' t t' : State, (s.Inv ∧ s.status = .busy ∧ s.sp < s.srcLen ∧ step s = .next t ∧ t.status = .fail) ∧
      s'.Inv ∧ s'.status = .busy ∧ s'.sp < s'.srcLen ∧ step s' = .next t' ∧ t'.status = .busy :=
  ⟨_, _, _, _, ⟨secondRow_inv [0x05], rfl, by decide, rfl, rfl⟩, secondRow_inv [0x04], rfl, by decide, rfl, rfl⟩

/-- Two destinations that differ at the cursor. -/
theorem witness_ResultIndependentOfOldDestination :
    ∃ s s' t : State, s.Inv ∧ s.status = .busy ∧ s.pxBytes ≤ s.rowDelta ∧ SameBelowCursor s s' ∧ s ≠ s' ∧ step s = .next t ∧
      t.status = .busy :=
  ⟨secondRow [0x04], { secondRow [0x04] with dst := Memory.writeBytes [] 0 [0x11, 0x22, 0x33, 0x44, 0x99] }, _,
    secondRow_inv [0x04], rfl, by decide, ⟨rfl, Memory.writeBytes_wf rfl _ _, by decide⟩, by decide, rfl, rfl⟩

/-- The same at the end of the call. -/
theorem witness_ResultIndependentOfOldDestination_end :
    ∃ s s' t : State, s.Inv ∧ s.status = .busy ∧ s.pxBytes ≤ s.rowDelta ∧ SameBelowCursor s s' ∧ s ≠ s' ∧ step s = .next t ∧
      t.status = .ok :=
  ⟨secondRow [], { secondRow [] with dst := Memory.writeBytes [] 0 [0x11, 0x22, 0x33, 0x44, 0x99] }, _,
    secondRow_inv [], rfl, by decide, ⟨rfl, Memory.writeBytes_wf rfl _ _, by decide⟩, by decide, rfl, rfl⟩

/-- An order that sets `bitmask` and one that does not. -/
theorem witness_EphemeralRegistersAreNotRead :
    ∃ s t t' : State, s.Ready ∧ exec (.fgbgImage 1) s = .next t ∧ exec (.bgRun 4) s = .next t' :=
  ⟨_, _, _, firstRow_ready [0x41, 0xA5], rfl, rfl⟩

theorem witness_HostHasNoMoveDuringCall :
    ∃ s t : State, s.status = .busy ∧ step s = .next t :=
  ⟨secondRow [0x04], _, rfl, rfl⟩

/-- Two rows of four bytes, and eight rows of one. -/
theorem witness_LiteralOrdersIgnoreTheRowAbove :
    ∃ s t : State, s.Ready ∧ s.status = .busy ∧ isLiteral (orderCode (.colorRun 4)) = true ∧ 1 * 8 = s.dstSize ∧
      exec (.colorRun 4) s = .next t ∧ t.status = .busy :=
  ⟨_, _, secondRow_ready [0x64, 0x7E], rfl, rfl, rfl, rfl, rfl⟩

/-- Six pixels from the first line into the second row. -/
theorem witness_FirstLineRunsAreLiteral :
    ∃ (s : State) (f g : Form), f ∈ fgForms s.cfg.enc 6 0 0 0 ∧ g ∈ bgForms s.cfg.enc 6 0 0 0 ∧ s.Ready ∧ s.fFirstLine = true ∧
      s.dstAvail f.length ∧ s.dstAvail g.length :=
  ⟨_, _, _, List.mem_cons_self, List.mem_cons_self, firstRow_ready [0x26], rfl, by decide, by decide⟩

/-- S5: runs of two and two pixels that fill the second row. -/
theorem witness_BackgroundRunAdjacency :
    ∃ (s : State) (f g : Form), f ∈ bgForms s.cfg.enc 2 0 0 0 ∧ g ∈ bgForms s.cfg.enc 2 0 0 0 ∧ s.Ready ∧ s.fFirstLine = false ∧
      s.pxBytes ≤ s.rowDelta ∧ 0 < f.length ∧ s.dstAvail (f.length + g.length) :=
  ⟨_, _, _, List.mem_cons_self, List.mem_cons_self, secondRow_ready [0x02, 0x02], rfl, by decide, by decide, by decide⟩

/-- V12, V13: eight pixels below a row of four, so that offsets two rows into the run exist. -/
theorem witness_RunsLongerThanARow :
    ∃ (s : State) (f g : Form), f ∈ bgForms s.cfg.enc 8 0 0 0 ∧ g ∈ fgForms s.cfg.enc 9 0 0 0 ∧ s.Ready ∧ s.fFirstLine = false ∧
      s.pxBytes ≤ s.rowDelta ∧ s.dstAvail f.length ∧ s.dstAvail g.length ∧ s.pxBytes ∣ s.rowDelta ∧
      s.dp + 2 * s.rowDelta < s.dp + g.length * s.pxBytes :=
  ⟨call .one 4 4 4 [0x29] [], _, _, List.mem_cons_self, List.mem_cons_self,
    ((call_inv (by decide) (by decide) (by decide)).running rfl).ready, rfl, by decide, by decide, by decide, by decide,
    by decide⟩

/-- S4, its second instance: a grid of two rows of four, one order. -/
theorem witness_ColorImageRoundTrip :
    ∃ (s : State) (c : HostCall) (cs : List (Form × List Byte)), s.Inv ∧ s.cfg.enc = Encoding.adopted ∧ s.status ≠ .busy ∧ s.hostCalls = [c] ∧
      c.rowDelta ≠ 0 ∧ c.width ≤ c.rowDelta ∧ (∀ x ∈ cs, IsColorImageChunk s.cfg.enc s.pxBytes x) ∧ c.source = streamOf cs ∧
      c.srcLen = (streamOf cs).length ∧ (gridOf cs).length = c.rowDelta * c.height ∧ cs.length = 1 :=
  ⟨calling 4 4 2 [0x88, 0x10, 0x20, 0x30, 0x40, 0x50, 0x60, 0x70, 0x80] [], _,
    [(⟨.colorImage 8, .colorImage, 8, 1⟩, [0x10, 0x20, 0x30, 0x40, 0x50, 0x60, 0x70, 0x80])],
    ⟨Config.adopted_wf .one false, rfl, rfl, fun h => nomatch h⟩, rfl, by decide, rfl, by decide, by decide,
    fun x hx => by
      rw [List.mem_singleton] at hx
      subst hx
      exact ⟨⟨8, 0, 0, 0, List.mem_cons_self⟩, rfl, rfl⟩,
    rfl, rfl, rfl, rfl⟩

/-- One order, then the end of the call; one destination byte stays unwritten. -/
theorem witness_UnwrittenBytesKeepTheirValue :
    ∃ s u : State, s.Inv ∧ s.status = .busy ∧ s.hostCalls = [] ∧ Sys2Proof.core.run 1 s = .next u ∧ u.status = .busy ∧
      u.sp = u.srcLen ∧ u.dp < u.dstSize :=
  ⟨_, _, secondRow_inv [0x23], rfl, rfl, rfl, rfl, rfl, by decide⟩

end Sys2Proof.Tests
end

section
/-! PROOFS. A legal encoding table as a map from header bytes to rows (spec/00_scope.md R11), and what the decoder extracts
from the row of a header byte (spec/30_encoding.md R63, R75, R76). -/

namespace Sys2Proof

/-- Disjoint rows accept no header byte together: where their patterns differ, the byte would have to hold both bits at once. -/
theorem EncodingRow.not_accepts_both_of_disjoint {r q : EncodingRow} {b : Byte} (hd : r.disjoint q = true)
    (hr : r.accepts b = true) (hq : q.accepts b = true) : False := by
  have hpr : b &&& r.mask = r.pattern := eq_of_beq hr
  have hpq : b &&& q.mask = q.pattern := eq_of_beq hq
  have hagree : (r.pattern ^^^ q.pattern) &&& r.mask &&& q.mask = 0#8 := by
    rw [← hpr, ← hpq]
    ext i hi
    simp only [BitVec.getElem_and, BitVec.getElem_xor, BitVec.getElem_zero]
    cases b[i] <;> cases r.mask[i] <;> cases q.mask[i] <;> rfl
  exact bne_iff_ne.mp hd hagree

/-- Disjointness of two rows does not depend on their order in the table. -/
theorem EncodingRow.disjoint_comm (r q : EncodingRow) : r.disjoint q = q.disjoint r := by
  unfold EncodingRow.disjoint
  rw [BitVec.xor_comm, BitVec.and_assoc, BitVec.and_comm r.mask, ← BitVec.and_assoc]

/-- In a legal table at most one row accepts a header byte. -/
theorem Encoding.accepts_unique {e : Encoding} {b : Byte} (hwf : e.wf) {r q : EncodingRow} (hr : r ∈ e.rows)
    (hq : q ∈ e.rows) (har : r.accepts b = true) (haq : q.accepts b = true) : r = q := by
  obtain ⟨hdisjoint, -⟩ := hwf
  have hsymm : Std.Symm fun r q : EncodingRow => r.disjoint q = true := ⟨fun r q hd => (q.disjoint_comm r).trans hd⟩
  by_contra hne
  exact EncodingRow.not_accepts_both_of_disjoint (hdisjoint.forall hr hq hne) har haq

/-- In a legal table the row found for a header byte is the row that accepts it, wherever it stands in the list. -/
theorem Encoding.row_eq_some_iff {e : Encoding} {b : Byte} {r : EncodingRow} (hwf : e.wf) :
    e.row b = some r ↔ r ∈ e.rows ∧ r.accepts b = true := by
  refine ⟨Encoding.row_eq_some, fun ⟨hr, har⟩ => ?_⟩
  cases hrow : e.row b with
  | none => exact absurd har (ne_true_of_eq_false (Encoding.row_eq_none.mp hrow r hr))
  | some q =>
    obtain ⟨hq, haq⟩ := Encoding.row_eq_some hrow
    rw [Encoding.accepts_unique hwf hq hr haq har]

/-- The code of a header byte is that of its row. -/
theorem extractCode_of_row {e : Encoding} {b : Byte} {r : EncodingRow} (h : e.row b = some r) :
    extractCode e b = r.code := by simp [extractCode, h]

/-- A header byte without a row is INVALID. -/
theorem extractCode_of_no_row {e : Encoding} {b : Byte} (h : e.row b = none) : extractCode e b = .invalid := by
  simp [extractCode, h]

/-- The length field of a header byte stands under the field of its row. -/
theorem lengthField_of_row {e : Encoding} {b : Byte} {r : EncodingRow} (h : e.row b = some r) :
    lengthField e b = b &&& r.field := by simp [lengthField, h]

/-- In a legal table no row stands for INVALID, so only a header byte without a row is INVALID. -/
theorem extractCode_eq_invalid_iff {e : Encoding} {b : Byte} (hwf : e.wf) :
    extractCode e b = .invalid ↔ e.row b = none := by
  refine ⟨fun h => ?_, extractCode_of_no_row⟩
  cases hrow : e.row b with
  | none => rfl
  | some r =>
    obtain ⟨-, hrows⟩ := hwf
    obtain ⟨hcode, -⟩ := hrows r (Encoding.row_eq_some hrow).1
    exact absurd ((extractCode_of_row hrow).symm.trans h) hcode

/-- Settles O49: the row that accepts a header byte is the one the decoder finds, and none is found exactly for INVALID. -/
theorem encodingTableDecidesTheCode : Obligations.EncodingTableDecidesTheCode := by
  intro e b hwf
  refine ⟨fun r hr har => ?_, ?_⟩
  · have hrow : e.row b = some r := (Encoding.row_eq_some_iff hwf).mpr ⟨hr, har⟩
    exact ⟨extractCode_of_row hrow, lengthField_of_row hrow⟩
  · rw [extractCode_eq_invalid_iff hwf, Encoding.row_eq_none]

end Sys2Proof
end

section
/-! PROOFS. The bodies of the orders as data: the 28 valid headers run one of eight bodies (spec/40_main_loop.md R92), and each
body has one rule that says when it completes and what state and destination bytes it leaves (R94). -/

namespace Sys2Proof.Machine

open Sys2Proof.Claims

/-- The body of an order with what the header gives it. -/
inductive OrderBody where
  | background (n : Nat)
  | foreground (setColor : Bool) (n : Nat)
  | fgbg (setColor : Bool) (n : Nat)
  | color (n : Nat)
  | dithered (n : Nat)
  | image (n : Nat)
  | special (mask : Byte)
  | single (v : Pixel)

namespace OrderBody

/-- The model's meaning of the body. -/
def run : OrderBody → State → Except Stop State
  | background n => backgroundRun n
  | foreground setColor n => foregroundRun setColor n
  | fgbg setColor n => fgbgImage setColor n
  | color n => colorRun n
  | dithered n => ditheredRun n
  | image n => colorImage n
  | special mask => specialFgbg mask
  | single v => singlePixel v

/-- What the header puts into `runLength`. -/
def runLength : OrderBody → Nat
  | background n => n
  | foreground _ n => n
  | fgbg _ n => n
  | color n => n
  | dithered n => n
  | image n => n
  | special _ => 8
  | single _ => 1

/-- The pixels the body writes. -/
def pixels : OrderBody → Nat
  | dithered n => 2 * n
  | b => b.runLength

/-- The body begins with the set-color step. -/
def setsColor : OrderBody → Bool
  | foreground setColor _ => setColor
  | fgbg setColor _ => setColor
  | _ => false

/-- The source bytes after the set-color literal, for pixels of `P` bytes. -/
def dataBytes (P : Nat) : OrderBody → Nat
  | fgbg _ n => maskBytes n
  | color _ => P
  | dithered _ => 2 * P
  | image n => n * P
  | _ => 0

/-- The source bytes of the set-color literal, for pixels of `P` bytes. -/
def colorBytes (P : Nat) (b : OrderBody) : Nat := if b.setsColor = true then P else 0

/-- The operand bytes of the body (spec/30_encoding.md R74), for pixels of `P` bytes. -/
def operands (P : Nat) (b : OrderBody) : Nat := b.colorBytes P + b.dataBytes P

/-- The body has a source phase: it makes a range check, even one for no byte (spec/40_main_loop.md R94). -/
def checksSource : OrderBody → Bool
  | background _ => false
  | foreground setColor _ => setColor
  | special _ => false
  | single _ => false
  | _ => true

/-- The source phase of the body succeeds. -/
def SourceOk (b : OrderBody) (s : State) : Prop := b.checksSource = true → s.srcAvail (b.operands s.pxBytes)

/-- The foreground colour the body draws with and leaves: the literal at the cursor after a set-color step. -/
def fg (b : OrderBody) (s : State) : Pixel := if b.setsColor = true then s.src.readBytes s.sp s.pxBytes else s.fgPel

/-- The pixel temporaries and `bitmask` after the body, which began in `s`; nothing else of `t` changes. -/
def temporaries (s t : State) : OrderBody → State
  | color _ => { t with pix := s.src.readBytes s.sp s.pxBytes }
  | dithered _ =>
    { t with pixA := s.src.readBytes s.sp s.pxBytes, pixB := s.src.readBytes (s.sp + s.pxBytes) s.pxBytes }
  | fgbg _ _ => forgetBitmask t
  | special _ => forgetBitmask t
  | _ => t

/-- The state after the body, which began in `s` and left the destination `d`. -/
def after (b : OrderBody) (s : State) (d : Memory) : State :=
  b.temporaries s { s with
    sp := s.sp + b.colorBytes s.pxBytes + b.dataBytes s.pxBytes
    dp := s.dp + b.pixels * s.pxBytes
    fgPel := b.fg s
    dst := d }

/-- Byte `j` of pixel `k` the body writes when it begins in `s` and leaves the destination `d`. -/
def byte (b : OrderBody) (s : State) (d : Memory) (k j : Nat) : Byte :=
  match b with
  | background _ => if s.fInsertFgPel = true ∧ k = 0 then fgByte s d s.fgPel k j else bgByte s d k j
  | foreground _ _ => fgByte s d (b.fg s) k j
  | fgbg _ _ =>
    if (s.src.read (s.sp + b.colorBytes s.pxBytes + k / 8)).getLsbD (k % 8) = true then fgByte s d (b.fg s) k j
    else bgByte s d k j
  | color _ => s.src.read (s.sp + j)
  | dithered _ => s.src.read (s.sp + k % 2 * s.pxBytes + j)
  | image _ => s.src.read (s.sp + k * s.pxBytes + j)
  | special mask => if mask.getLsbD k = true then fgByte s d s.fgPel k j else bgByte s d k j
  | single v => v.getD j 0

/-- The constant the body writes is a pixel of the build. -/
def Legal (c : Config) : OrderBody → Prop
  | single v => v.length = c.pxBytes
  | _ => True

section
variable (b : OrderBody) (s t : State) (d : Memory)

@[simp] theorem after_cfg : (b.after s d).cfg = s.cfg := by cases b <;> rfl
@[simp] theorem after_status : (b.after s d).status = s.status := by cases b <;> rfl
@[simp] theorem after_cause : (b.after s d).cause = s.cause := by cases b <;> rfl
@[simp] theorem after_srcLen : (b.after s d).srcLen = s.srcLen := by cases b <;> rfl
@[simp] theorem after_rowDelta : (b.after s d).rowDelta = s.rowDelta := by cases b <;> rfl
@[simp] theorem after_width : (b.after s d).width = s.width := by cases b <;> rfl
@[simp] theorem after_height : (b.after s d).height = s.height := by cases b <;> rfl
@[simp] theorem after_sp : (b.after s d).sp = s.sp + b.operands s.pxBytes := by
  rw [operands, ← Nat.add_assoc]; cases b <;> rfl
@[simp] theorem after_dp : (b.after s d).dp = s.dp + b.pixels * s.pxBytes := by cases b <;> rfl
@[simp] theorem after_fgPel : (b.after s d).fgPel = b.fg s := by cases b <;> rfl
@[simp] theorem after_fFirstLine : (b.after s d).fFirstLine = s.fFirstLine := by cases b <;> rfl
@[simp] theorem after_fInsertFgPel : (b.after s d).fInsertFgPel = s.fInsertFgPel := by cases b <;> rfl
@[simp] theorem after_src : (b.after s d).src = s.src := by cases b <;> rfl
@[simp] theorem after_dst : (b.after s d).dst = d := by cases b <;> rfl
@[simp] theorem after_hostCalls : (b.after s d).hostCalls = s.hostCalls := by cases b <;> rfl
@[simp] theorem after_pxBytes : (b.after s d).pxBytes = s.pxBytes := by simp [State.pxBytes]
@[simp] theorem after_dstSize : (b.after s d).dstSize = s.dstSize := by simp [State.dstSize]

end

end OrderBody

/-! ### Pixels on the way -/

/-- Room for a run is room for each of its pixels. -/
theorem Midway.dstAvail_one {s t u : State} {k n : Nat} (h : Midway s t u k) (hk : k < n) (hcap : s.dstAvail n) :
    u.dstAvail 1 := by
  have hle : (k + 1) * s.pxBytes ≤ n * s.pxBytes := Nat.mul_le_mul_right _ hk
  rw [h.state]
  simp only [State.dstAvail, State.pxBytes, State.dstSize, Nat.succ_mul] at hcap hle ⊢
  omega

/-- The row above, read on the way, is the row above of the finished run (spec/20_memory.md R47, R51). -/
theorem Midway.getD_above {s t u : State} {k j : Nat} (h : Midway s t u k) (hf : s.fFirstLine = false)
    (hj : j < s.pxBytes) : (u.dst.readBytes (u.dp - u.rowDelta) u.pxBytes).getD j 0 = aboveByte s t.dst k j := by
  have hdp : u.dp = s.dp + k * s.pxBytes := by rw [h.state]
  have hrd : u.rowDelta = s.rowDelta := by rw [h.state]
  have hpx : u.pxBytes = s.pxBytes := by rw [h.state]; rfl
  have hup : u.rowDelta ≤ u.dp := h.ready.above (by rw [h.state]; exact hf)
  rw [hpx, Memory.getD_readBytes _ _ hj, aboveByte]
  rw [hdp, hrd] at hup ⊢
  rw [show s.dp + k * s.pxBytes - s.rowDelta + j = s.dp + k * s.pxBytes + j - s.rowDelta by omega]
  split
  · exact h.below _ (by omega)
  · exact h.above _ (by omega)

/-- `BgPixel()` on the way. -/
theorem Midway.getD_bgPixel {s t u : State} {k j : Nat} {v : Pixel} (h : Midway s t u k) (hc : u.dstAvail 1)
    (hv : bgPixel u = .ok v) (hj : j < s.pxBytes) : v.getD j 0 = bgByte s t.dst k j := by
  have hff : u.fFirstLine = s.fFirstLine := by rw [h.state]
  have hcfg : u.cfg = s.cfg := by rw [h.state]
  cases hf : s.fFirstLine with
  | true =>
    rw [bgPixel_firstLine (hff.trans hf)] at hv
    cases hv
    simp [bgByte, hf, hcfg]
  | false =>
    rw [bgPixel_below h.ready (hff.trans hf) hc] at hv
    cases hv
    simp only [bgByte, hf, Bool.false_eq_true, if_false, h.getD_above hf hj]

/-- `FgPixel()` on the way. -/
theorem Midway.getD_fgPixel {s t u : State} {k j : Nat} {v : Pixel} (h : Midway s t u k) (hc : u.dstAvail 1)
    (hv : fgPixel u = .ok v) (hj : j < s.pxBytes) : v.getD j 0 = fgByte s t.dst s.fgPel k j := by
  have hff : u.fFirstLine = s.fFirstLine := by rw [h.state]
  have hfg : u.fgPel = s.fgPel := by rw [h.state]
  have hpx : u.pxBytes = s.pxBytes := by rw [h.state]; rfl
  cases hf : s.fFirstLine with
  | true =>
    rw [fgPixel_firstLine (hff.trans hf)] at hv
    cases hv
    simp [fgByte, hf, hfg]
  | false =>
    rw [fgPixel_below h.ready (hff.trans hf) hc] at hv
    cases hv
    rw [getD_xorPixel (by simpa [hpx] using hj) (by rw [h.ready.fgPel, hpx]; exact hj), h.getD_above hf hj, hfg]
    simp [fgByte, hf]

/-- A pixel chosen between the two generators, on the way. -/
theorem Midway.getD_chosen {s t u : State} {k j : Nat} {v : Pixel} {c : Prop} [Decidable c] (h : Midway s t u k)
    (hc : u.dstAvail 1) (hv : (if c then fgPixel u else bgPixel u) = .ok v) (hj : j < s.pxBytes) :
    v.getD j 0 = if c then fgByte s t.dst s.fgPel k j else bgByte s t.dst k j := by
  split at hv <;> rename_i hchoice
  · rw [if_pos hchoice, h.getD_fgPixel hc hv hj]
  · rw [if_neg hchoice, h.getD_bgPixel hc hv hj]

/-- The write loop leaves the cursor behind the run, and the bytes of the run are what its generator gives on the way. -/
theorem writeRun_bytes {gen : Nat → State → Except Stop Pixel} {px : Memory → Nat → Nat → Byte} {s : State} {n : Nat}
    (h : s.Ready) (hcap : s.dstAvail n)
    (hgen : ∀ k u, SameButDst s u → u.Ready → u.dstAvail 1 → ∃ v, gen k u = .ok v ∧ v.length = u.pxBytes)
    (hpx : ∀ t u k v, Midway s t u k → SameButDst s u → u.dstAvail 1 → gen k u = .ok v →
      ∀ j, j < s.pxBytes → v.getD j 0 = px t.dst k j) :
    ∃ d, writeRun gen 0 n s = .ok { s with dp := s.dp + n * s.pxBytes, dst := d } ∧ RunBytes s d n (px d) := by
  obtain ⟨t, hrun, ⟨hstate, hready, hframe⟩, hbytes⟩ := writeRun_spec 0 n h hcap hgen
  refine ⟨t.dst, by rw [hrun, ← hstate], hready.dst, hframe, fun k hk j hj => ?_⟩
  obtain ⟨u, v, hmid, hsame, hv, -, hread⟩ := hbytes k hk
  rw [Nat.zero_add] at hv
  exact (hread j hj).trans (hpx t u k v hmid hsame (hmid.dstAvail_one hk hcap) hv j hj)

/-- The write loop does not look at generators before its first index. -/
theorem writeRun_congr {gen gen' : Nat → State → Except Stop Pixel} (n : Nat) {i : Nat} (s : State)
    (h : ∀ k, i ≤ k → gen k = gen' k) : writeRun gen i n s = writeRun gen' i n s := by
  induction n generalizing i s with
  | zero => rfl
  | succ n ih =>
    simp only [writeRun, h i (Nat.le_refl i)]
    congr; funext v; congr; funext t
    exact ih t fun k hk => h k (by omega)

/-- Pixel `i` of a background run, whose first pixel is the inserted one when `insert` is set (spec/41_prediction_runs.md
R103). -/
def backgroundPixel (insert : Bool) (i : Nat) (s : State) : Except Stop Pixel :=
  if insert = true ∧ i = 0 then fgPixel s else bgPixel s

theorem backgroundPixel_total {s : State} (insert : Bool) (i : Nat) (h : s.Ready) (hc : s.dstAvail 1) :
    ∃ v, backgroundPixel insert i s = .ok v ∧ v.length = s.pxBytes := by
  unfold backgroundPixel
  split
  · exact fgPixel_total h hc
  · exact bgPixel_total h hc

/-- A background run is one write loop, also when it inserts a pixel. -/
theorem backgroundRun_eq (n : Nat) (s : State) :
    backgroundRun n s =
      requireDst n s >>= fun _ => writeRun (backgroundPixel s.fInsertFgPel) 0 n s := by
  unfold backgroundRun
  split
  · next h =>
    obtain ⟨hins, hn⟩ := h
    obtain ⟨m, rfl⟩ : ∃ m, n = m + 1 := ⟨n - 1, by omega⟩
    have hrest : ∀ t, writeRun (fun _ => bgPixel) 1 m t = writeRun (backgroundPixel true) 1 m t := fun t =>
      writeRun_congr m t fun k hk => by
        funext u
        exact (if_neg (by omega)).symm
    simp [writeRun, hins, hrest, backgroundPixel]
  · next h =>
    congr; funext _
    cases n with
    | zero => rfl
    | succ n =>
      exact writeRun_congr _ s fun k _ => by
        funext u
        exact (if_neg fun hk => h ⟨hk.1, Nat.succ_pos n⟩).symm

end Sys2Proof.Machine
end

section
/-! PROOFS. The rule of each order body (spec/40_main_loop.md R94): without its operands in the source it is SourceExhaustion,
then without room for its pixels DestinationOverflow, else it completes with the state `OrderBody.after` and the bytes
`OrderBody.byte`. -/

namespace Sys2Proof.Machine

open Sys2Proof.Claims

/-- The set-color step of an order that has one (spec/41_prediction_runs.md R104). -/
def colorStep (setColor : Bool) (s : State) : Except Stop State := if setColor = true then loadFgPel s else pure s

theorem foregroundRun_eq (c : Bool) (n : Nat) (s : State) : foregroundRun c n s =
    colorStep c s >>= fun s => requireDst n s >>= fun _ => writeRun (fun _ => fgPixel) 0 n s := by
  cases c <;> rfl

theorem fgbgImage_eq (c : Bool) (n : Nat) (s : State) : fgbgImage c n s =
    colorStep c s >>= fun s => requireSrc (maskBytes n) s >>= fun _ => requireDst n s >>= fun _ =>
      writeGroups (maskBytes n) n s >>= fun s => pure (forgetBitmask s) := by
  cases c <;> rfl

namespace OrderBody

/-- The state after the body's set-color step, if it has one. -/
def colored (b : OrderBody) (s : State) : State :=
  { s with sp := s.sp + b.colorBytes s.pxBytes, fgPel := b.fg s }

/-- A body without a source phase has no operands. -/
theorem operands_eq_zero (b : OrderBody) {P : Nat} (h : b.checksSource = false) : b.operands P = 0 := by
  cases b with
  | foreground c n =>
    obtain rfl : c = false := h
    rfl
  | background | special | single => rfl
  | fgbg | color | dithered | image => cases h

/-- With its literal in the source, the set-color step leaves the body's colour and the cursor behind the literal. -/
theorem colorStep_ok (b : OrderBody) {s : State} (h : s.srcAvail (b.colorBytes s.pxBytes)) :
    colorStep b.setsColor s = .ok (b.colored s) := by
  cases hb : b.setsColor with
  | false => simp [colorStep, colored, colorBytes, fg, hb]
  | true =>
    simp only [colorBytes, hb, if_true] at h
    simp [colorStep, colored, colorBytes, fg, hb, loadFgPel_ok h]

/-- A source without the operands of the body lacks the literal of its set-color step, or what follows the literal. -/
theorem colorStep_cases (b : OrderBody) {s : State} (h : ¬ s.srcAvail (b.operands s.pxBytes)) :
    colorStep b.setsColor s = .error (.fail .sourceExhaustion) ∨
      colorStep b.setsColor s = .ok (b.colored s) ∧ ¬ (b.colored s).srcAvail (b.dataBytes s.pxBytes) := by
  have hrest : ¬ (b.colored s).srcAvail (b.dataBytes s.pxBytes) := fun hd => h (by
    simpa only [State.srcAvail, operands, colored, Nat.add_assoc] using hd)
  cases hb : b.setsColor with
  | false => exact .inr ⟨by simp [colorStep, colored, colorBytes, fg, hb], hrest⟩
  | true =>
    by_cases hc : s.srcAvail s.pxBytes
    · have hstep := b.colorStep_ok (s := s) (by simpa [colorBytes, hb] using hc)
      exact .inr ⟨hb ▸ hstep, hrest⟩
    · exact .inl (by simp [colorStep, loadFgPel_fail hc])

/-- The body's colour is a pixel. -/
theorem length_fg (b : OrderBody) {s : State} (h : s.Ready) : (b.fg s).length = s.pxBytes := by
  unfold fg
  split
  · exact Memory.length_readBytes _ _ _
  · exact h.fgPel

theorem colored_ready (b : OrderBody) {s : State} (h : s.Ready) : (b.colored s).Ready :=
  ⟨h.cfg, h.dst, b.length_fg h, h.above⟩

/-- The state a body leaves is ready for the next order. -/
theorem after_ready (b : OrderBody) {s : State} {d : Memory} (h : s.Ready) (hd : d.wf = true) : (b.after s d).Ready where
  cfg := by simpa using h.cfg
  dst := by simpa using hd
  fgPel := by simpa using b.length_fg h
  above := fun hf => by
    simp only [after_fFirstLine] at hf
    simp only [after_rowDelta, after_dp]
    exact (h.above hf).trans (Nat.le_add_right _ _)

/-! ### The source phase -/

/-- The state of the body when its literals are read and its pixels are about to be written. -/
def prepared (s : State) : OrderBody → State
  | foreground setColor n => (foreground setColor n).colored s
  | fgbg setColor n => (fgbg setColor n).colored s
  | color _ => { s with sp := s.sp + s.pxBytes, pix := s.src.readBytes s.sp s.pxBytes }
  | dithered _ =>
    { s with
      sp := s.sp + 2 * s.pxBytes
      pixA := s.src.readBytes s.sp s.pxBytes
      pixB := s.src.readBytes (s.sp + s.pxBytes) s.pxBytes }
  | _ => s

/-- The write phase of the body. -/
def write (s : State) : OrderBody → Except Stop State
  | background n => writeRun (backgroundPixel s.fInsertFgPel) 0 n s
  | foreground _ n => writeRun (fun _ => fgPixel) 0 n s
  | fgbg _ n => writeGroups (maskBytes n) n s >>= fun t => pure (forgetBitmask t)
  | color n => writeRun (fun _ t => pure t.pix) 0 n s
  | dithered n => writeRun ditheredPixel 0 (2 * n) s
  | image n => copyPixels n s
  | special mask => writeFgBgGroup 8 { s with bitmask := mask } >>= fun t => pure (forgetBitmask t)
  | single v => writePixel v s

/-- The two literals of a dithered run, both in the source. -/
theorem ditheredRun_of_srcAvail {s : State} (n : Nat) (hs : s.srcAvail (2 * s.pxBytes)) :
    (dithered n).run s =
      requireDst (2 * n) ((dithered n).prepared s) >>= fun _ => (dithered n).write ((dithered n).prepared s) := by
  have hs' : s.sp + 2 * s.pxBytes ≤ s.srcLen := hs
  have hpixA : readSrcPixel s = _ := readSrcPixel_ok (by simp only [State.srcAvail]; omega)
  have hpixB : readSrcPixel { s with sp := s.sp + s.pxBytes, pixA := s.src.readBytes s.sp s.pxBytes } = _ :=
    readSrcPixel_ok (by show s.sp + s.pxBytes + s.pxBytes ≤ s.srcLen; omega)
  have hsp : s.sp + s.pxBytes + s.pxBytes = s.sp + 2 * s.pxBytes := by omega
  simp only [run, ditheredRun, requireSrc_ok hs, hpixA, hpixB, bind_ok, prepared, ← hsp]
  rfl

/-- After a successful source phase the body comes to its capacity check. -/
theorem run_of_sourceOk (b : OrderBody) {s : State} (hs : b.SourceOk s) :
    b.run s = requireDst b.pixels (b.prepared s) >>= fun _ => b.write (b.prepared s) := by
  cases b with
  | background n => exact backgroundRun_eq n s
  | foreground c n =>
    cases c with
    | false => rfl
    | true =>
      have hcolor : colorStep true s = _ := (foreground true n).colorStep_ok (hs rfl)
      rw [run, foregroundRun_eq, hcolor]; rfl
  | fgbg c n =>
    have hs' : s.sp + ((fgbg c n).colorBytes s.pxBytes + maskBytes n) ≤ s.srcLen := hs rfl
    have hcolor : colorStep c s = _ := (fgbg c n).colorStep_ok (by simp only [State.srcAvail]; omega)
    have hmask : ((fgbg c n).colored s).srcAvail (maskBytes n) := by
      simpa only [State.srcAvail, colored, Nat.add_assoc] using hs'
    rw [run, fgbgImage_eq, hcolor, bind_ok, requireSrc_ok hmask]; rfl
  | color n =>
    have hs' : s.srcAvail s.pxBytes := by simpa [operands, colorBytes, setsColor, dataBytes] using hs rfl
    rw [run, colorRun, requireSrc_ok hs', bind_ok, readSrcPixel_ok hs']; rfl
  | dithered n =>
    exact ditheredRun_of_srcAvail n (by simpa [operands, colorBytes, setsColor, dataBytes] using hs rfl)
  | image n =>
    have hs' : s.srcAvail (n * s.pxBytes) := by simpa [operands, colorBytes, setsColor, dataBytes] using hs rfl
    rw [run, colorImage, requireSrc_ok hs']; rfl
  | special mask => rfl
  | single v => rfl

/-- A body whose source phase does not succeed fails the call, whatever room there is. -/
theorem run_sourceExhaustion (b : OrderBody) {s : State} (h : ¬ b.SourceOk s) :
    b.run s = .error (.fail .sourceExhaustion) := by
  obtain ⟨hchecks, hs⟩ := Classical.not_imp.mp h
  cases b with
  | background n => cases hchecks
  | foreground c n =>
    obtain rfl : c = true := hchecks
    rw [run, foregroundRun_eq, colorStep, if_pos rfl, loadFgPel_fail hs]; rfl
  | fgbg c n =>
    rw [run, fgbgImage_eq]
    rcases (fgbg c n).colorStep_cases hs with hfail | ⟨hok, hno⟩
    · simp only [setsColor] at hfail
      rw [hfail]; rfl
    · simp only [setsColor, dataBytes] at hok hno
      rw [hok, bind_ok, requireSrc_fail hno]; rfl
  | color n =>
    have hno : ¬ s.srcAvail s.pxBytes := by simpa [operands, colorBytes, setsColor, dataBytes] using hs
    rw [run, colorRun, requireSrc_fail hno]; rfl
  | dithered n =>
    have hno : ¬ s.srcAvail (2 * s.pxBytes) := by simpa [operands, colorBytes, setsColor, dataBytes] using hs
    rw [run, ditheredRun, requireSrc_fail hno]; rfl
  | image n =>
    have hno : ¬ s.srcAvail (n * s.pxBytes) := by simpa [operands, colorBytes, setsColor, dataBytes] using hs
    rw [run, colorImage, requireSrc_fail hno]; rfl
  | special mask => cases hchecks
  | single v => cases hchecks

/-- Reading the literals does not change the room. -/
theorem dstAvail_prepared (b : OrderBody) {s : State} {n : Nat} : (b.prepared s).dstAvail n ↔ s.dstAvail n := by
  cases b <;> exact Iff.rfl

/-- A body whose source phase succeeds but whose pixels have no room fails the call. -/
theorem run_destinationOverflow (b : OrderBody) {s : State} (hs : b.SourceOk s)
    (hd : ¬ s.dstAvail b.pixels) : b.run s = .error (.fail .destinationOverflow) := by
  rw [b.run_of_sourceOk hs, requireDst_fail (mt b.dstAvail_prepared.mp hd)]; rfl

/-! ### The write phase -/

/-- The body is written from `s` on: its write phase ends in `after` with a destination that differs from that of `s` in the
pixels of the body alone, which hold `byte`. -/
def Writes (b : OrderBody) (s : State) : Prop :=
  ∃ d, b.write (b.prepared s) = .ok (b.after s d) ∧ RunBytes s d b.pixels (b.byte s d)

theorem background_writes {s : State} (n : Nat) (h : s.Ready) (hd : s.dstAvail n) : (background n).Writes s :=
  writeRun_bytes (px := fun d => (background n).byte s d) h hd
    (fun k _ _ hu hc => backgroundPixel_total s.fInsertFgPel k hu hc)
    (fun _ _ _ _ hmid _ hc hv _ hj => hmid.getD_chosen hc hv hj)

theorem foreground_writes {s : State} (c : Bool) (n : Nat) (h : s.Ready) (hd : s.dstAvail n) :
    (foreground c n).Writes s :=
  writeRun_bytes (px := fun d => (foreground c n).byte s d) ((foreground c n).colored_ready h) hd
    (fun _ _ _ hu hc => fgPixel_total hu hc) (fun _ _ _ _ hmid _ hc hv _ hj => hmid.getD_fgPixel hc hv hj)

theorem fgbg_writes {s : State} (c : Bool) (n : Nat) (h : s.Ready)
    (hs : s.srcAvail ((fgbg c n).operands s.pxBytes)) (hd : s.dstAvail n) : (fgbg c n).Writes s := by
  have hmask : ((fgbg c n).colored s).srcAvail (maskBytes n) := by
    simpa only [State.srcAvail, colored, operands, dataBytes, Nat.add_assoc] using hs
  obtain ⟨t, hrun, hstate, hready, -, hframe, hpix⟩ :=
    writeGroups_spec (maskBytes n) n rfl ((fgbg c n).colored_ready h) hmask hd
  refine ⟨t.dst, ?_, hready.dst, hframe, fun k hk j hj => ?_⟩
  · simp only [write, prepared, hrun, bind_ok, pure_eq_ok]
    rw [hstate]
    rfl
  · obtain ⟨u, v, hmid, hv, -, hread⟩ := hpix k hk
    exact (hread j hj).trans (hmid.getD_chosen (hmid.dstAvail_one hk hd) hv hj)

theorem color_writes {s : State} (n : Nat) (h : s.Ready) (hd : s.dstAvail n) : (color n).Writes s :=
  writeRun_bytes (s := (color n).prepared s) (px := fun d => (color n).byte s d) ⟨h.cfg, h.dst, h.fgPel, h.above⟩ hd
    (fun _ u hu _ _ => ⟨u.pix, rfl, by rw [hu]; exact Memory.length_readBytes _ _ _⟩)
    (fun _ u _ v _ hu _ hv j hj => by
      cases hv
      rw [hu]
      exact Memory.getD_readBytes _ _ hj)

theorem dithered_writes {s : State} (n : Nat) (h : s.Ready) (hd : s.dstAvail (2 * n)) : (dithered n).Writes s :=
  writeRun_bytes (s := (dithered n).prepared s) (px := fun d => (dithered n).byte s d) ⟨h.cfg, h.dst, h.fgPel, h.above⟩ hd
    (fun k u hu _ _ => ⟨_, rfl, by rw [hu]; split <;> exact Memory.length_readBytes _ _ _⟩)
    (fun _ u k v _ hu _ hv j hj => by
      cases hv
      rw [hu]
      have hj' : j < s.pxBytes := hj
      rcases Nat.mod_two_eq_zero_or_one k with hk | hk
      · simpa [byte, prepared, hk] using Memory.getD_readBytes s.src s.sp hj'
      · simpa [byte, prepared, hk] using Memory.getD_readBytes s.src (s.sp + s.pxBytes) hj')

theorem image_writes {s : State} (n : Nat) (h : s.Ready) (hs : s.srcAvail (n * s.pxBytes)) (hd : s.dstAvail n) :
    (image n).Writes s := by
  obtain ⟨t, hrun, hstate, hready, hframe, hcopy⟩ := copyPixels_spec n h hs hd
  refine ⟨t.dst, hrun.trans (by rw [hstate]; rfl), hready.dst, hframe, fun k hk j hj => ?_⟩
  have hle : (k + 1) * s.pxBytes ≤ n * s.pxBytes := Nat.mul_le_mul_right _ hk
  rw [Nat.succ_mul] at hle
  simpa only [byte, Nat.add_assoc] using hcopy (k * s.pxBytes + j) (by omega)

theorem special_writes {s : State} (mask : Byte) (h : s.Ready) (hd : s.dstAvail 8) : (special mask).Writes s := by
  obtain ⟨d, hrun, hbytes⟩ := writeRun_bytes (gen := maskedPixel) (px := fun d => (special mask).byte s d)
    (s := { s with bitmask := mask }) ⟨h.cfg, h.dst, h.fgPel, h.above⟩ hd
    (fun k _ _ hu hc => maskedPixel_total k hu hc)
    (fun _ u k v hmid hu hc hv j hj => by
      have hmask : u.bitmask = mask := by rw [hu]
      rw [maskedPixel, hmask] at hv
      exact hmid.getD_chosen hc hv hj)
  refine ⟨d, ?_, hbytes⟩
  simp only [write, prepared, writeFgBgGroup, hrun, bind_ok, pure_eq_ok]
  rfl

theorem single_writes {s : State} {v : Pixel} (h : s.Ready) (hv : v.length = s.pxBytes) (hd : s.dstAvail 1) :
    (single v).Writes s := by
  refine ⟨s.dst.writeBytes s.dp v, ?_, Memory.writeBytes_wf h.dst _ _, fun a ha => ?_, fun k hk j hj => ?_⟩
  · simp [write, prepared, writePixel_ok hv hd, afterPixel, after, temporaries, fg, setsColor, colorBytes, dataBytes,
      pixels, runLength]
  · exact Memory.read_writeBytes_of_outside h.dst (by simpa [hv, pixels, runLength] using ha)
  · obtain rfl : k = 0 := by simp only [pixels, runLength] at hk; omega
    rw [Memory.read_writeBytes h.dst, if_pos (by omega)]
    simp [byte]

/-- A body whose source phase succeeds and whose pixels have room completes. -/
theorem run_completes (b : OrderBody) {s : State} (hb : b.Legal s.cfg) (h : s.Ready) (hs : b.SourceOk s)
    (hd : s.dstAvail b.pixels) : ∃ d, b.run s = .ok (b.after s d) ∧ RunBytes s d b.pixels (b.byte s d) := by
  rw [b.run_of_sourceOk hs, requireDst_ok (b.dstAvail_prepared.mpr hd), bind_ok]
  cases b with
  | background n => exact background_writes n h hd
  | foreground c n => exact foreground_writes c n h hd
  | fgbg c n => exact fgbg_writes c n h (hs rfl) hd
  | color n => exact color_writes n h hd
  | dithered n => exact dithered_writes n h hd
  | image n => exact image_writes n h (by simpa [operands, colorBytes, setsColor, dataBytes] using hs rfl) hd
  | special mask => exact special_writes mask h hd
  | single v => exact single_writes h hb hd

end OrderBody

end Sys2Proof.Machine
end

section
/-! PROOFS. What `exec` does in a ready state: an INVALID form fails the call; a valid order runs the body its header stands for,
between the header registers and the insert flag (spec/40_main_loop.md R92, R97). -/

namespace Sys2Proof.Machine

open Sys2Proof.Claims

/-- The body a header stands for in a build; an INVALID form has none. -/
def bodyOf (c : Config) : Instr → Option OrderBody
  | .bgRun L => some (.background (lengthRegular L))
  | .bgRunX n => some (.background (lengthRegularX c.enc n))
  | .fgRun L => some (.foreground false (lengthRegular L))
  | .fgRunX n => some (.foreground false (lengthRegularX c.enc n))
  | .fgbgImage L => some (.fgbg false (lengthFgbg c.enc L))
  | .fgbgImageX n => some (.fgbg false (lengthFgbgX c.enc n))
  | .colorRun L => some (.color (lengthRegular L))
  | .colorRunX n => some (.color (lengthRegularX c.enc n))
  | .colorImage L => some (.image (lengthRegular L))
  | .colorImageX n => some (.image (lengthRegularX c.enc n))
  | .setFgRun L => some (.foreground true (lengthLite L))
  | .setFgRunX n => some (.foreground true (lengthLiteX c.enc n))
  | .setFgbgImage L => some (.fgbg true (lengthSetFgbg c.enc L))
  | .setFgbgImageX n => some (.fgbg true (lengthFgbgX c.enc n))
  | .ditheredRun L => some (.dithered (lengthLite L))
  | .ditheredRunX n => some (.dithered (lengthLiteX c.enc n))
  | .megaBgRun lo hi => some (.background (lengthMega lo hi))
  | .megaFgRun lo hi => some (.foreground false (lengthMega lo hi))
  | .megaFgbgImage lo hi => some (.fgbg false (lengthMega lo hi))
  | .megaColorRun lo hi => some (.color (lengthMega lo hi))
  | .megaColorImage lo hi => some (.image (lengthMega lo hi))
  | .megaSetFgRun lo hi => some (.foreground true (lengthMega lo hi))
  | .megaSetFgbgImage lo hi => some (.fgbg true (lengthMega lo hi))
  | .megaDitheredRun lo hi => some (.dithered (lengthMega lo hi))
  | .specialFgbg1 => some (.special c.maskSpecial1)
  | .specialFgbg2 => some (.special c.maskSpecial2)
  | .white => some (.single c.whitePixel)
  | .black => some (.single c.blackPixel)
  | .invalidA0BF _ => none
  | .invalidF5 => none
  | .invalidFB => none
  | .invalidFC => none
  | .invalidFF => none

/-- The forms without a body are the INVALID ones (spec/30_encoding.md R75). -/
theorem bodyOf_eq_none_iff {c : Config} {i : Instr} : bodyOf c i = none ↔ orderCode i = .invalid := by
  cases i <;> simp [bodyOf, orderCode]

/-- The bodies of a legal build are legal. -/
theorem bodyOf_legal {c : Config} {i : Instr} {b : OrderBody} (hc : c.wf) (h : bodyOf c i = some b) : b.Legal c := by
  obtain ⟨hwhite, hblack, -⟩ := hc
  cases i with
  | white => cases h; exact hwhite
  | black => cases h; exact hblack
  | invalidA0BF | invalidF5 | invalidFB | invalidFC | invalidFF => cases h
  | _ => cases h; exact trivial

/-- The pixels and the operand bytes of an order are those of its body. -/
theorem bodyOf_sizes {c : Config} {i : Instr} {b : OrderBody} (h : bodyOf c i = some b) :
    b.pixels = orderPixels c.enc i ∧ ∀ P, b.operands P = operandBytes c.enc P i := by
  cases i <;> cases h <;>
    simp [OrderBody.pixels, OrderBody.runLength, orderPixels, OrderBody.operands, OrderBody.colorBytes,
      OrderBody.setsColor, OrderBody.dataBytes, operandBytes]

/-- A valid order runs its body in the frame every order has (spec/40_main_loop.md R92, R97). -/
theorem exec_of_bodyOf {s : State} {i : Instr} {b : OrderBody} (h : bodyOf s.cfg i = some b) :
    exec i s = runOrder (orderCode i) b.runLength (headerBytes i) b.run s := by
  cases i <;> cases h <;> rfl

/-- An INVALID form fails the call in every state (spec/44_special_orders.md R145). -/
theorem exec_of_no_body {s : State} {i : Instr} (h : bodyOf s.cfg i = none) :
    exec i s = .next (raiseFail .invalidOrderCode s) := by
  cases i with
  | invalidA0BF | invalidF5 | invalidFB | invalidFC | invalidFF => rfl
  | _ => cases h

/-- The state in which the body of an order begins (spec/40_main_loop.md R91). -/
def bodyStart (i : Instr) (b : OrderBody) (s : State) : State :=
  loadHeader (orderCode i) b.runLength (headerBytes i) s

/-- The state a completed order leaves, with the destination `d`. -/
def orderEnd (i : Instr) (b : OrderBody) (s : State) (d : Memory) : State :=
  insertFlagUpdate (orderCode i) (b.after (bodyStart i b s) d)

section
variable (i : Instr) (b : OrderBody) (s : State) (d : Memory)

@[simp] theorem orderEnd_cfg : (orderEnd i b s d).cfg = s.cfg := by simp [orderEnd, bodyStart]
@[simp] theorem orderEnd_status : (orderEnd i b s d).status = s.status := by simp [orderEnd, bodyStart]
@[simp] theorem orderEnd_cause : (orderEnd i b s d).cause = s.cause := by simp [orderEnd, bodyStart]
@[simp] theorem orderEnd_srcLen : (orderEnd i b s d).srcLen = s.srcLen := by simp [orderEnd, bodyStart]
@[simp] theorem orderEnd_rowDelta : (orderEnd i b s d).rowDelta = s.rowDelta := by simp [orderEnd, bodyStart]
@[simp] theorem orderEnd_width : (orderEnd i b s d).width = s.width := by simp [orderEnd, bodyStart]
@[simp] theorem orderEnd_height : (orderEnd i b s d).height = s.height := by simp [orderEnd, bodyStart]
@[simp] theorem orderEnd_sp : (orderEnd i b s d).sp = s.sp + headerBytes i + b.operands s.pxBytes := by
  simp [orderEnd, bodyStart]
@[simp] theorem orderEnd_dp : (orderEnd i b s d).dp = s.dp + b.pixels * s.pxBytes := by simp [orderEnd, bodyStart]
@[simp] theorem orderEnd_fgPel : (orderEnd i b s d).fgPel = b.fg (bodyStart i b s) := by simp [orderEnd]
@[simp] theorem orderEnd_fFirstLine : (orderEnd i b s d).fFirstLine = s.fFirstLine := by simp [orderEnd, bodyStart]
@[simp] theorem orderEnd_fInsertFgPel : (orderEnd i b s d).fInsertFgPel = isBackgroundRun (orderCode i) := by
  simp [orderEnd]
@[simp] theorem orderEnd_src : (orderEnd i b s d).src = s.src := by simp [orderEnd, bodyStart]
@[simp] theorem orderEnd_dst : (orderEnd i b s d).dst = d := by simp [orderEnd]
@[simp] theorem orderEnd_hostCalls : (orderEnd i b s d).hostCalls = s.hostCalls := by simp [orderEnd, bodyStart]
@[simp] theorem orderEnd_pxBytes : (orderEnd i b s d).pxBytes = s.pxBytes := by simp [State.pxBytes]
@[simp] theorem orderEnd_dstSize : (orderEnd i b s d).dstSize = s.dstSize := by simp [State.dstSize]

end

theorem bodyStart_ready {i : Instr} {b : OrderBody} {s : State} (h : s.Ready) : (bodyStart i b s).Ready :=
  ⟨h.cfg, h.dst, h.fgPel, h.above⟩

theorem orderEnd_ready {i : Instr} {b : OrderBody} {s : State} {d : Memory} (h : s.Ready) (hd : d.wf = true) :
    (orderEnd i b s d).Ready := by
  have hafter := b.after_ready (bodyStart_ready (i := i) (b := b) h) hd
  exact ⟨hafter.cfg, hafter.dst, hafter.fgPel, hafter.above⟩

/-- The order may complete from `s`: its source phase succeeds and its pixels have room. -/
structure Fits (i : Instr) (b : OrderBody) (s : State) : Prop where
  body : bodyOf s.cfg i = some b
  source : b.SourceOk (bodyStart i b s)
  room : s.dstAvail b.pixels

/-- An order that fits completes, with the bytes of its body. -/
theorem exec_of_fits {i : Instr} {b : OrderBody} {s : State} (h : s.Ready) (hfits : Fits i b s) :
    ∃ d, exec i s = .next (orderEnd i b s d) ∧ RunBytes s d b.pixels (b.byte (bodyStart i b s) d) := by
  obtain ⟨d, hrun, hbytes⟩ :=
    b.run_completes (s := bodyStart i b s) (bodyOf_legal h.cfg hfits.body) (bodyStart_ready h) hfits.source hfits.room
  exact ⟨d, (exec_of_bodyOf hfits.body).trans (runOrder_of_ok hrun), hbytes⟩

/-- The cause of an order that does not fit (spec/40_main_loop.md R94): the source is looked at first. -/
inductive FailsWith (i : Instr) (s : State) : Cause → Prop
  | invalid : bodyOf s.cfg i = none → FailsWith i s .invalidOrderCode
  | source (b : OrderBody) : bodyOf s.cfg i = some b → ¬ b.SourceOk (bodyStart i b s) → FailsWith i s .sourceExhaustion
  | room (b : OrderBody) : bodyOf s.cfg i = some b → b.SourceOk (bodyStart i b s) → ¬ s.dstAvail b.pixels →
      FailsWith i s .destinationOverflow

/-- An order that does not fit fails the call. -/
theorem exec_of_failsWith {i : Instr} {s : State} {c : Cause} (h : FailsWith i s c) :
    exec i s = .next (raiseFail c s) := by
  cases h with
  | invalid hb => exact exec_of_no_body hb
  | source b hb hs => exact (exec_of_bodyOf hb).trans (runOrder_of_fail (b.run_sourceExhaustion hs))
  | room b hb hs hd => exact (exec_of_bodyOf hb).trans (runOrder_of_fail (b.run_destinationOverflow hs hd))

/-- Every order fits or fails the call. -/
theorem fits_or_failsWith (i : Instr) (s : State) : (∃ b, Fits i b s) ∨ ∃ c, FailsWith i s c := by
  cases hb : bodyOf s.cfg i with
  | none => exact .inr ⟨_, .invalid hb⟩
  | some b =>
    by_cases hs : b.SourceOk (bodyStart i b s)
    · by_cases hd : s.dstAvail b.pixels
      · exact .inl ⟨b, hb, hs, hd⟩
      · exact .inr ⟨_, .room b hb hs hd⟩
    · exact .inr ⟨_, .source b hb hs⟩

/-- What an order can do in a ready state: fail the call, or complete with the bytes of its body. -/
theorem exec_cases {i : Instr} {s t : State} (h : s.Ready) (he : exec i s = .next t) :
    (∃ c, FailsWith i s c ∧ t = raiseFail c s) ∨
      ∃ b d, Fits i b s ∧ t = orderEnd i b s d ∧ RunBytes s d b.pixels (b.byte (bodyStart i b s) d) := by
  rcases fits_or_failsWith i s with ⟨b, hfits⟩ | ⟨c, hfails⟩
  · obtain ⟨d, hexec, hbytes⟩ := exec_of_fits h hfits
    cases hexec.symm.trans he
    exact .inr ⟨b, d, hfits, rfl, hbytes⟩
  · cases (exec_of_failsWith hfails).symm.trans he
    exact .inl ⟨c, hfails, rfl⟩

/-- A completed order whose header was in the source read its operands inside the source. -/
theorem Fits.srcAvail {i : Instr} {b : OrderBody} {s : State} (h : Fits i b s) (hs : s.srcAvail (headerBytes i)) :
    s.srcAvail (headerBytes i + b.operands s.pxBytes) := by
  cases hc : b.checksSource with
  | true => simpa [State.srcAvail, bodyStart, Nat.add_assoc] using h.source hc
  | false => rwa [b.operands_eq_zero hc]

/-- An order of a running call that leaves it running completed. -/
theorem exec_cases_of_busy {i : Instr} {s t : State} (h : s.Ready) (he : exec i s = .next t) (ht : t.status = .busy) :
    ∃ b d, Fits i b s ∧ t = orderEnd i b s d ∧ RunBytes s d b.pixels (b.byte (bodyStart i b s) d) := by
  rcases exec_cases h he with ⟨c, -, rfl⟩ | hdone
  · cases ht
  · exact hdone

/-- Settles O21: the order ends in `orderEnd`, and the bytes of a run are those of its pixels. -/
theorem orderFrame : Obligations.OrderFrame := by
  intro s t i hready hbusy he ht
  obtain ⟨b, d, hfits, rfl, -, hframe, -⟩ := exec_cases_of_busy hready he ht
  obtain ⟨hpixels, -⟩ := bodyOf_sizes hfits.body
  refine ⟨by rw [orderEnd_dp, hpixels], fun a ha => ?_, ?_⟩
  · rw [orderEnd_dp] at ha
    exact (congrArg (Memory.read · a) (orderEnd_dst i b s d)).trans (hframe a ha)
  · simp

end Sys2Proof.Machine
end

section
/-! PROOFS. What a step can do, and the invariant of spec/10_state.md R39 through it: a step starts a call, ends it, fails it,
or completes an order. -/

namespace Sys2Proof.Machine

open Sys2Proof.Claims

/-! ### One iteration -/

theorem headerBytes_pos (i : Instr) : 1 ≤ headerBytes i := by
  cases i <;> exact Nat.succ_le_succ (Nat.zero_le _)

/-- A header read at the cursor stands inside the source. -/
theorem srcAvail_headerBytes {s : State} {i : Instr} {rest : List Byte} (hsp : s.sp < s.srcLen)
    (h : decode s.cfg.enc (fetchHeader s) = .ok (i, rest)) : s.srcAvail (headerBytes i) := by
  have hlength := decode_length h
  rw [fetchHeader, Memory.length_readBytes] at hlength
  simp only [State.srcAvail]
  omega

theorem loopIteration_of_decode {s : State} {i : Instr} {rest : List Byte}
    (h : decode s.cfg.enc (fetchHeader s) = .ok (i, rest)) : loopIteration s = exec i (firstLineUpdate s) := by
  simp [loopIteration, h]

theorem loopIteration_of_malformed {s : State} (h : decode s.cfg.enc (fetchHeader s) = .error .malformedHeader) :
    loopIteration s = .next (raiseFail .malformedHeader (firstLineUpdate s)) := by
  simp [loopIteration, h]

/-- An iteration with a next state has read a header, or a malformed one. -/
theorem decode_of_loopIteration {s t : State} (h : loopIteration s = .next t) :
    (∃ i rest, decode s.cfg.enc (fetchHeader s) = .ok (i, rest)) ∨
      decode s.cfg.enc (fetchHeader s) = .error .malformedHeader := by
  match hd : decode s.cfg.enc (fetchHeader s) with
  | .ok (i, rest) => exact .inl ⟨i, rest, rfl⟩
  | .error .malformedHeader => exact .inr rfl
  | .error .noHeaderByte => simp [loopIteration, hd] at h

/-- Without source bytes left, the step of a running call ends it in success (spec/40_main_loop.md R90). -/
theorem step_at_end {s : State} (hbusy : s.status = .busy) (h : ¬ s.sp < s.srcLen) : step s = .next (finishCall s) := by
  simp [step, hbusy, engineTurn, h]

/-- An order of `s` completed: its header stood at the cursor, and its body ran after the first-line update. -/
structure OrderDone (s t : State) (i : Instr) (b : OrderBody) (d : Memory) : Prop where
  header : s.srcAvail (headerBytes i)
  fits : Fits i b (firstLineUpdate s)
  state : t = orderEnd i b (firstLineUpdate s) d
  bytes : RunBytes s d b.pixels (b.byte (bodyStart i b (firstLineUpdate s)) d)

/-- What the step of a running call can do: end the call at the end of the source, fail it, or complete an order. -/
theorem step_cases_of_busy {s t : State} (hready : s.Ready) (hbusy : s.status = .busy) (h : step s = .next t) :
    (¬ s.sp < s.srcLen ∧ t = finishCall s) ∨
      (s.sp < s.srcLen ∧ ∃ c, t = raiseFail c (firstLineUpdate s)) ∨
      (s.sp < s.srcLen ∧ ∃ i b d, OrderDone s t i b d) := by
  by_cases hsp : s.sp < s.srcLen
  · right
    rw [step_of_busy hbusy hsp] at h
    rcases decode_of_loopIteration h with ⟨i, rest, hd⟩ | hd
    · rw [loopIteration_of_decode hd] at h
      rcases exec_cases (firstLineUpdate_ready hready) h with ⟨c, -, rfl⟩ | ⟨b, d, hfits, rfl, hbytes⟩
      · exact .inl ⟨hsp, c, rfl⟩
      · exact .inr ⟨hsp, i, b, d, srcAvail_headerBytes hsp hd, hfits, rfl, by simpa [RunBytes] using hbytes⟩
    · rw [loopIteration_of_malformed hd] at h
      cases h
      exact .inl ⟨hsp, _, rfl⟩
  · rw [step_at_end hbusy hsp] at h
    cases h
    exact .inl ⟨hsp, rfl⟩

/-- A completed order moves the source cursor past its header and operands, which were in the source. -/
theorem OrderDone.sp {s t : State} {i : Instr} {b : OrderBody} {d : Memory} (h : OrderDone s t i b d) :
    t.sp = s.sp + (headerBytes i + b.operands s.pxBytes) ∧ t.sp ≤ t.srcLen := by
  obtain ⟨hheader, hfits, rfl, -⟩ := h
  have havail := hfits.srcAvail (by simpa [State.srcAvail] using hheader)
  simp only [State.srcAvail, firstLineUpdate_sp, firstLineUpdate_srcLen, firstLineUpdate_pxBytes] at havail
  exact ⟨by simp [Nat.add_assoc], by simpa [Nat.add_assoc] using havail⟩

/-- A completed order moves the destination cursor past its pixels, for which there was room. -/
theorem OrderDone.dp {s t : State} {i : Instr} {b : OrderBody} {d : Memory} (h : OrderDone s t i b d) :
    t.dp = s.dp + b.pixels * s.pxBytes ∧ t.dp ≤ t.dstSize := by
  obtain ⟨-, hfits, rfl, -⟩ := h
  have hroom := hfits.room
  simp only [State.dstAvail, firstLineUpdate_dp, firstLineUpdate_dstSize, firstLineUpdate_pxBytes] at hroom
  exact ⟨by simp, by simpa using hroom⟩

/-! ### The invariant -/

/-- Without a running call only the build and the memories matter. -/
theorem State.Inv.of_not_busy {t : State} (hcfg : t.cfg.wf) (hsrc : t.src.wf = true) (hdst : t.dst.wf = true)
    (hstatus : t.status ≠ .busy) : t.Inv :=
  ⟨hcfg, hsrc, hdst, fun hbusy => absurd hbusy hstatus⟩

theorem raiseFail_inv {s : State} (c : Cause) (hcfg : s.cfg.wf) (hsrc : s.src.wf = true) (hdst : s.dst.wf = true) :
    (raiseFail c s).Inv :=
  .of_not_busy hcfg hsrc (dstAfterFailure_wf hdst c) nofun

theorem finishCall_inv {s : State} (h : s.Inv) : (finishCall s).Inv :=
  .of_not_busy h.cfg h.src h.dst nofun

/-- Call reset begins every legal configuration in the invariant (spec/40_main_loop.md R86, R87). -/
theorem callReset_inv {s : State} (hcfg : s.cfg.wf) (hsrc : s.src.wf = true) (hdst : s.dst.wf = true)
    (hconfig : ¬ s.badConfiguration) : (callReset s).Inv where
  cfg := hcfg
  src := hsrc
  dst := hdst
  running := fun _ =>
    { ready := ⟨hcfg, hdst, hcfg.1, nofun⟩
      config := hconfig
      sp := Nat.zero_le _
      dp := Nat.zero_le _
      aligned := dvd_zero _ }

theorem startCall_inv {s : State} (c : HostCall) (hcfg : s.cfg.wf) (hsrc : s.src.wf = true) (hdst : s.dst.wf = true) :
    (startCall c s).Inv := by
  have hsrc' : (hostPlaces c s).src.wf = true := Memory.writeBytes_wf hsrc _ _
  have hdst' : (hostPlaces c s).dst.wf = true := Memory.writeBytes_wf hdst _ _
  unfold startCall
  by_cases hbad : (hostPlaces c s).badConfiguration
  · rw [if_pos hbad]; exact raiseFail_inv _ hcfg hsrc' hdst'
  · rw [if_neg hbad]; exact callReset_inv hcfg hsrc' hdst' hbad

theorem hostTurn_inv {s : State} (h : s.Inv) : (hostTurn s).Inv := by
  unfold hostTurn
  split
  · exact h
  · exact startCall_inv _ h.cfg h.src h.dst

/-- A completed order keeps everything the top of an iteration asks for. -/
theorem OrderDone.running {s t : State} {i : Instr} {b : OrderBody} {d : Memory} (h : OrderDone s t i b d)
    (hs : s.Running) : t.Running where
  ready := by rw [h.state]; exact orderEnd_ready (firstLineUpdate_ready hs.ready) h.bytes.1
  config := by rw [h.state]; simpa using hs.config
  sp := h.sp.2
  dp := h.dp.2
  aligned := by
    have hpx : t.pxBytes = s.pxBytes := by simp [h.state]
    rw [hpx, h.dp.1]
    exact dvd_add hs.aligned (Nat.dvd_mul_left _ _)

theorem OrderDone.inv {s t : State} {i : Instr} {b : OrderBody} {d : Memory} (h : OrderDone s t i b d) (hs : s.Inv)
    (hrun : s.Running) : t.Inv where
  cfg := (h.running hrun).ready.cfg
  src := by simpa [h.state] using hs.src
  dst := (h.running hrun).ready.dst
  running := fun _ => h.running hrun

/-- Settles O35: each thing a step can do keeps the invariant. -/
theorem stepKeepsInvariant : Obligations.StepKeepsInvariant := by
  intro s t hinv h
  by_cases hbusy : s.status = .busy
  · have hrun := hinv.running hbusy
    rcases step_cases_of_busy hrun.ready hbusy h with ⟨-, rfl⟩ | ⟨-, c, rfl⟩ | ⟨-, i, b, d, hdone⟩
    · exact finishCall_inv hinv
    · exact raiseFail_inv c (by simpa using hinv.cfg) (by simpa using hinv.src) (by simpa using hinv.dst)
    · exact hdone.inv hinv hrun
  · rw [step_of_not_busy hbusy] at h
    cases h
    exact hostTurn_inv hinv

/-- Settles O38: only a completed order leaves the call running, and it consumes at least its header. -/
theorem cursorsOnlyAdvance : Obligations.CursorsOnlyAdvance := by
  intro s t hinv hbusy hsp h ht
  have hrun := hinv.running hbusy
  rcases step_cases_of_busy hrun.ready hbusy h with ⟨hend, -⟩ | ⟨-, c, rfl⟩ | ⟨-, i, b, d, hdone⟩
  · exact absurd hsp hend
  · cases ht
  · obtain ⟨hsp', hlen⟩ := hdone.sp
    obtain ⟨hdp', hroom⟩ := hdone.dp
    have hheader := headerBytes_pos i
    exact ⟨by omega, hlen, hdp' ▸ Nat.le_add_right _ _, hroom⟩

end Sys2Proof.Machine
end

section
/-! PROOFS. Two runs of one order: what it does depends neither on the temporaries it finds (spec/10_state.md R27 to R29) nor,
with `ROW_DELTA >= P`, on destination bytes at or above the cursor (R39, spec/70_reset_and_hazards.md R174). -/

namespace Sys2Proof.Machine

open Sys2Proof.Claims

/-- `s'` is `s` but for the temporaries and the destination. -/
def SameButTemporaries (s s' : State) : Prop :=
  s' = { s with
    bitmask := s'.bitmask
    code := s'.code
    runLength := s'.runLength
    advance := s'.advance
    pixA := s'.pixA
    pixB := s'.pixB
    pix := s'.pix
    dst := s'.dst }

/-- Two states no order tells apart: they differ in temporaries, and in destination bytes that no pixel is made from. -/
structure Alike (s s' : State) : Prop where
  state : SameButTemporaries s s'
  wf : s'.dst.wf = true
  agree : ∀ a, a < s.dp ∨ s.rowDelta < s.pxBytes → s.dst.read a = s'.dst.read a

theorem Alike.ready {s s' : State} (h : Alike s s') (hs : s.Ready) : s'.Ready := by
  refine ⟨?_, h.wf, ?_, ?_⟩ <;> rw [h.state]
  · exact hs.cfg
  · exact hs.fgPel
  · exact hs.above

theorem Alike.bodyStart {s s' : State} (h : Alike s s') (i : Instr) (b : OrderBody) :
    Alike (bodyStart i b s) (bodyStart i b s') := by
  refine ⟨?_, h.wf, h.agree⟩
  unfold SameButTemporaries
  rw [h.state]
  rfl

/-- An order that fits one of two such states fits the other, and fails both with the same cause. -/
theorem SameButTemporaries.fits {s s' : State} {i : Instr} {b : OrderBody} (h : SameButTemporaries s s')
    (hfits : Fits i b s) : Fits i b s' := by
  rw [h]
  exact ⟨hfits.body, hfits.source, hfits.room⟩

theorem SameButTemporaries.failsWith {s s' : State} {i : Instr} {c : Cause} (h : SameButTemporaries s s')
    (hfails : FailsWith i s c) : FailsWith i s' c := by
  rw [h]
  cases hfails with
  | invalid hb => exact .invalid hb
  | source b hb hs => exact .source b hb hs
  | room b hb hs hd => exact .room b hb hs hd

/-- The row above pixel `k` is the same in both runs, when the bytes before the pixel are. -/
theorem Alike.aboveByte_eq {s s' : State} {d d' : Memory} {k j : Nat} (h : Alike s s') (hj : j < s.pxBytes)
    (hup : s.rowDelta ≤ s.dp) (hd : ∀ x, x < s.dp + k * s.pxBytes + j → d.read x = d'.read x) :
    aboveByte s d k j = aboveByte s' d' k j := by
  have hs' : aboveByte s' d' k j = if j < s.rowDelta then d'.read (s.dp + k * s.pxBytes + j - s.rowDelta)
      else s'.dst.read (s.dp + k * s.pxBytes + j - s.rowDelta) := by rw [h.state]; rfl
  rw [hs', aboveByte]
  split
  · exact hd _ (by omega)
  · exact h.agree _ (.inr (by omega))

theorem Alike.bgByte_eq {s s' : State} {d d' : Memory} {k j : Nat} (h : Alike s s') (hs : s.Ready) (hj : j < s.pxBytes)
    (hd : ∀ x, x < s.dp + k * s.pxBytes + j → d.read x = d'.read x) : bgByte s d k j = bgByte s' d' k j := by
  have hff : s'.fFirstLine = s.fFirstLine := by rw [h.state]
  have hcfg : s'.cfg = s.cfg := by rw [h.state]
  cases hf : s.fFirstLine with
  | true => simp [bgByte, hff, hf, hcfg]
  | false => simp [bgByte, hff, hf, h.aboveByte_eq hj (hs.above hf) hd]

theorem Alike.fgByte_eq {s s' : State} {d d' : Memory} {fg : Pixel} {k j : Nat} (h : Alike s s') (hs : s.Ready)
    (hj : j < s.pxBytes) (hd : ∀ x, x < s.dp + k * s.pxBytes + j → d.read x = d'.read x) :
    fgByte s d fg k j = fgByte s' d' fg k j := by
  have hff : s'.fFirstLine = s.fFirstLine := by rw [h.state]
  cases hf : s.fFirstLine with
  | true => simp [fgByte, hff, hf]
  | false => simp [fgByte, hff, hf, h.aboveByte_eq hj (hs.above hf) hd]

/-- Every pixel byte of a body is the same in both runs, when the bytes before it are. -/
theorem Alike.byte_eq {s s' : State} {d d' : Memory} {k j : Nat} (b : OrderBody) (h : Alike s s') (hs : s.Ready)
    (hj : j < s.pxBytes) (hd : ∀ x, x < s.dp + k * s.pxBytes + j → d.read x = d'.read x) :
    b.byte s d k j = b.byte s' d' k j := by
  have hbg := h.bgByte_eq hs hj hd
  have hfg : ∀ fg, fgByte s d fg k j = fgByte s' d' fg k j := fun _ => h.fgByte_eq hs hj hd
  have hsrc : s'.src = s.src := by rw [h.state]
  have hsp : s'.sp = s.sp := by rw [h.state]
  have hpx : s'.pxBytes = s.pxBytes := by rw [h.state]; rfl
  have hpel : s'.fgPel = s.fgPel := by rw [h.state]
  have hins : s'.fInsertFgPel = s.fInsertFgPel := by rw [h.state]
  cases b <;> simp only [OrderBody.byte, OrderBody.fg, hbg, hfg, hsrc, hsp, hpx, hpel, hins]

/-- Every byte of a run is a byte of one of its pixels. -/
theorem exists_pixel_byte {P n dp a : Nat} (hP : 0 < P) (hlo : dp ≤ a) (hhi : a < dp + n * P) :
    ∃ k j, k < n ∧ j < P ∧ a = dp + k * P + j := by
  have hsplit := Nat.div_add_mod' (a - dp) P
  exact ⟨(a - dp) / P, (a - dp) % P, (Nat.div_lt_iff_lt_mul hP).mpr (by omega), Nat.mod_lt _ hP, by omega⟩

/-- Two runs of one body write the same pixels: each byte is made from bytes before it. -/
theorem Alike.read_eq {s s' : State} {d d' : Memory} (b : OrderBody) (h : Alike s s') (hs : s.Ready)
    (hbytes : RunBytes s d b.pixels (b.byte s d)) (hbytes' : RunBytes s' d' b.pixels (b.byte s' d')) (a : Nat)
    (ha : a < s.dp + b.pixels * s.pxBytes ∨ s.rowDelta < s.pxBytes) : d.read a = d'.read a := by
  have hdp : s'.dp = s.dp := by rw [h.state]
  have hpx : s'.pxBytes = s.pxBytes := by rw [h.state]; rfl
  obtain ⟨-, hframe, hread⟩ := hbytes
  obtain ⟨-, hframe', hread'⟩ := hbytes'
  rw [hdp, hpx] at hframe' hread'
  induction a using Nat.strong_induction_on with
  | _ a ih =>
  by_cases hout : a < s.dp ∨ s.dp + b.pixels * s.pxBytes ≤ a
  · rw [hframe a hout, hframe' a hout]
    exact h.agree a (by omega)
  · obtain ⟨k, j, hk, hj, rfl⟩ :=
      exists_pixel_byte (dp := s.dp) (n := b.pixels) (a := a) (pxBytes_pos s) (by omega) (by omega)
    rw [hread k hk j hj, hread' k hk j hj]
    exact h.byte_eq b hs hj fun x hx => ih x hx (.inl (by omega))

/-- An order does the same in two states it cannot tell apart: it fails both with one cause, or completes in both and leaves
destinations that agree below the new cursor. -/
theorem Alike.exec_cases {i : Instr} {s s' t : State} (h : Alike s s') (hs : s.Ready) (he : exec i s = .next t) :
    (∃ c, t = raiseFail c s ∧ exec i s' = .next (raiseFail c s')) ∨
      ∃ b d d', t = orderEnd i b s d ∧ exec i s' = .next (orderEnd i b s' d') ∧
        RunBytes s d b.pixels (b.byte (Machine.bodyStart i b s) d) ∧
        RunBytes s' d' b.pixels (b.byte (Machine.bodyStart i b s') d') ∧
        ∀ a, a < t.dp ∨ s.rowDelta < s.pxBytes → d.read a = d'.read a := by
  rcases Machine.exec_cases hs he with ⟨c, hfails, rfl⟩ | ⟨b, d, hfits, rfl, hbytes⟩
  · exact .inl ⟨c, rfl, exec_of_failsWith (h.state.failsWith hfails)⟩
  · obtain ⟨d', hexec', hbytes'⟩ := exec_of_fits (h.ready hs) (h.state.fits hfits)
    refine .inr ⟨b, d, d', rfl, hexec', hbytes, hbytes', fun a ha => ?_⟩
    rw [orderEnd_dp] at ha
    exact (h.bodyStart i b).read_eq b (bodyStart_ready hs) hbytes hbytes' a ha

/-! ### Temporaries -/

/-- With the same destination only the temporaries differ. -/
theorem SameButTemporaries.of_dst_eq {s s' : State} (h : SameButTemporaries s s') (hdst : s'.dst = s.dst) :
    s' = { s with
      bitmask := s'.bitmask
      code := s'.code
      runLength := s'.runLength
      advance := s'.advance
      pixA := s'.pixA
      pixB := s'.pixB
      pix := s'.pix } :=
  h.trans (by rw [hdst])

/-- A failure forgets the temporaries. -/
theorem SameButTemporaries.raiseFail_eq {s s' : State} (h : SameButTemporaries s s') (hdst : s'.dst = s.dst) (c : Cause) :
    raiseFail c s' = raiseFail c s := by
  rw [h, hdst]
  cases c <;> rfl

/-- The end of an order hands on no difference but in the temporaries. -/
theorem SameButTemporaries.orderEnd {s s' : State} (h : SameButTemporaries s s') (i : Instr) (b : OrderBody) (d d' : Memory) :
    SameButTemporaries (orderEnd i b s d) (orderEnd i b s' d') := by
  unfold SameButTemporaries
  rw [h]
  cases b <;> rfl

/-- Settles O41: the destinations of the two runs agree everywhere, so they are the same. -/
theorem ephemeralRegistersAreNotRead : Obligations.EphemeralRegistersAreNotRead := by
  intro s t i m c n a pa pb p hs he
  have hsame : SameButTemporaries s
      { s with bitmask := m, code := c, runLength := n, advance := a, pixA := pa, pixB := pb, pix := p } := rfl
  have halike : Alike s _ := ⟨hsame, hs.dst, fun _ _ => rfl⟩
  rcases halike.exec_cases hs he with ⟨cause, rfl, hexec⟩ | ⟨b, d, d', rfl, hexec, hbytes, hbytes', hagree⟩
  · exact ⟨_, hexec, hsame.raiseFail_eq rfl cause⟩
  · obtain ⟨hwf, hframe, -⟩ := hbytes
    obtain ⟨hwf', hframe', -⟩ := hbytes'
    have hdst : d' = d := Memory.eq_of_read_eq hwf' hwf fun x => by
      by_cases hx : x < s.dp + b.pixels * s.pxBytes
      · exact (hagree x (.inl (by simpa using hx))).symm
      · rw [hframe x (by omega)]
        exact hframe' x (.inr (Nat.le_of_not_lt hx))
    subst hdst
    exact ⟨_, hexec, (hsame.orderEnd i b d' d').of_dst_eq (by simp)⟩

/-! ### Old destination bytes -/

/-- Where rows are at least a pixel long, no pixel is made from a destination byte at or above the cursor. -/
theorem alike_of_sameBelowCursor {s s' : State} (h : SameBelowCursor s s') (hrow : s.pxBytes ≤ s.rowDelta) :
    Alike s s' := by
  obtain ⟨hstate, hwf, hread⟩ := h
  refine ⟨?_, hwf, fun a ha => hread a (by omega)⟩
  unfold SameButTemporaries
  rw [hstate]

theorem firstLineUpdate_sameBelowCursor {s s' : State} (h : SameBelowCursor s s') :
    SameBelowCursor (firstLineUpdate s) (firstLineUpdate s') := by
  obtain ⟨hstate, hwf, hread⟩ := h
  refine ⟨?_, by simpa using hwf, by simpa using hread⟩
  rw [firstLineUpdate_dst, hstate]
  unfold firstLineUpdate
  split <;> rfl

theorem orderEnd_sameBelowCursor {s s' : State} (h : SameBelowCursor s s') (i : Instr) (b : OrderBody) {d d' : Memory}
    (hwf : d'.wf = true) (hread : ∀ a, a < (orderEnd i b s d).dp → d.read a = d'.read a) :
    SameBelowCursor (orderEnd i b s d) (orderEnd i b s' d') := by
  obtain ⟨hstate, -, -⟩ := h
  refine ⟨?_, by simpa using hwf, by simpa using hread⟩
  rw [orderEnd_dst, hstate]
  cases b <;> rfl

/-- With rows at least a pixel long, an order does the same in two states that differ at or above the cursor, and leaves them
so. -/
theorem exec_sameBelowCursor {i : Instr} {s s' t : State} (h : SameBelowCursor s s') (hrow : s.pxBytes ≤ s.rowDelta)
    (hs : s.Ready) (he : exec i s = .next t) :
    ∃ t', exec i s' = .next t' ∧ t'.status = t.status ∧
      (t.status = .fail ∨ t.status = s.status ∧ SameBelowCursor t t') := by
  rcases (alike_of_sameBelowCursor h hrow).exec_cases hs he with
    ⟨c, rfl, hexec⟩ | ⟨b, d, d', rfl, hexec, -, hbytes', hagree⟩
  · exact ⟨_, hexec, rfl, .inl rfl⟩
  · have hsame := orderEnd_sameBelowCursor h i b hbytes'.1 fun a ha => hagree a (.inl ha)
    exact ⟨_, hexec, by rw [hsame.1], .inr ⟨by simp, hsame⟩⟩

/-- The same for an iteration of the main loop. -/
theorem loopIteration_sameBelowCursor {s s' t : State} (h : SameBelowCursor s s') (hrow : s.pxBytes ≤ s.rowDelta)
    (hs : s.Ready) (hl : loopIteration s = .next t) :
    ∃ t', loopIteration s' = .next t' ∧ t'.status = t.status ∧
      (t.status = .fail ∨ t.status = s.status ∧ SameBelowCursor t t') := by
  have hdecode : decode s'.cfg.enc (fetchHeader s') = decode s.cfg.enc (fetchHeader s) := by rw [h.1]; rfl
  rcases decode_of_loopIteration hl with ⟨i, rest, hd⟩ | hd
  · rw [loopIteration_of_decode hd] at hl
    rw [loopIteration_of_decode (hdecode.trans hd)]
    simpa using
      exec_sameBelowCursor (firstLineUpdate_sameBelowCursor h) (by simpa using hrow) (firstLineUpdate_ready hs) hl
  · rw [loopIteration_of_malformed hd] at hl
    cases hl
    exact ⟨_, loopIteration_of_malformed (hdecode.trans hd), rfl, .inl rfl⟩

/-- Settles O40: an iteration keeps the two states equal below the cursor; the end of the call keeps both destinations. -/
theorem resultIndependentOfOldDestination : Obligations.ResultIndependentOfOldDestination := by
  intro s s' t hinv hbusy hrow h hstep
  have hs := (hinv.running hbusy).ready
  have hbusy' : s'.status = .busy := by rw [h.1]; exact hbusy
  by_cases hsp : s.sp < s.srcLen
  · have hsp' : s'.sp < s'.srcLen := by rw [h.1]; exact hsp
    rw [step_of_busy hbusy hsp] at hstep
    obtain ⟨t', hl', hstatus, hcases⟩ := loopIteration_sameBelowCursor h hrow hs hstep
    refine ⟨t', (step_of_busy hbusy' hsp').trans hl', hstatus, ?_⟩
    rcases hcases with hfail | ⟨hkept, hsame⟩
    · simp [hfail]
    · simp [hkept, hbusy, hsame]
  · have hsp' : ¬ s'.sp < s'.srcLen := by rw [h.1]; exact hsp
    rw [step_at_end hbusy hsp] at hstep
    cases hstep
    exact ⟨finishCall s', step_at_end hbusy' hsp', rfl, nofun, fun _ => h.2.2⟩

end Sys2Proof.Machine
end

section
/-! PROOFS. `STATUS` and the host's coming calls: an order neither reads nor writes them, in whatever state it runs
(spec/10_state.md R30, spec/70_reset_and_hazards.md R180); a START reads nothing of the call before (spec/10_state.md R38). -/

namespace Sys2Proof.Machine

/-- `s` under another `STATUS` and other coming calls. -/
def rehost (x : Status) (cs : List HostCall) (s : State) : State := { s with status := x, hostCalls := cs }

/-- Two computations whose second parts differ by a map differ by that map. -/
theorem bind_eq_map_bind {α β γ : Type} {x : Except Stop α} {g : α → Except Stop β} {g' : α → Except Stop γ} {f : β → γ}
    (hg : ∀ a, g' a = (g a).map f) : (x >>= g') = (x >>= g).map f := by
  cases x with
  | error e => rfl
  | ok a => exact hg a

/-- The same when the first parts differ by a map too. -/
theorem map_bind_eq_map_bind {α α' β γ : Type} {x : Except Stop α} {h : α → α'} {g : α → Except Stop β}
    {g' : α' → Except Stop γ} {f : β → γ} (hg : ∀ a, g' (h a) = (g a).map f) : (x.map h >>= g') = (x >>= g).map f := by
  cases x with
  | error e => rfl
  | ok a => exact hg a

section
variable (x : Status) (cs : List HostCall)

theorem writePixel_rehost (v : Pixel) (s : State) :
    writePixel v (rehost x cs s) = (writePixel v s).map (rehost x cs) := by
  unfold writePixel memWriteDst
  by_cases h : s.dp + v.length ≤ s.dstSize
  · have h' : (rehost x cs s).dp + v.length ≤ (rehost x cs s).dstSize := h
    rw [if_pos h, if_pos h']; rfl
  · have h' : ¬ (rehost x cs s).dp + v.length ≤ (rehost x cs s).dstSize := h
    rw [if_neg h, if_neg h']; rfl

theorem readSrcPixel_rehost (s : State) :
    readSrcPixel (rehost x cs s) = (readSrcPixel s).map (Prod.map id (rehost x cs)) := by
  unfold readSrcPixel
  exact bind_eq_map_bind (x := memReadSrc s s.sp s.pxBytes) fun _ => rfl

theorem readSrcByte_rehost (s : State) :
    readSrcByte (rehost x cs s) = (readSrcByte s).map (Prod.map id (rehost x cs)) := by
  unfold readSrcByte
  by_cases h : s.sp + 1 ≤ s.srcLen
  · have h' : (rehost x cs s).sp + 1 ≤ (rehost x cs s).srcLen := h
    rw [if_pos h, if_pos h']; rfl
  · have h' : ¬ (rehost x cs s).sp + 1 ≤ (rehost x cs s).srcLen := h
    rw [if_neg h, if_neg h']; rfl

/-- A write loop whose generators read neither does not either. -/
theorem writeRun_rehost {gen : Nat → State → Except Stop Pixel} (hgen : ∀ k s, gen k (rehost x cs s) = gen k s) (i n : Nat)
    (s : State) : writeRun gen i n (rehost x cs s) = (writeRun gen i n s).map (rehost x cs) := by
  induction n generalizing i s with
  | zero => rfl
  | succ n ih =>
    simp only [writeRun, hgen, writePixel_rehost]
    exact bind_eq_map_bind fun _ => map_bind_eq_map_bind fun t => ih (i + 1) t

theorem copyPixels_rehost (n : Nat) (s : State) :
    copyPixels n (rehost x cs s) = (copyPixels n s).map (rehost x cs) := by
  induction n generalizing s with
  | zero => rfl
  | succ n ih =>
    rw [copyPixels, readSrcPixel_rehost]
    exact map_bind_eq_map_bind fun ⟨v, t⟩ => by
      show (writePixel v (rehost x cs t) >>= _) = _
      rw [writePixel_rehost]
      exact map_bind_eq_map_bind ih

theorem writeGroups_rehost (groups n : Nat) (s : State) :
    writeGroups groups n (rehost x cs s) = (writeGroups groups n s).map (rehost x cs) := by
  induction groups generalizing n s with
  | zero => rfl
  | succ groups ih =>
    rw [writeGroups, readSrcByte_rehost]
    exact map_bind_eq_map_bind fun ⟨m, t⟩ => by
      show (writeFgBgGroup (min 8 n) (rehost x cs { t with bitmask := m }) >>= _) = _
      rw [writeFgBgGroup, writeRun_rehost x cs (fun _ _ => rfl)]
      exact map_bind_eq_map_bind (ih _)

namespace OrderBody

theorem write_rehost (b : OrderBody) (s : State) : b.write (rehost x cs s) = (b.write s).map (rehost x cs) := by
  cases b with
  | background n => exact writeRun_rehost x cs (fun _ _ => rfl) 0 n s
  | foreground c n => exact writeRun_rehost x cs (fun _ _ => rfl) 0 n s
  | fgbg c n =>
    rw [write, writeGroups_rehost]
    exact map_bind_eq_map_bind fun _ => rfl
  | color n => exact writeRun_rehost x cs (fun _ _ => rfl) 0 n s
  | dithered n => exact writeRun_rehost x cs (fun _ _ => rfl) 0 (2 * n) s
  | image n => exact copyPixels_rehost x cs n s
  | special mask =>
    show (writeFgBgGroup 8 (rehost x cs { s with bitmask := mask }) >>= _) = _
    rw [writeFgBgGroup, writeRun_rehost x cs (fun _ _ => rfl)]
    exact map_bind_eq_map_bind fun _ => rfl
  | single v => exact writePixel_rehost x cs v s

/-- A body neither reads nor writes `STATUS` and the coming calls. -/
theorem run_rehost (b : OrderBody) (s : State) : b.run (rehost x cs s) = (b.run s).map (rehost x cs) := by
  by_cases hs : b.SourceOk s
  · have hprepared : b.prepared (rehost x cs s) = rehost x cs (b.prepared s) := by cases b <;> rfl
    rw [b.run_of_sourceOk hs, b.run_of_sourceOk (s := rehost x cs s) hs, hprepared]
    exact bind_eq_map_bind (x := requireDst b.pixels (b.prepared s)) fun _ => write_rehost x cs b _
  · rw [b.run_sourceExhaustion hs, b.run_sourceExhaustion (s := rehost x cs s) hs]; rfl

end OrderBody

end

/-- A completed body left `STATUS` and the coming calls as they were. -/
theorem OrderBody.run_keeps_host {b : OrderBody} {s t : State} (h : b.run s = .ok t) :
    t.status = s.status ∧ t.hostCalls = s.hostCalls := by
  have hsame : b.run s = (b.run s).map (rehost s.status s.hostCalls) := b.run_rehost s.status s.hostCalls s
  rw [h] at hsame
  have ht : t = rehost s.status s.hostCalls t := Except.ok.inj hsame
  exact ⟨by rw [ht]; rfl, by rw [ht]; rfl⟩

theorem runOrder_cases {c : OrderCode} {n adv : Nat} {body : State → Except Stop State} {s t : State}
    (h : runOrder c n adv body s = .next t) :
    (∃ u, body (loadHeader c n adv s) = .ok u ∧ t = insertFlagUpdate c u) ∨ ∃ e, t = raiseFail e s := by
  unfold runOrder at h
  split at h
  · next u hu => cases h; exact .inl ⟨u, hu, rfl⟩
  · cases h; exact .inr ⟨_, rfl⟩
  · cases h

/-- In every state, ready or not, an order keeps `STATUS` or fails the call. -/
theorem exec_status {i : Instr} {s t : State} (h : exec i s = .next t) : t.status = s.status ∨ t.status = .fail := by
  cases hb : bodyOf s.cfg i with
  | none =>
    rw [exec_of_no_body hb] at h
    cases h
    exact .inr rfl
  | some b =>
    rw [exec_of_bodyOf hb] at h
    rcases runOrder_cases h with ⟨u, hu, rfl⟩ | ⟨e, rfl⟩
    · exact .inl (OrderBody.run_keeps_host hu).1
    · exact .inr rfl

theorem loopIteration_status {s t : State} (h : loopIteration s = .next t) : t.status = s.status ∨ t.status = .fail := by
  rcases decode_of_loopIteration h with ⟨i, rest, hd⟩ | hd
  · rw [loopIteration_of_decode hd] at h
    simpa using exec_status h
  · rw [loopIteration_of_malformed hd] at h
    cases h
    exact .inr rfl

/-- A START begins the call or fails it at once (spec/40_main_loop.md R85, R86). -/
theorem startCall_status (c : HostCall) (s : State) :
    (startCall c s).status = .busy ∨
      ((startCall c s).status = .fail ∧ (startCall c s).cause = .invalidConfiguration) := by
  unfold startCall
  by_cases hbad : (hostPlaces c s).badConfiguration
  · rw [if_pos hbad]; exact .inr ⟨rfl, rfl⟩
  · rw [if_neg hbad]; exact .inl rfl

theorem hostTurn_cases (s : State) :
    hostTurn s = s ∨ ∃ c rest, s.hostCalls = c :: rest ∧ hostTurn s = startCall c { s with hostCalls := rest } := by
  unfold hostTurn
  split
  · exact .inl rfl
  · next c rest hcalls => exact .inr ⟨c, rest, hcalls, rfl⟩

/-- Settles O33: an iteration keeps `STATUS` or fails, the end of the source gives OK, and the host's turn is a START or
nothing. -/
theorem statusTransitions : Obligations.StatusTransitions := by
  intro s t h
  refine ⟨fun hbusy => ?_, fun hidle => ?_⟩
  · by_cases hsp : s.sp < s.srcLen
    · rw [step_of_busy hbusy hsp] at h
      rcases loopIteration_status h with hkept | hfail
      · exact .inl (hkept.trans hbusy)
      · exact .inr (.inr hfail)
    · rw [step_at_end hbusy hsp] at h
      cases h
      exact .inr (.inl rfl)
  · rw [step_of_not_busy hidle] at h
    cases h
    rcases hostTurn_cases s with hnothing | ⟨c, rest, -, hstart⟩
    · exact .inl hnothing
    · rw [hstart]
      exact .inr (startCall_status c _)

/-- Once the host has placed the call and the registers are forgotten, of two states with the same build, buffers, coming calls
and free counter only `STATUS` is left to differ. -/
theorem forgetRegisters_hostPlaces {s s' : State} (c : HostCall) (hcfg : s.cfg = s'.cfg) (hsrc : s.src = s'.src)
    (hdst : s.dst = s'.dst) (hcalls : s.hostCalls = s'.hostCalls) (hfree : s.freeCount = s'.freeCount) :
    forgetRegisters (hostPlaces c s) = { forgetRegisters (hostPlaces c s') with status := s.status } := by
  simp only [forgetRegisters, hostPlaces, hcfg, hsrc, hdst, hcalls, hfree]

/-- Settles O28: the check reads the parameters just placed, and both its outcomes set `STATUS` and forget the registers. -/
theorem nothingPersistsBetweenCalls : Obligations.NothingPersistsBetweenCalls := by
  intro s s' c hcfg hsrc hdst hcalls hfree
  have hforget := forgetRegisters_hostPlaces c hcfg hsrc hdst hcalls hfree
  unfold startCall
  by_cases hbad : (hostPlaces c s).badConfiguration
  · have hbad' : (hostPlaces c s').badConfiguration := hbad
    simp [if_pos hbad, if_pos hbad', raiseFail, hforget, dstAfterFailure, hdst]
  · have hbad' : ¬ (hostPlaces c s').badConfiguration := hbad
    simp [if_neg hbad, if_neg hbad', callReset, hforget, hcfg]

end Sys2Proof.Machine
end

section
/-! PROOFS. Memory safety of the step (spec/20_memory.md R43, R44, R58) and what a running call leaves as it was: the source, the
parameters, the bytes outside the bound (R41, R57) and the bytes it has not written yet (R57). -/

namespace Sys2Proof.Machine

/-! ### Every step has a next state -/

/-- While source bytes are left there is a header byte (spec/40_main_loop.md R89). -/
theorem fetchHeader_ne_nil {s : State} (hsp : s.sp < s.srcLen) : fetchHeader s ≠ [] := by
  intro hnil
  have hlength : (fetchHeader s).length = min 3 (s.srcLen - s.sp) := Memory.length_readBytes ..
  rw [hnil, List.length_nil] at hlength
  omega

/-- An order that fits completes and one that does not fails the call: none makes an access outside a buffer. -/
theorem exec_total {s : State} (i : Instr) (h : s.Ready) : ∃ t, exec i s = .next t := by
  rcases fits_or_failsWith i s with ⟨b, hfits⟩ | ⟨c, hfails⟩
  · obtain ⟨d, hexec, -⟩ := exec_of_fits h hfits
    exact ⟨_, hexec⟩
  · exact ⟨_, exec_of_failsWith hfails⟩

theorem loopIteration_total {s : State} (h : s.Ready) (hsp : s.sp < s.srcLen) : ∃ t, loopIteration s = .next t := by
  match hd : decode s.cfg.enc (fetchHeader s) with
  | .ok (i, rest) =>
    rw [loopIteration_of_decode hd]
    exact exec_total i (firstLineUpdate_ready h)
  | .error .malformedHeader => exact ⟨_, loopIteration_of_malformed hd⟩
  | .error .noHeaderByte => exact absurd (decode_noHeaderByte hd) (fetchHeader_ne_nil hsp)

theorem step_total {s : State} (h : s.Inv) : ∃ t, step s = .next t := by
  by_cases hbusy : s.status = .busy
  · by_cases hsp : s.sp < s.srcLen
    · rw [step_of_busy hbusy hsp]
      exact loopIteration_total (h.running hbusy).ready hsp
    · exact ⟨_, step_at_end hbusy hsp⟩
  · exact ⟨_, step_of_not_busy hbusy⟩

/-- Settles O36: an iteration completes or fails the call, and the end of the call and the host's turn always succeed. -/
theorem noAccessOutOfBounds : Obligations.NoAccessOutOfBounds := by
  intro s hinv
  obtain ⟨t, hstep⟩ := step_total hinv
  rw [hstep]
  trivial

/-! ### What a running call leaves as it was -/

/-- A completed order writes only between its two destination cursors. -/
theorem OrderDone.frame {s t : State} {i : Instr} {b : OrderBody} {d : Memory} (h : OrderDone s t i b d) {a : Nat}
    (ha : a < s.dp ∨ t.dp ≤ a) : t.dst.read a = s.dst.read a := by
  obtain ⟨-, hframe, -⟩ := h.bytes
  rw [h.dp.1] at ha
  rw [h.state, orderEnd_dst]
  exact hframe a ha

/-- Settles O37: the end of the call keeps both buffers, a failure the bytes from `DST_SIZE` on, and a completed order ends at or
below `DST_SIZE`. -/
theorem nothingOutsideTheBoundChanges : Obligations.NothingOutsideTheBoundChanges := by
  intro s t hinv hbusy hstep
  rcases step_cases_of_busy (hinv.running hbusy).ready hbusy hstep with ⟨-, rfl⟩ | ⟨-, c, rfl⟩ | ⟨-, i, b, d, hdone⟩
  · simp
  · have hdst : (firstLineUpdate s).dst.wf = true := by simpa using hinv.dst
    have hread (a : Nat) (ha : s.dstSize ≤ a) : (dstAfterFailure c (firstLineUpdate s)).read a = s.dst.read a := by
      simpa using read_dstAfterFailure_of_ge hdst c (a := a) (by simpa using ha)
    simpa using hread
  · have hsize : t.dstSize = s.dstSize := by simp [hdone.state]
    have hread (a : Nat) (ha : s.dstSize ≤ a) : t.dst.read a = s.dst.read a :=
      hdone.frame (.inr (hdone.dp.2.trans (hsize ▸ ha)))
    refine ⟨?_, ?_, ?_, ?_, ?_, ?_, hread⟩ <;> simp [hdone.state]

/-! ### Runs inside one call -/

/-- Without a running call and without a call of the host to come, the machine stays where it is. -/
theorem step_of_hostCalls_nil {s : State} (hidle : s.status ≠ .busy) (hcalls : s.hostCalls = []) : step s = .next s := by
  rw [step_of_not_busy hidle, hostTurn, hcalls]

theorem run_of_hostCalls_nil {s : State} (hidle : s.status ≠ .busy) (hcalls : s.hostCalls = []) (k : Nat) :
    Sys2Proof.core.run k s = .next s := by
  induction k with
  | zero => rfl
  | succ k ih => rw [run_succ k (step_of_hostCalls_nil hidle hcalls), ih]

/-- A call that ended stays ended when the host makes no further call. -/
theorem status_of_run {s u : State} {k : Nat} (hidle : s.status ≠ .busy) (hcalls : s.hostCalls = [])
    (hrun : Sys2Proof.core.run k s = .next u) : u.status ≠ .busy := by
  cases (run_of_hostCalls_nil hidle hcalls k).symm.trans hrun
  exact hidle

/-- What is true of a later state `u` of the call that runs in `s`: the cursor never moved back, and from it on the destination
is still that of `s`. -/
structure CallGoesOn (s u : State) : Prop where
  dp : s.dp ≤ u.dp
  unwritten : ∀ a, u.dp ≤ a → u.dst.read a = s.dst.read a

theorem CallGoesOn.refl (s : State) : CallGoesOn s s := ⟨le_rfl, fun _ _ => rfl⟩

theorem CallGoesOn.trans {s t u : State} (hst : CallGoesOn s t) (htu : CallGoesOn t u) : CallGoesOn s u where
  dp := hst.dp.trans htu.dp
  unwritten := fun a ha => (htu.unwritten a ha).trans (hst.unwritten a (htu.dp.trans ha))

theorem OrderDone.callGoesOn {s t : State} {i : Instr} {b : OrderBody} {d : Memory} (h : OrderDone s t i b d) :
    CallGoesOn s t where
  dp := h.dp.1 ▸ Nat.le_add_right _ _
  unwritten := fun _ ha => h.frame (.inr ha)

/-- Without further calls of the host, a run from a running call that ends with a call running stayed inside the one call: each
of its steps completed an order. -/
theorem callGoesOn_of_run {s u : State} {k : Nat} (hinv : s.Inv) (hbusy : s.status = .busy) (hcalls : s.hostCalls = [])
    (hrun : Sys2Proof.core.run k s = .next u) (hu : u.status = .busy) : CallGoesOn s u := by
  induction k generalizing s with
  | zero =>
    cases Host.Outcome.next.inj hrun
    exact .refl _
  | succ k ih =>
    obtain ⟨t, hstep⟩ := step_total hinv
    rw [run_succ k hstep] at hrun
    have hs := hinv.running hbusy
    rcases step_cases_of_busy hs.ready hbusy hstep with ⟨-, rfl⟩ | ⟨-, c, rfl⟩ | ⟨-, i, b, d, hdone⟩
    · exact absurd hu (status_of_run (s := finishCall s) nofun hcalls hrun)
    · exact absurd hu (status_of_run (s := raiseFail c _) nofun (by simpa using hcalls) hrun)
    · have hbusy' : t.status = .busy := by simpa [hdone.state] using hbusy
      have hcalls' : t.hostCalls = [] := by simpa [hdone.state] using hcalls
      exact hdone.callGoesOn.trans (ih (hdone.inv hinv hs) hbusy' hcalls' hrun)

/-- Settles O48: up to the end of the source every step completed an order, and the step that ends the call keeps the
destination. -/
theorem unwrittenBytesKeepTheirValue : Obligations.UnwrittenBytesKeepTheirValue := by
  intro s u k hinv hbusy hcalls hrun hu hend
  have hcall := callGoesOn_of_run hinv hbusy hcalls hrun hu
  refine ⟨by simp [State.hostView, hu], finishCall u, step_at_end hu (by omega), rfl, ?_⟩
  simpa using hcall.unwritten

end Sys2Proof.Machine
end

section
/-! PROOFS. Header bytes and order headers under the adopted table: the rows of the opcode table, and that decoding and encoding
undo each other (spec/30_encoding.md R61, R62, R75, R82). -/

namespace Sys2Proof

open Machine Claims

/-! ### What the row of a header byte says about its bits -/

/-- A word is the upper bits one mask shows and the lower bits the complementary mask shows. -/
theorem eq_append_of_and_eq {m n : Nat} {b : BitVec (m + n)} {p : BitVec m}
    (h : b &&& (BitVec.allOnes m ++ 0#n) = p ++ 0#n) :
    b = p ++ (b &&& (0#m ++ BitVec.allOnes n)).setWidth n := by
  obtain ⟨x, y, rfl⟩ : ∃ (x : BitVec m) (y : BitVec n), b = x ++ y :=
    ⟨b.extractLsb' n m, b.extractLsb' 0 n, by simp⟩
  simp only [BitVec.and_append, BitVec.and_allOnes, BitVec.and_zero] at h
  rw [(BitVec.append_left_inj _).mp h, BitVec.and_append, BitVec.setWidth_append_eq_right, BitVec.and_allOnes]

/-- A header byte with a REGULAR row is the row's three bits and the length field (spec/30_encoding.md R61). -/
theorem header_eq_of_regular_row {e : Encoding} {b : Byte} {c : OrderCode} {p : BitVec 3}
    (h : e.row b = some ⟨c, p ++ 0#5, 0xE0#8, 0x1F#8⟩) : b = p ++ (lengthField e b).setWidth 5 := by
  rw [lengthField_of_row h]
  exact eq_append_of_and_eq (m := 3) (n := 5) (eq_of_beq (Encoding.row_eq_some h).2)

/-- A header byte with a LITE row is the row's four bits and the length field (spec/30_encoding.md R61). -/
theorem header_eq_of_lite_row {e : Encoding} {b : Byte} {c : OrderCode} {p : BitVec 4}
    (h : e.row b = some ⟨c, p ++ 0#4, 0xF0#8, 0x0F#8⟩) : b = p ++ (lengthField e b).setWidth 4 := by
  rw [lengthField_of_row h]
  exact eq_append_of_and_eq (m := 4) (n := 4) (eq_of_beq (Encoding.row_eq_some h).2)

/-- A header byte with a MEGA or SPECIAL row is the row's pattern. -/
theorem header_eq_of_whole_row {e : Encoding} {b p f : Byte} {c : OrderCode} (h : e.row b = some ⟨c, p, 0xFF#8, f⟩) :
    b = p := BitVec.and_allOnes.symm.trans (eq_of_beq (Encoding.row_eq_some h).2)

/-- In the adopted table the code tells the row: every kind has one row only, and INVALID none. -/
theorem adopted_row_of_code {b : Byte} {c : OrderCode} {r : EncodingRow} (hcode : extractCode Encoding.adopted b = c)
    (hr : Encoding.adopted.rows.find? (fun q => q.code == c) = some r) : Encoding.adopted.row b = some r := by
  have hone : ∀ q ∈ Encoding.adopted.rows, Encoding.adopted.rows.find? (fun r => r.code == q.code) = some q := by decide
  subst hcode
  cases hrow : Encoding.adopted.row b with
  | none => rw [extractCode_of_no_row hrow] at hr; cases hr
  | some q =>
    rw [extractCode_of_row hrow, hone q (Encoding.row_eq_some hrow).1] at hr
    exact hr

/-! ### The opcode table -/

/-- Under the adopted table the decoder extracts the code of the pseudocode (spec/30_encoding.md R63). -/
theorem extractCode_adopted_eq_pseudocode : ∀ b : Byte, extractCode Encoding.adopted b = pseudocodeCode b := by decide

/-- The header bytes without an order under the adopted table are those of spec/30_encoding.md R75. -/
theorem extractCode_adopted_eq_invalid_iff :
    ∀ b : Byte, extractCode Encoding.adopted b = .invalid ↔ isInvalidByte b := by
  unfold isInvalidByte; decide

/-- The rows of the opcode table that accept a header byte, seen by their codes: one, with the extracted code. -/
theorem opcodeTable_codes : ∀ b : Byte,
    (opcodeTable.filter fun r => r.accepts b).map OpcodeRow.code = [extractCode Encoding.adopted b] := by decide

/-- Settles O1, by running the decoder on each word. -/
theorem specWordsDecode : Obligations.SpecWordsDecode := by
  unfold Obligations.SpecWordsDecode; decide

/-- Settles O2, header byte by header byte. -/
theorem opcodeTableMatchesDecoder : Obligations.OpcodeTableMatchesDecoder := fun b =>
  ⟨List.map_eq_singleton_iff.mp (opcodeTable_codes b), extractCode_adopted_eq_pseudocode b,
    extractCode_adopted_eq_invalid_iff b⟩

/-! ### Decoding an encoded header -/

/-- The first byte of a well-formed header's encoding carries its code (spec/30_encoding.md R63). -/
theorem extractCode_encode {i : Instr} (hwf : i.wellFormed = true) :
    extractCode Encoding.adopted ((encode i).headD 0#8) = orderCode i := by
  cases i with
  | bgRun L => exact (Laws.HeaderShape.bgRun L hwf).2
  | fgRun L => exact (Laws.HeaderShape.fgRun L hwf).2
  | fgbgImage L => exact (Laws.HeaderShape.fgbgImage L hwf).2
  | colorRun L => exact (Laws.HeaderShape.colorRun L hwf).2
  | colorImage L => exact (Laws.HeaderShape.colorImage L hwf).2
  | setFgRun L => exact (Laws.HeaderShape.setFgRun L hwf).2
  | setFgbgImage L => exact (Laws.HeaderShape.setFgbgImage L hwf).2
  | ditheredRun L => exact (Laws.HeaderShape.ditheredRun L hwf).2
  | invalidA0BF x => exact (Laws.HeaderShape.invalidA0BF x hwf).2
  | _ => simp only [encode, List.headD_cons]; rfl

/-- A REGULAR header byte with a length field other than 0 is read as the short form. -/
theorem decodeRegular_short {e : Encoding} {c : OrderCode} {p : BitVec 3} {L : BitVec 5} {short : BitVec 5 → Instr}
    {extended : Byte → Instr} {rest : List Byte} (hrow : e.row (p ++ L) = some ⟨c, p ++ 0#5, 0xE0#8, 0x1F#8⟩)
    (hL : (L != 0) = true) : decodeRegular short extended (lengthField e (p ++ L)) rest = .ok (short L, rest) := by
  have hf : (lengthField e (p ++ L)).setWidth 5 = L :=
    ((BitVec.append_right_inj p).mp (header_eq_of_regular_row hrow)).symm
  simp only [decodeRegular, hf, if_pos (bne_iff_ne.mp hL)]

/-- A LITE header byte with a length field other than 0 is read as the short form. -/
theorem decodeLite_short {e : Encoding} {c : OrderCode} {p L : BitVec 4} {short : BitVec 4 → Instr}
    {extended : Byte → Instr} {rest : List Byte} (hrow : e.row (p ++ L) = some ⟨c, p ++ 0#4, 0xF0#8, 0x0F#8⟩)
    (hL : (L != 0) = true) : decodeLite short extended (lengthField e (p ++ L)) rest = .ok (short L, rest) := by
  have hf : (lengthField e (p ++ L)).setWidth 4 = L :=
    ((BitVec.append_right_inj p).mp (header_eq_of_lite_row hrow)).symm
  simp only [decodeLite, hf, if_pos (bne_iff_ne.mp hL)]

/-- The value of a header byte written as its upper and its lower bits. -/
theorem toNat_append_eq_add {m n : Nat} (x : BitVec m) (y : BitVec n) : (x ++ y).toNat = x.toNat * 2 ^ n + y.toNat := by
  rw [BitVec.toNat_append, ← Nat.shiftLeft_add_eq_or_of_lt y.isLt, Nat.shiftLeft_eq]

/-- The header bytes 0xA0 to 0xBF take the form with five free bits (spec/30_encoding.md R75). -/
theorem invalidForm_A0BF : ∀ x : BitVec 5, invalidForm (0b101#3 ++ x) = .invalidA0BF x := by decide

/-- Settles O3: a short form's header byte has the row of its code, whose length field is the form's; the header byte of every
other form is a constant, which the decoder runs on. -/
theorem decodeOfEncode : Obligations.DecodeOfEncode := by
  intro i rest hwf
  have hcode := extractCode_encode hwf
  cases i with
  | bgRun L | fgRun L | fgbgImage L | colorRun L | colorImage L =>
    simp only [encode, List.headD_cons, List.cons_append, List.nil_append, decode] at hcode ⊢
    rw [hcode]
    exact decodeRegular_short (adopted_row_of_code hcode rfl) hwf
  | setFgRun L | setFgbgImage L | ditheredRun L =>
    simp only [encode, List.headD_cons, List.cons_append, List.nil_append, decode] at hcode ⊢
    rw [hcode]
    exact decodeLite_short (adopted_row_of_code hcode rfl) hwf
  | invalidA0BF x =>
    simp only [encode, List.headD_cons, List.cons_append, List.nil_append, decode] at hcode ⊢
    rw [hcode, invalidForm_A0BF]
    rfl
  | _ => rfl

/-! ### What decodes is an encoding -/

/-- An INVALID header byte is the encoding of the form it is given (spec/30_encoding.md R75). -/
theorem encode_invalidForm {b : Byte} (h : isInvalidByte b) : encode (invalidForm b) = [b] := by
  rcases h with ⟨hlo, hhi⟩ | rfl | rfl | rfl | rfl
  · have hb : b = 0b101#3 ++ b.setWidth 5 := by
      apply BitVec.eq_of_toNat_eq
      simp only [toNat_append_eq_add, BitVec.toNat_ofNat, BitVec.toNat_setWidth]
      omega
    rw [hb, invalidForm_A0BF, encode]
  all_goals rfl

theorem invalidForm_wellFormed (b : Byte) : (invalidForm b).wellFormed = true := by
  unfold invalidForm
  split_ifs <;> rfl

/-- A REGULAR header that decodes is written back by the encoder, in the form it was read in. -/
theorem encode_of_decodeRegular {short : BitVec 5 → Instr} {extended : Byte → Instr} {b f : Byte} {bs rest : List Byte}
    {i : Instr} {p : BitVec 3} (h : decodeRegular short extended f bs = .ok (i, rest))
    (hshort : ∀ L, encode (short L) = [p ++ L] ∧ (short L).wellFormed = (L != 0))
    (hext : ∀ n, encode (extended n) = [p ++ 0#5, n] ∧ (extended n).wellFormed = true) (hb : b = p ++ f.setWidth 5) :
    i.wellFormed = true ∧ encode i ++ rest = b :: bs := by
  unfold decodeRegular at h
  split at h
  · next hf =>
    cases h
    exact ⟨(hshort _).2.trans (bne_iff_ne.mpr hf), by simp [hshort, hb]⟩
  · next hf =>
    split at h <;> cases h
    exact ⟨(hext _).2, by simp [hext, hb, not_not.mp hf]⟩

/-- A LITE header that decodes is written back by the encoder, in the form it was read in. -/
theorem encode_of_decodeLite {short : BitVec 4 → Instr} {extended : Byte → Instr} {b f : Byte} {bs rest : List Byte}
    {i : Instr} {p : BitVec 4} (h : decodeLite short extended f bs = .ok (i, rest))
    (hshort : ∀ L, encode (short L) = [p ++ L] ∧ (short L).wellFormed = (L != 0))
    (hext : ∀ n, encode (extended n) = [p ++ 0#4, n] ∧ (extended n).wellFormed = true) (hb : b = p ++ f.setWidth 4) :
    i.wellFormed = true ∧ encode i ++ rest = b :: bs := by
  unfold decodeLite at h
  split at h
  · next hf =>
    cases h
    exact ⟨(hshort _).2.trans (bne_iff_ne.mpr hf), by simp [hshort, hb]⟩
  · next hf =>
    split at h <;> cases h
    exact ⟨(hext _).2, by simp [hext, hb, not_not.mp hf]⟩

/-- A MEGA header that decodes is written back by the encoder, low length byte first (spec/30_encoding.md R71). -/
theorem encode_of_decodeMega {mega : Byte → Byte → Instr} {b p : Byte} {bs rest : List Byte} {i : Instr}
    (h : decodeMega .lowFirst mega bs = .ok (i, rest))
    (hmega : ∀ lo hi, encode (mega lo hi) = [p, lo, hi] ∧ (mega lo hi).wellFormed = true) (hb : b = p) :
    i.wellFormed = true ∧ encode i ++ rest = b :: bs := by
  unfold decodeMega at h
  split at h <;> cases h
  exact ⟨(hmega _ _).2, by simp [hmega, hb]⟩

/-- Settles O4: the code of the header byte gives its row, the row its bits, and the decoder of each header format reads no more
than the encoder writes. -/
theorem encodeOfDecode : Obligations.EncodeOfDecode := by
  intro bs i rest h
  cases bs with
  | nil => cases h
  | cons b bs =>
    cases hcode : extractCode Encoding.adopted b with
    | bgRun | fgRun | fgbgImage | colorRun | colorImage =>
      simp only [decode, hcode] at h
      exact encode_of_decodeRegular h (fun _ => ⟨rfl, rfl⟩) (fun _ => ⟨rfl, rfl⟩)
        (header_eq_of_regular_row (adopted_row_of_code hcode rfl))
    | setFgRun | setFgbgImage | ditheredRun =>
      simp only [decode, hcode] at h
      exact encode_of_decodeLite h (fun _ => ⟨rfl, rfl⟩) (fun _ => ⟨rfl, rfl⟩)
        (header_eq_of_lite_row (adopted_row_of_code hcode rfl))
    | megaBgRun | megaFgRun | megaFgbgImage | megaColorRun | megaColorImage | megaSetFgRun | megaSetFgbgImage
    | megaDitheredRun =>
      simp only [decode, hcode] at h
      exact encode_of_decodeMega h (fun _ _ => ⟨rfl, rfl⟩) (header_eq_of_whole_row (adopted_row_of_code hcode rfl))
    | specialFgbg1 | specialFgbg2 | white | black =>
      simp only [decode, hcode] at h
      cases h
      rw [header_eq_of_whole_row (adopted_row_of_code hcode rfl)]
      exact ⟨rfl, rfl⟩
    | invalid =>
      simp only [decode, hcode] at h
      cases h
      rw [encode_invalidForm ((extractCode_adopted_eq_invalid_iff b).mp hcode)]
      exact ⟨invalidForm_wellFormed b, rfl⟩

end Sys2Proof
end

section
/-! PROOFS. What a step latches from a valid header, and that a truncated one fails the call (spec/30_encoding.md R65 to R73, R81;
spec/40_main_loop.md R91): a header that decodes is the encoding of its order. -/

namespace Sys2Proof.Machine

open Sys2Proof.Claims

/-- The length field of a short REGULAR header, in pixels or in groups of eight (spec/30_encoding.md R66, R67). -/
theorem headerOf_regular_short {p : BitVec 3} {L : BitVec 5} (n h : Byte) (hp : p.toNat < 5) (hL : (L != 0) = true) :
    headerOf (p ++ L) n h = (some (if p.toNat = 2 then L.toNat * 8 else L.toNat), 1) := by
  have hbyte := toNat_append_eq_add p L
  have hlt := L.isLt
  have hne : L.toNat ≠ 0 := fun h0 => bne_iff_ne.mp hL (BitVec.eq_of_toNat_eq h0)
  have hmod : (p ++ L).toNat % 32 = L.toNat := by omega
  have hdiv : (p ++ L).toNat / 32 = p.toNat := by omega
  rw [headerOf, if_pos (by omega), hmod, hdiv, if_neg hne]

/-- The length field of a short LITE header, in pixels or in groups of eight (spec/30_encoding.md R68, R69). -/
theorem headerOf_lite_short {p L : BitVec 4} (n h : Byte) (hlo : 12 ≤ p.toNat) (hhi : p.toNat < 15)
    (hL : (L != 0) = true) :
    headerOf (p ++ L) n h = (some (if p.toNat = 13 then L.toNat * 8 else L.toNat), 1) := by
  have hbyte := toNat_append_eq_add p L
  have hlt := L.isLt
  have hne : L.toNat ≠ 0 := fun h0 => bne_iff_ne.mp hL (BitVec.eq_of_toNat_eq h0)
  have hmod : (p ++ L).toNat % 16 = L.toNat := by omega
  have hdiv : (p ++ L).toNat / 16 = p.toNat := by omega
  rw [headerOf, if_neg (by omega), if_pos (by omega), hmod, hdiv, if_neg hne]

@[simp] theorem standsAt_nil (m : Memory) (a : Nat) : StandsAt m a [] := nofun

@[simp] theorem standsAt_cons {m : Memory} {a : Nat} {x : Byte} {bs : List Byte} :
    StandsAt m a (x :: bs) ↔ m.read a = x ∧ StandsAt m (a + 1) bs := by
  simp only [StandsAt, List.length_cons, Nat.add_assoc, Nat.add_comm 1]
  refine ⟨fun h => ⟨h 0 (Nat.succ_pos _), fun j hj => h (j + 1) (Nat.succ_lt_succ hj)⟩, fun ⟨hx, hbs⟩ j hj => ?_⟩
  cases j with
  | zero => exact hx
  | succ j => exact hbs j (Nat.lt_of_succ_lt_succ hj)

/-- The bytes of an order's header give its length and, but for the special orders, the run length of its body. -/
theorem headerOf_encode {c : Config} {i : Instr} {b : OrderBody} {m : Memory} {a : Nat} (henc : c.enc = Encoding.adopted)
    (hbody : bodyOf c i = some b) (hwf : i.wellFormed = true) (hstands : StandsAt m a (encode i)) :
    (headerOf (m.read a) (m.read (a + 1)) (m.read (a + 2))).2 = headerBytes i ∧
      ∀ n, (headerOf (m.read a) (m.read (a + 1)) (m.read (a + 2))).1 = some n → b.runLength = n := by
  cases i with
  | bgRun L | fgRun L | fgbgImage L | colorRun L | colorImage L =>
    cases hbody
    rw [(standsAt_cons.mp hstands).1, headerOf_regular_short _ _ (by decide) hwf]
    simp [headerBytes, encode, OrderBody.runLength, lengthRegular, lengthFgbg, henc]
  | setFgRun L | setFgbgImage L | ditheredRun L =>
    cases hbody
    rw [(standsAt_cons.mp hstands).1, headerOf_lite_short _ _ (by decide) (by decide) hwf]
    simp [headerBytes, encode, OrderBody.runLength, lengthLite, lengthSetFgbg, henc]
  | bgRunX n | fgRunX n | fgbgImageX n | colorRunX n | colorImageX n | setFgRunX n | setFgbgImageX n | ditheredRunX n =>
    cases hbody
    simp only [encode, standsAt_cons] at hstands
    obtain ⟨hb, hn, -⟩ := hstands
    simp [hb, hn, headerOf, headerBytes, encode, OrderBody.runLength, lengthRegularX, lengthLiteX, lengthFgbgX, henc]
  | megaBgRun lo hi | megaFgRun lo hi | megaFgbgImage lo hi | megaColorRun lo hi | megaColorImage lo hi
  | megaSetFgRun lo hi | megaSetFgbgImage lo hi | megaDitheredRun lo hi =>
    cases hbody
    simp only [encode, standsAt_cons] at hstands
    obtain ⟨hb, hlo, hhi, -⟩ := hstands
    simp [hb, hlo, hhi, headerOf, headerBytes, encode, OrderBody.runLength, lengthMega]
  | specialFgbg1 | specialFgbg2 | white | black =>
    rw [(standsAt_cons.mp hstands).1]
    simp [headerOf, headerBytes, encode]
  | invalidA0BF | invalidF5 | invalidFB | invalidFC | invalidFF => cases hbody

/-- Under the adopted table a header that decodes at the cursor is well formed and stands there as its encoding. -/
theorem standsAt_of_decode {s : State} {i : Instr} {rest : List Byte} (henc : s.cfg.enc = Encoding.adopted)
    (h : decode s.cfg.enc (fetchHeader s) = .ok (i, rest)) :
    i.wellFormed = true ∧ StandsAt s.src s.sp (encode i) := by
  rw [henc] at h
  obtain ⟨hwf, hfetch⟩ := encodeOfDecode _ _ _ h
  refine ⟨hwf, fun j hj => ?_⟩
  have hlength : j < min 3 (s.srcLen - s.sp) := by
    have hsum := congrArg List.length hfetch
    rw [List.length_append, fetchHeader, Memory.length_readBytes] at hsum
    omega
  calc s.src.read (s.sp + j) = (fetchHeader s).getD j 0 := (Memory.getD_readBytes _ _ hlength).symm
    _ = (encode i).getD j 0 := by rw [← hfetch, List.getD_append _ _ _ _ hj]

/-- A well-formed header whose first byte is valid has a body (spec/30_encoding.md R75). -/
theorem exists_bodyOf {c : Config} {i : Instr} {m : Memory} {a : Nat} (hwf : i.wellFormed = true)
    (hstands : StandsAt m a (encode i)) (hvalid : ¬ isInvalidByte (m.read a)) : ∃ b, bodyOf c i = some b := by
  have hfirst : (encode i).headD 0#8 = m.read a := by
    rw [show m.read a = _ from hstands 0 (headerBytes_pos i)]
    cases encode i <;> rfl
  refine Option.ne_none_iff_exists'.mp fun hnone => hvalid ?_
  rw [← hfirst, ← extractCode_adopted_eq_invalid_iff, extractCode_encode hwf]
  exact bodyOf_eq_none_iff.mp hnone

/-- A completed order leaves in `advance` and `runLength` what its header gave them. -/
theorem orderEnd_latched (i : Instr) (b : OrderBody) (s : State) (d : Memory) :
    (orderEnd i b s d).advance = headerBytes i ∧ (orderEnd i b s d).runLength = b.runLength := by
  cases b <;> exact ⟨rfl, rfl⟩

/-- Settles O5: a header that decodes stands in the source as its encoding, so its bytes give the length the decoder consumed and
the run length of the body; one that does not decode is truncated. -/
theorem headerBytesGiveRunLength : Obligations.HeaderBytesGiveRunLength := by
  rintro s hinv henc hbusy hsp hvalid _ rfl
  rw [step_of_busy hbusy hsp]
  match hd : decode s.cfg.enc (fetchHeader s) with
  | .ok (i, rest) =>
    obtain ⟨hwf, hstands⟩ := standsAt_of_decode henc hd
    obtain ⟨b, hbody⟩ := exists_bodyOf (c := s.cfg) hwf hstands hvalid
    obtain ⟨hadvance, hlength⟩ := headerOf_encode henc hbody hwf hstands
    rw [hadvance]
    refine ⟨fun hshort => absurd (srcAvail_headerBytes hsp hd) hshort, fun _ t hstep ht => ?_⟩
    rw [loopIteration_of_decode hd] at hstep
    obtain ⟨b', d, hfits, rfl, -⟩ := exec_cases_of_busy (firstLineUpdate_ready (hinv.running hbusy).ready) hstep ht
    obtain rfl : b = b' := Option.some.inj (hbody.symm.trans (by simpa using hfits.body))
    obtain ⟨hadv, hrun⟩ := orderEnd_latched i b (firstLineUpdate s) d
    exact ⟨hadv, fun n hn => hrun.trans (hlength n hn)⟩
  | .error .malformedHeader =>
    rw [loopIteration_of_malformed hd]
    exact ⟨fun _ => rfl, fun _ t hstep ht => by cases hstep; cases ht⟩
  | .error .noHeaderByte => exact absurd (decode_noHeaderByte hd) (fetchHeader_ne_nil hsp)

end Sys2Proof.Machine
end

section
/-! PROOFS. When an order of the main loop completes (spec/40_main_loop.md R94, R186), and that a running call ends (R98). -/

namespace Sys2Proof.Machine

open Sys2Proof.Claims

/-! ### Completion of one order -/

theorem exists_bodyOf_of_valid {c : Config} {i : Instr} (h : orderCode i ≠ .invalid) : ∃ b, bodyOf c i = some b :=
  Option.ne_none_iff_exists'.mp (mt bodyOf_eq_none_iff.mp h)

/-- Past a header that was in the source, the source phase of a body asks for the operands alone. -/
theorem sourceOk_bodyStart_iff {i : Instr} {b : OrderBody} {s : State} (hheader : s.srcAvail (headerBytes i)) :
    b.SourceOk (bodyStart i b s) ↔ s.srcAvail (headerBytes i + b.operands s.pxBytes) := by
  cases hchecks : b.checksSource with
  | true => simp [OrderBody.SourceOk, hchecks, State.srcAvail, bodyStart, Nat.add_assoc]
  | false => simpa [OrderBody.SourceOk, hchecks, b.operands_eq_zero hchecks] using hheader

/-- Settles O23: the sizes of an order are those of its body, and they decide between the three ends of an order. -/
theorem orderCompletesExactlyWhenItFits : Obligations.OrderCompletesExactlyWhenItFits := by
  intro s i hready hheader hvalid
  obtain ⟨b, hbody⟩ := exists_bodyOf_of_valid (c := s.cfg) hvalid
  obtain ⟨hpixels, hoperands⟩ := bodyOf_sizes hbody
  rw [← hpixels, ← hoperands, ← sourceOk_bodyStart_iff hheader]
  refine ⟨fun hs => exec_of_failsWith (.source b hbody hs), fun hs hd => exec_of_failsWith (.room b hbody hs hd),
    fun hs hd => ?_⟩
  obtain ⟨d, hexec, -⟩ := exec_of_fits hready ⟨hbody, hs, hd⟩
  exact ⟨_, hexec, orderEnd_status .., orderEnd_sp .., orderEnd_dp ..⟩

/-! ### The end of the call -/

theorem lengthMega_le (lo hi : Byte) : lengthMega lo hi ≤ 65535 := by
  have hlo := lo.isLt
  have hhi := hi.isLt
  unfold lengthMega
  omega

/-- Under the adopted table no order writes more pixels than the longest mega dithered run (spec/40_main_loop.md R98). -/
theorem orderPixels_adopted_le (i : Instr) : orderPixels Encoding.adopted i ≤ 2 * 65535 := by
  cases i with
  | bgRun L | fgRun L | fgbgImage L | colorRun L | colorImage L | setFgRun L | setFgbgImage L | ditheredRun L =>
    have hL := L.isLt
    simp only [orderPixels, lengthRegular, lengthLite, lengthFgbg, lengthSetFgbg, Encoding.adopted_imageScale]
    omega
  | bgRunX n | fgRunX n | fgbgImageX n | colorRunX n | colorImageX n | setFgRunX n | setFgbgImageX n | ditheredRunX n =>
    have hn := n.isLt
    simp only [orderPixels, lengthRegularX, lengthLiteX, lengthFgbgX, Encoding.adopted_regularBias,
      Encoding.adopted_liteBias, Encoding.adopted_imageBias]
    omega
  | megaBgRun lo hi | megaFgRun lo hi | megaFgbgImage lo hi | megaColorRun lo hi | megaColorImage lo hi
  | megaSetFgRun lo hi | megaSetFgbgImage lo hi | megaDitheredRun lo hi =>
    have hmega := lengthMega_le lo hi
    simp only [orderPixels]
    omega
  | specialFgbg1 | specialFgbg2 | white | black => decide
  | invalidA0BF | invalidF5 | invalidFB | invalidFC | invalidFF => exact Nat.zero_le _

/-- A completed order consumed at least its header byte. -/
theorem OrderDone.sp_lt {s t : State} {i : Instr} {b : OrderBody} {d : Memory} (h : OrderDone s t i b d) :
    s.sp + 1 ≤ t.sp := by
  have hheader := headerBytes_pos i
  have hsp := h.sp.1
  omega

/-- Under the adopted table a completed order moved the destination cursor by at most `2 * 65535` pixels. -/
theorem OrderDone.dp_le_of_adopted {s t : State} {i : Instr} {b : OrderBody} {d : Memory} (h : OrderDone s t i b d)
    (henc : s.cfg.enc = Encoding.adopted) : t.dp ≤ s.dp + 2 * 65535 * s.pxBytes := by
  obtain ⟨hpixels, -⟩ := bodyOf_sizes h.fits.body
  rw [firstLineUpdate_cfg, henc] at hpixels
  rw [h.dp.1, hpixels]
  exact Nat.add_le_add_left (Nat.mul_le_mul_right _ (orderPixels_adopted_le i)) _

theorem OrderDone.status {s t : State} {i : Instr} {b : OrderBody} {d : Memory} (h : OrderDone s t i b d) :
    t.status = s.status := by simp [h.state]

theorem OrderDone.srcLen {s t : State} {i : Instr} {b : OrderBody} {d : Memory} (h : OrderDone s t i b d) :
    t.srcLen = s.srcLen := by simp [h.state]

/-- A running call ends within one step for each source byte left and one more, by induction on the source bytes left: each
completed order leaves fewer. -/
theorem exists_run_ends {s : State} (hinv : s.Inv) (hbusy : s.status = .busy) :
    ∃ k t, k ≤ s.srcLen - s.sp + 1 ∧ Sys2Proof.core.run k s = .next t ∧ (t.status = .ok ∨ t.status = .fail) := by
  induction hleft : s.srcLen - s.sp using Nat.strong_induction_on generalizing s with
  | _ left ih =>
  obtain ⟨t, hstep⟩ := step_total hinv
  have hs := hinv.running hbusy
  rcases step_cases_of_busy hs.ready hbusy hstep with ⟨-, rfl⟩ | ⟨-, c, rfl⟩ | ⟨hsp, i, b, d, hdone⟩
  · exact ⟨1, _, by omega, run_succ 0 hstep, .inl rfl⟩
  · exact ⟨1, _, by omega, run_succ 0 hstep, .inr rfl⟩
  · have hlt := hdone.sp_lt
    have hlen := hdone.srcLen
    obtain ⟨k, u, hk, hrun, hend⟩ := ih (t.srcLen - t.sp) (by omega) (hdone.inv hinv hs) (hdone.status.trans hbusy) rfl
    exact ⟨k + 1, u, by omega, (run_succ k hstep).trans hrun, hend⟩

/-- Settles O39: an iteration fails the call or completes an order, which consumes its header and writes its pixels. -/
theorem callAlwaysEnds : Obligations.CallAlwaysEnds := by
  refine ⟨fun s t hinv hbusy hsp hstep => ?_, fun s hinv hbusy => exists_run_ends hinv hbusy⟩
  rcases step_cases_of_busy (hinv.running hbusy).ready hbusy hstep with ⟨hend, -⟩ | ⟨-, c, rfl⟩ | ⟨-, i, b, d, hdone⟩
  · exact absurd hsp hend
  · exact .inl rfl
  · exact .inr ⟨hdone.sp_lt, hdone.dp_le_of_adopted⟩

end Sys2Proof.Machine
end

section
/-! PROOFS. The main loop around its orders (spec/40_main_loop.md R85 to R93, R97): how a call starts and ends, what an iteration
runs, the two flags an order hands to the next, and mega orders of length 0 (R95). -/

namespace Sys2Proof.Machine

open Sys2Proof.Claims

/-! ### START -/

/-- When no call runs, the host's next call is started (spec/40_main_loop.md R85). -/
theorem step_of_hostCalls_cons {s : State} {c : HostCall} {rest : List HostCall} (hidle : s.status ≠ .busy)
    (hcalls : s.hostCalls = c :: rest) : step s = .next (startCall c { s with hostCalls := rest }) := by
  rw [step_of_not_busy hidle, hostTurn, hcalls]

theorem startCall_of_badConfiguration {c : HostCall} {s : State} (h : (hostPlaces c s).badConfiguration) :
    startCall c s = raiseFail .invalidConfiguration (hostPlaces c s) := if_pos h

theorem startCall_of_legal {c : HostCall} {s : State} (h : ¬ (hostPlaces c s).badConfiguration) :
    startCall c s = callReset (hostPlaces c s) := if_neg h

/-- A START that leaves the call running has made a call reset. -/
theorem startCall_of_busy {c : HostCall} {s : State} (h : (startCall c s).status = .busy) :
    startCall c s = callReset (hostPlaces c s) := by
  by_cases hbad : (hostPlaces c s).badConfiguration
  · rw [startCall_of_badConfiguration hbad] at h
    cases h
  · exact startCall_of_legal hbad

/-- Settles O26: the START is the failure of the state the host has placed, whose destination InvalidConfiguration keeps. -/
theorem badConfigurationFailsFirst : Obligations.BadConfigurationFailsFirst := by
  intro s c rest hidle hcalls hbad
  refine ⟨_, step_of_hostCalls_cons hidle hcalls, ?_⟩
  rw [startCall_of_badConfiguration hbad]
  exact ⟨rfl, rfl, rfl, rfl, rfl⟩

/-- Settles O27: the START is the call reset of the state the host has placed. -/
theorem startBeginsTheCall : Obligations.StartBeginsTheCall := by
  intro s c rest hidle hcalls hrow hwidth
  have hlegal : ¬ (hostPlaces c { s with hostCalls := rest }).badConfiguration :=
    not_or.mpr ⟨hrow, Nat.not_lt.mpr hwidth⟩
  refine ⟨_, step_of_hostCalls_cons hidle hcalls, ?_⟩
  rw [startCall_of_legal hlegal]
  simp

/-! ### The end of the call -/

/-- Settles O29: only the end of the source gives OK: a failure gives FAIL, and a completed order leaves the call running. -/
theorem successExactlyAtEndOfSource : Obligations.SuccessExactlyAtEndOfSource := by
  refine ⟨fun s hbusy hend => ⟨_, step_at_end hbusy (by omega), by simp⟩, fun s t hinv hbusy hstep hok => ?_⟩
  have hs := hinv.running hbusy
  rcases step_cases_of_busy hs.ready hbusy hstep with ⟨hend, -⟩ | ⟨-, c, rfl⟩ | ⟨-, i, b, d, hdone⟩
  · exact Nat.le_antisymm hs.sp (Nat.not_lt.mp hend)
  · cases hok
  · cases hok.symm.trans (hdone.status.trans hbusy)

/-! ### The order an iteration runs -/

/-- Settles O30: the step is one iteration, and the iteration runs what it decodes. -/
theorem stepRunsDecodedOrder : Obligations.StepRunsDecodedOrder := fun _ _ _ hbusy hsp hdecode =>
  (step_of_busy hbusy hsp).trans (loopIteration_of_decode hdecode)

theorem headerBytes_le_three (i : Instr) : headerBytes i ≤ 3 := by
  cases i <;> simp [headerBytes, encode]

/-- Bytes that stand at an offset are what a read from there begins with. -/
theorem readBytes_of_standsAt {m : Memory} {a : Nat} {bs : List Byte} (h : StandsAt m a bs) (k : Nat) :
    m.readBytes a (bs.length + k) = bs ++ m.readBytes (a + bs.length) k := by
  induction bs generalizing a with
  | nil => simp
  | cons x bs ih =>
    obtain ⟨hx, hbs⟩ := standsAt_cons.mp h
    rw [List.length_cons, Nat.add_right_comm, Memory.readBytes, hx, ih hbs, Nat.add_assoc a, Nat.add_comm 1]
    rfl

/-- A header that stands at the cursor inside the source is what the fetch begins with. -/
theorem fetchHeader_of_standsAt {s : State} {i : Instr} (hheader : s.srcAvail (headerBytes i))
    (hstands : StandsAt s.src s.sp (encode i)) : ∃ rest, fetchHeader s = encode i ++ rest := by
  simp only [State.srcAvail] at hheader
  have hle := headerBytes_le_three i
  obtain ⟨k, hk⟩ : ∃ k, min 3 (s.srcLen - s.sp) = (encode i).length + k :=
    Nat.exists_eq_add_of_le (show headerBytes i ≤ _ by omega)
  exact ⟨_, by rw [fetchHeader, hk, readBytes_of_standsAt hstands k]⟩

/-- Settles O31: the fetch begins with the header, which decodes to its order whatever follows. -/
theorem stepRunsEncodedOrder : Obligations.StepRunsEncodedOrder := by
  intro s i henc hbusy hwf hheader hstands
  obtain ⟨rest, hfetch⟩ := fetchHeader_of_standsAt hheader hstands
  have hpos := headerBytes_pos i
  have hsp : s.sp < s.srcLen := by simp only [State.srcAvail] at hheader; omega
  exact stepRunsDecodedOrder s i rest hbusy hsp (by rw [henc, hfetch]; exact decodeOfEncode i rest hwf)

/-! ### A placed word -/

theorem standsAt_writeBytes {m : Memory} (h : m.wf = true) (a : Nat) (bs : List Byte) :
    StandsAt (m.writeBytes a bs) a bs := by
  intro j hj
  rw [Memory.read_writeBytes h, if_pos (by omega), Nat.add_sub_cancel_left]

theorem standsAt_left {m : Memory} {a : Nat} {bs cs : List Byte} (h : StandsAt m a (bs ++ cs)) : StandsAt m a bs := by
  intro j hj
  rw [h j (by rw [List.length_append]; omega), List.getD_append _ _ _ _ hj]

/-- A word is decoded from its bytes. -/
theorem decode_of_decodeTableWord {nbits w : Nat} {i : Instr} (h : decodeTableWord nbits w = some i) :
    ∃ rest, decode Encoding.adopted (tableWordBytes nbits w) = .ok (i, rest) := by
  unfold decodeTableWord decodeWord at h
  split at h
  · next hdecode => cases h; exact ⟨_, hdecode⟩
  · cases h

/-- The order of a word placed at the cursor of a running call is the one the step runs. -/
theorem step_placeOrder {s : State} {nbits w : Nat} {i : Instr} (henc : s.cfg.enc = Encoding.adopted)
    (hbusy : s.status = .busy) (hsrc : s.src.wf = true) (h : decodeTableWord nbits w = some i) :
    step (placeOrder nbits w s) = exec i (firstLineUpdate (placeOrder nbits w s)) := by
  obtain ⟨rest, hdecode⟩ := decode_of_decodeTableWord h
  obtain ⟨hwf, hword⟩ := encodeOfDecode _ _ _ hdecode
  have hlen : (placeOrder nbits w s).srcLen = s.sp + (headerBytes i + operandBytes s.cfg.enc s.pxBytes i) := by
    have hi : decodeWord s.cfg.enc nbits w = some i := by rw [henc]; exact h
    show s.sp + orderBytes _ _ _ = _
    rw [hi]
    rfl
  have hstands : StandsAt (placeOrder nbits w s).src s.sp (encode i ++ rest) := by
    rw [hword]
    exact standsAt_writeBytes (Memory.keepBelow_sortedFrom hsrc) _ _
  refine stepRunsEncodedOrder _ i henc hbusy hwf ?_ (standsAt_left hstands)
  show s.sp + headerBytes i ≤ _
  omega

/-- While the cursor is in the first row the update does nothing. -/
theorem firstLineUpdate_of_lt {s : State} (h : s.dp < s.rowDelta) : firstLineUpdate s = s :=
  if_neg fun hf => by omega

/-- Settles O32: after reset the word is placed in a call whose cursor is in the first row. -/
theorem placedWordRunsFirst : Obligations.PlacedWordRunsFirst := by
  intro nbits w i h
  have hplaced : State.reset.withFetchWord nbits w = placeOrder nbits w (openCall State.reset) := rfl
  have hrow : (placeOrder nbits w (openCall State.reset)).dp < (placeOrder nbits w (openCall State.reset)).rowDelta :=
    show 0 < 2 * 65535 * 1 by decide
  rw [hplaced, step_placeOrder rfl rfl rfl h, firstLineUpdate_of_lt hrow]

/-! ### The two flags -/

/-- The body of a header has a set-color step exactly for the set-color orders. -/
theorem bodyOf_setsColor {c : Config} {i : Instr} {b : OrderBody} (h : bodyOf c i = some b) :
    b.setsColor = isSetColor (orderCode i) := by
  cases i <;> cases h <;> rfl

/-- An order that leaves the call running sets the insert flag exactly when it is a background run. -/
theorem exec_fInsertFgPel {i : Instr} {s t : State} (hready : s.Ready) (he : exec i s = .next t)
    (ht : t.status = .busy) : t.fInsertFgPel = isBackground (orderCode i) := by
  obtain ⟨b, d, -, rfl, -⟩ := exec_cases_of_busy hready he ht
  exact orderEnd_fInsertFgPel ..

/-- Settles O18: every order ends with the insert-flag update, also in a step, and a START with call reset. -/
theorem insertFlagAfterOrder : Obligations.InsertFlagAfterOrder := by
  refine ⟨fun s t i hready _ => exec_fInsertFgPel hready, fun s t i rest hinv hbusy hsp hdecode hstep => ?_,
    fun c s hstart => ?_⟩
  · rw [stepRunsDecodedOrder s i rest hbusy hsp hdecode] at hstep
    exact exec_fInsertFgPel (firstLineUpdate_ready (hinv.running hbusy).ready) hstep
  · rw [startCall_of_busy hstart]
    rfl

/-- The update clears the insert flag only where it clears `fFirstLine`, and only in a build that asks for it
(spec/00_scope.md R12). -/
theorem firstLineUpdate_fInsertFgPel (s : State) :
    (firstLineUpdate s).fInsertFgPel =
      (s.fInsertFgPel && !(s.cfg.clearInsertOnLineChange && s.fFirstLine && decide (s.rowDelta ≤ s.dp))) := by
  unfold firstLineUpdate
  split
  · next h =>
    obtain ⟨hfirst, hrow⟩ := h
    cases hclear : s.cfg.clearInsertOnLineChange <;> simp [hfirst, hrow]
  · next h =>
    cases hfirst : s.fFirstLine with
    | true => simp [show ¬ s.rowDelta ≤ s.dp from fun hrow => h ⟨hfirst, hrow⟩]
    | false => simp

theorem firstLineUpdate_eq (s : State) :
    firstLineUpdate s = { s with
      fFirstLine := (firstLineUpdate s).fFirstLine
      fInsertFgPel := (firstLineUpdate s).fInsertFgPel } := by
  unfold firstLineUpdate
  split <;> rfl

/-- In a ready state the update makes `fFirstLine` say whether the cursor is in the first row: it is false only below. -/
theorem firstLineUpdate_fFirstLine_of_ready {s : State} (h : s.Ready) :
    (firstLineUpdate s).fFirstLine = decide (s.dp < s.rowDelta) := by
  rw [firstLineUpdate_fFirstLine]
  cases hfirst : s.fFirstLine with
  | true => rw [Bool.true_and]
  | false => exact (decide_eq_false (Nat.not_lt.mpr (h.above hfirst))).symm

/-- Settles O19: the step's only write to `fFirstLine` is the update, since the order keeps it. -/
theorem firstLineFlagIsFrozen : Obligations.FirstLineFlagIsFrozen := by
  refine ⟨fun s => ⟨firstLineUpdate_fFirstLine s, firstLineUpdate_fInsertFgPel s, firstLineUpdate_eq s⟩,
    fun s t hinv hbusy hstep ht => ?_⟩
  have hready := (hinv.running hbusy).ready
  rcases step_cases_of_busy hready hbusy hstep with ⟨-, rfl⟩ | ⟨-, c, rfl⟩ | ⟨-, i, b, d, hdone⟩
  · cases ht
  · cases ht
  · rw [hdone.state, orderEnd_fFirstLine, firstLineUpdate_fFirstLine_of_ready hready]

/-! ### Orders of length 0 -/

/-- A run of no pixels leaves the destination as it was. -/
theorem dst_eq_of_runBytes_zero {s : State} {d : Memory} {px : Nat → Nat → Byte} (hdst : s.dst.wf = true)
    (h : RunBytes s d 0 px) : d = s.dst := by
  obtain ⟨hwf, hframe, -⟩ := h
  exact Memory.eq_of_read_eq hwf hdst fun a => hframe a (by omega)

/-- An order of no pixels, with its header and operands in the source, completes and consumes them. -/
theorem exec_of_no_pixels (i : Instr) {s : State} (hready : s.Ready) (hdp : s.dp ≤ s.dstSize)
    (hvalid : orderCode i ≠ .invalid) (hpixels : orderPixels s.cfg.enc i = 0)
    (hsrc : s.srcAvail (headerBytes i + operandBytes s.cfg.enc s.pxBytes i)) :
    ∃ t, exec i s = .next t ∧ t.dst = s.dst ∧ t.dp = s.dp ∧
      t.sp = s.sp + headerBytes i + operandBytes s.cfg.enc s.pxBytes i ∧
      t.fgPel = (if isSetColor (orderCode i) = true then s.src.readBytes (s.sp + headerBytes i) s.pxBytes else s.fgPel) ∧
      t.status = s.status ∧ t.fInsertFgPel = isBackground (orderCode i) := by
  obtain ⟨b, hbody⟩ := exists_bodyOf_of_valid (c := s.cfg) hvalid
  obtain ⟨hsize, hoperands⟩ := bodyOf_sizes hbody
  have hnone : b.pixels = 0 := hsize.trans hpixels
  rw [← hoperands] at hsrc ⊢
  have hheader : s.srcAvail (headerBytes i) := by simp only [State.srcAvail] at hsrc ⊢; omega
  obtain ⟨d, hexec, hbytes⟩ := exec_of_fits hready
    ⟨hbody, (sourceOk_bodyStart_iff hheader).mpr hsrc, by simpa [State.dstAvail, hnone] using hdp⟩
  rw [hnone] at hbytes
  obtain rfl : d = s.dst := dst_eq_of_runBytes_zero hready.dst hbytes
  refine ⟨_, hexec, orderEnd_dst .., by simp [hnone], orderEnd_sp .., ?_, orderEnd_status ..,
    orderEnd_fInsertFgPel ..⟩
  rw [orderEnd_fgPel, OrderBody.fg, bodyOf_setsColor hbody]
  rfl

/-- Settles O15: a mega header with length bytes 0 stands for no pixel, so the order consumes its header and literals alone. -/
theorem zeroLengthMegaOrders : Obligations.ZeroLengthMegaOrders := by
  intro s hready hdp
  refine ⟨fun hs i hi => ?_, fun hs i hi => ?_, exec_of_no_pixels (.megaColorRun 0 0) hready hdp nofun rfl,
    exec_of_no_pixels (.megaDitheredRun 0 0) hready hdp nofun rfl⟩
  · have hcopied : operandBytes s.cfg.enc s.pxBytes (.megaColorImage 0 0) = 0 := Nat.zero_mul _
    simp only [List.mem_cons, List.not_mem_nil, or_false] at hi
    rcases hi with rfl | rfl | rfl | rfl
    · exact exec_of_no_pixels (.megaBgRun 0 0) hready hdp nofun rfl hs
    · exact exec_of_no_pixels (.megaFgRun 0 0) hready hdp nofun rfl hs
    · exact exec_of_no_pixels (.megaFgbgImage 0 0) hready hdp nofun rfl hs
    · have hdone := exec_of_no_pixels (.megaColorImage 0 0) hready hdp nofun rfl
      rw [hcopied] at hdone
      exact hdone hs
  · have hdone : ∃ t, exec i s = .next t ∧ t.dst = s.dst ∧ t.dp = s.dp ∧ t.sp = s.sp + 3 + s.pxBytes ∧
        t.fgPel = s.src.readBytes (s.sp + 3) s.pxBytes ∧ t.status = s.status ∧ t.fInsertFgPel = false := by
      simp only [List.mem_cons, List.not_mem_nil, or_false] at hi
      rcases hi with rfl | rfl
      · exact exec_of_no_pixels (.megaSetFgRun 0 0) hready hdp nofun rfl hs
      · exact exec_of_no_pixels (.megaSetFgbgImage 0 0) hready hdp nofun rfl hs
    obtain ⟨t, hexec, hdst, hdp', hsp, hfg, hstatus, hinsert⟩ := hdone
    exact ⟨t, hexec, hdst, hdp', hsp, hstatus, hfg, hinsert⟩

end Sys2Proof.Machine
end

section
/-! PROOFS. The order forms of the statements as headers of the model: the body a form stands for, and the state a completed
order of the form leaves (spec/30_encoding.md R62, R72; spec/40_main_loop.md R91, R93). -/

namespace Sys2Proof.Machine

open Sys2Proof.Claims

/-- The body is that of a background run (spec/40_main_loop.md R93). -/
def OrderBody.isBackground : OrderBody → Bool
  | background _ => true
  | _ => false

/-- The orders whose body is that of a background run are those that set the insert flag. -/
theorem bodyOf_isBackground {c : Config} {i : Instr} {b : OrderBody} (h : bodyOf c i = some b) :
    isBackgroundRun (orderCode i) = b.isBackground := by
  cases i <;> cases h <;> rfl

/-- Form `f` is a header with body `b` in build `c`: what the form says its header gives is what the model reads from it. -/
structure StandsFor (c : Config) (f : Form) (b : OrderBody) : Prop where
  body : bodyOf c f.instr = some b
  code : orderCode f.instr = f.code
  runLength : b.runLength = f.length
  advance : headerBytes f.instr = f.advance

section
variable {c : Config} {n lo hi : Byte} {f : Form}

theorem standsFor_of_mem_bgForms {L : BitVec 5} (h : f ∈ bgForms c.enc L n lo hi) :
    StandsFor c f (.background f.length) := by
  simp only [bgForms, List.mem_cons, List.not_mem_nil, or_false] at h
  rcases h with rfl | rfl | rfl <;> exact ⟨rfl, rfl, rfl, rfl⟩

theorem standsFor_of_mem_fgForms {L : BitVec 5} (h : f ∈ fgForms c.enc L n lo hi) :
    StandsFor c f (.foreground false f.length) := by
  simp only [fgForms, List.mem_cons, List.not_mem_nil, or_false] at h
  rcases h with rfl | rfl | rfl <;> exact ⟨rfl, rfl, rfl, rfl⟩

theorem standsFor_of_mem_setFgForms {L : BitVec 4} (h : f ∈ setFgForms c.enc L n lo hi) :
    StandsFor c f (.foreground true f.length) := by
  simp only [setFgForms, List.mem_cons, List.not_mem_nil, or_false] at h
  rcases h with rfl | rfl | rfl <;> exact ⟨rfl, rfl, rfl, rfl⟩

end

section
variable {s : State} {f : Form} {b : OrderBody} (hf : StandsFor s.cfg f b)
include hf

theorem StandsFor.bodyStart_eq : bodyStart f.instr b s = loadHeader f.code f.length f.advance s := by
  rw [bodyStart, hf.code, hf.runLength, hf.advance]

theorem StandsFor.orderEnd_eq (d : Memory) : orderEnd f.instr b s d =
    { b.after (loadHeader f.code f.length f.advance s) d with fInsertFgPel := b.isBackground } := by
  rw [orderEnd, hf.bodyStart_eq, insertFlagUpdate, bodyOf_isBackground hf.body]

/-- A form that fits completes. -/
theorem StandsFor.exec_completes (h : s.Ready) (hs : b.SourceOk (loadHeader f.code f.length f.advance s))
    (hd : s.dstAvail b.pixels) :
    ∃ d, exec f.instr s =
        .next { b.after (loadHeader f.code f.length f.advance s) d with fInsertFgPel := b.isBackground } ∧
      RunBytes s d b.pixels (b.byte (loadHeader f.code f.length f.advance s) d) := by
  rw [← hf.bodyStart_eq] at hs
  obtain ⟨d, hexec, hbytes⟩ := exec_of_fits h ⟨hf.body, hs, hd⟩
  rw [hf.bodyStart_eq] at hbytes
  exact ⟨d, hexec.trans (by rw [hf.orderEnd_eq]), hbytes⟩

/-- A form whose source phase fails. -/
theorem StandsFor.exec_sourceExhaustion (hs : ¬ b.SourceOk (loadHeader f.code f.length f.advance s)) :
    exec f.instr s = .next (raiseFail .sourceExhaustion s) :=
  exec_of_failsWith (.source b hf.body (by rwa [hf.bodyStart_eq]))

/-- A form whose pixels have no room. -/
theorem StandsFor.exec_destinationOverflow (hs : b.SourceOk (loadHeader f.code f.length f.advance s))
    (hd : ¬ s.dstAvail b.pixels) : exec f.instr s = .next (raiseFail .destinationOverflow s) :=
  exec_of_failsWith (.room b hf.body (by rwa [hf.bodyStart_eq]) hd)

end

/-- The source phase of a body that has one asks for the header and the operands. -/
theorem sourceOk_loadHeader_iff {b : OrderBody} {c : OrderCode} {n adv : Nat} {s : State} (hb : b.checksSource = true) :
    b.SourceOk (loadHeader c n adv s) ↔ s.srcAvail (adv + b.operands s.pxBytes) := by
  simp [OrderBody.SourceOk, hb, State.srcAvail, Nat.add_assoc]

end Sys2Proof.Machine
end

section
/-! PROOFS. Prediction runs (spec/41_prediction_runs.md): the pixel generators, the results of background and foreground runs,
and what follows for runs on the first line (R110), one after another (R109) and longer than a row (R112). -/

namespace Sys2Proof.Machine

open Sys2Proof.Claims

/-! ### Results -/

/-- Settles O6: a background run has no source phase, so the room alone decides; the end and the bytes of its body are, by
definition, those of the statement. -/
theorem backgroundRunResult : Obligations.BackgroundRunResult := by
  intro s L n lo hi f hmem h
  have hf := standsFor_of_mem_bgForms hmem
  exact ⟨hf.exec_completes h nofun, hf.exec_destinationOverflow nofun⟩

theorem plainForegroundRuns : PlainForegroundRuns := by
  intro s L n lo hi f hmem h
  have hf := standsFor_of_mem_fgForms hmem
  exact ⟨hf.exec_completes h nofun, hf.exec_destinationOverflow nofun⟩

theorem setColorForegroundRuns : SetColorForegroundRuns := by
  rintro s L n lo hi f hmem h _ rfl
  have hf := standsFor_of_mem_setFgForms hmem
  have hsource := sourceOk_loadHeader_iff (b := .foreground true f.length) (c := f.code) (n := f.length)
    (adv := f.advance) (s := s) rfl
  exact ⟨fun hs => hf.exec_completes h (hsource.mpr hs), fun hs => hf.exec_sourceExhaustion (mt hsource.mp hs),
    fun hs => hf.exec_destinationOverflow (hsource.mpr hs)⟩

/-- Settles O7: the source phase of a set-color form asks for the header and its literal, a plain form has none. -/
theorem foregroundRunResult : Obligations.ForegroundRunResult := ⟨plainForegroundRuns, setColorForegroundRuns⟩

/-! ### The pixel generators -/

/-- A pixel of zeros is neutral (spec/00_scope.md R16). -/
theorem xorPixel_zeros (v : Pixel) : xorPixel (List.replicate v.length 0x00#8) v = v := by
  refine List.ext_getElem (by simp) fun j hj _ => ?_
  simp [xorPixel]

/-- Settles O16: the generators read the row above below the first line alone, and a row of zeros leaves `fgPel`. -/
theorem pixelGenerators : Obligations.PixelGenerators := by
  intro s h hc
  refine ⟨fun hfirst => ⟨bgPixel_firstLine hfirst, fgPixel_firstLine hfirst, fun hblack => ?_⟩, fun hbelow => ?_⟩
  · rw [fgPixel_firstLine hfirst, hblack, ← h.fgPel, xorPixel_zeros]
  · refine ⟨_, _, bgPixel_below h hbelow hc, fgPixel_below h hbelow hc, by simp, by simp [h.fgPel], fun j hj => ⟨?_, ?_⟩⟩
    · exact Memory.getD_readBytes _ _ hj
    · exact getD_xorPixel (by simpa using hj) (by rwa [h.fgPel])

/-! ### Runs on the first line -/

/-- Settles O44: on the first line neither generator reads the destination, wherever in the run. -/
theorem firstLineRunsAreLiteral : Obligations.FirstLineRunsAreLiteral := by
  intro s L n lo hi f h hfirst hd
  refine ⟨fun hmem => ?_, fun hmem => ?_⟩
  · obtain ⟨d, hexec, hbytes⟩ := (plainForegroundRuns s L n lo hi f hmem h).1 hd
    exact ⟨_, hexec, by simpa only [fgByte, if_pos hfirst] using hbytes⟩
  · obtain ⟨d, hexec, hbytes⟩ := (backgroundRunResult s L n lo hi f hmem h).1 hd
    exact ⟨_, hexec, by simpa only [fgByte, bgByte, if_pos hfirst] using hbytes⟩

/-! ### Runs below the first line, with rows at least a pixel long -/

/-- The row above a pixel of the run is that of the finished run (spec/20_memory.md R47, R51). -/
theorem aboveByte_of_row {s : State} {d : Memory} {k j : Nat} (hrow : s.pxBytes ≤ s.rowDelta) (hj : j < s.pxBytes) :
    aboveByte s d k j = d.read (s.dp + k * s.pxBytes + j - s.rowDelta) :=
  if_pos (by omega)

section
variable {s : State} {d : Memory} {n k j : Nat} (hbelow : s.fFirstLine = false) (hrow : s.pxBytes ≤ s.rowDelta)
include hbelow hrow

theorem bgByte_below (hj : j < s.pxBytes) : bgByte s d k j = d.read (s.dp + k * s.pxBytes + j - s.rowDelta) := by
  simp [bgByte, hbelow, aboveByte_of_row hrow hj]

theorem fgByte_below (fg : Pixel) (hj : j < s.pxBytes) :
    fgByte s d fg k j = d.read (s.dp + k * s.pxBytes + j - s.rowDelta) ^^^ fg.getD j 0 := by
  simp [fgByte, hbelow, aboveByte_of_row hrow hj]

/-- A background run copies the finished row above, but XORs its inserted pixel. -/
theorem read_background_below (h : RunBytes s d n ((OrderBody.background n).byte s d)) (hk : k < n) (hj : j < s.pxBytes) :
    d.read (s.dp + k * s.pxBytes + j) =
      if s.fInsertFgPel = true ∧ k = 0 then d.read (s.dp + k * s.pxBytes + j - s.rowDelta) ^^^ s.fgPel.getD j 0
      else d.read (s.dp + k * s.pxBytes + j - s.rowDelta) := by
  obtain ⟨-, -, hread⟩ := h
  rw [hread k hk j hj, OrderBody.byte, fgByte_below hbelow hrow _ hj, bgByte_below hbelow hrow hj]

/-- A foreground run XORs the finished row above with `fgPel`. -/
theorem read_foreground_below (h : RunBytes s d n fun k j => fgByte s d s.fgPel k j) {a : Nat} (hlo : s.dp ≤ a)
    (hhi : a < s.dp + n * s.pxBytes) :
    d.read a = d.read (a - s.rowDelta) ^^^ s.fgPel.getD ((a - s.dp) % s.pxBytes) 0 := by
  obtain ⟨-, -, hread⟩ := h
  obtain ⟨k, j, hk, hj, rfl⟩ := exists_pixel_byte (pxBytes_pos s) hlo hhi
  have hoffset : (s.dp + k * s.pxBytes + j - s.dp) % s.pxBytes = j := by
    rw [Nat.add_assoc, Nat.add_sub_cancel_left, Nat.mul_add_mod', Nat.mod_eq_of_lt hj]
  rw [hoffset, ← fgByte_below hbelow hrow _ hj]
  exact hread k hk j hj

end

/-- The state a background run leaves, with the destination `d`. -/
def backgroundEnd (f : Form) (s : State) (d : Memory) : State :=
  { s with
    code := f.code
    runLength := f.length
    advance := f.advance
    sp := s.sp + f.advance
    dp := s.dp + f.length * s.pxBytes
    fInsertFgPel := true
    dst := d }

theorem backgroundEnd_ready {f : Form} {s : State} {d : Memory} (h : s.Ready) (hd : d.wf = true) :
    (backgroundEnd f s d).Ready :=
  ⟨h.cfg, hd, h.fgPel, fun hf => (h.above hf).trans (Nat.le_add_right _ _)⟩

/-- A background run that fits leaves `backgroundEnd`, with the bytes of its body. -/
theorem exec_background {s : State} {L : BitVec 5} {n lo hi : Byte} {f : Form} (hmem : f ∈ bgForms s.cfg.enc L n lo hi)
    (h : s.Ready) (hd : s.dstAvail f.length) :
    ∃ d, exec f.instr s = .next (backgroundEnd f s d) ∧
      RunBytes s d f.length ((OrderBody.background f.length).byte s d) :=
  (backgroundRunResult s L n lo hi f hmem h).1 hd

/-- Settles O45: the second run begins in the state the first leaves, with the insert flag set, and keeps its bytes. -/
theorem backgroundRunAdjacency : Obligations.BackgroundRunAdjacency := by
  intro s L L' n n' lo lo' hi hi' f g hmemf hmemg h hbelow hrow hpos hd
  have hd' : s.dp + f.length * s.pxBytes + g.length * s.pxBytes ≤ s.dstSize := by
    rwa [State.dstAvail, Nat.add_mul, ← Nat.add_assoc] at hd
  obtain ⟨d, hexec, hbytes⟩ := exec_background hmemf h ((Nat.le_add_right _ _).trans hd')
  have ⟨hwf, _, _⟩ := hbytes
  obtain ⟨e, hexec', hbytes'⟩ := exec_background (s := backgroundEnd f s d) hmemg (backgroundEnd_ready h hwf) hd'
  refine ⟨_, _, hexec, hexec', rfl, fun k hk j hj => ?_⟩
  by_cases hfirst : k < f.length
  · obtain ⟨-, hframe', -⟩ := hbytes'
    have hkept : ∀ a, a < s.dp + f.length * s.pxBytes → e.read a = d.read a := fun a ha => hframe' a (.inl ha)
    have hend : (k + 1) * s.pxBytes ≤ f.length * s.pxBytes := Nat.mul_le_mul_right _ hfirst
    rw [Nat.succ_mul] at hend
    show e.read _ = if _ then e.read _ ^^^ _ else e.read _
    rw [hkept _ (by omega), hkept _ (by omega), read_background_below hbelow hrow hbytes hfirst hj]
    simp [hfirst.ne]
  · obtain ⟨m, rfl⟩ := Nat.exists_eq_add_of_le (Nat.not_lt.mp hfirst)
    have hpixel := read_background_below (s := backgroundEnd f s d) hbelow hrow hbytes' (k := m) (by omega) hj
    have hplace : (backgroundEnd f s d).dp + m * (backgroundEnd f s d).pxBytes = s.dp + (f.length + m) * s.pxBytes := by
      rw [Nat.add_mul, ← Nat.add_assoc]
      rfl
    rw [hplace] at hpixel
    simpa [backgroundEnd, hpos.ne'] using hpixel

/-- Settles O46: from one row on no byte is of the inserted pixel, and two XORs with one foreground byte cancel. -/
theorem runsLongerThanARow : Obligations.RunsLongerThanARow := by
  intro s L n lo hi f h hbelow hrow hd
  refine ⟨fun hmem => ?_, fun hmem => ?_⟩
  · obtain ⟨d, hexec, hbytes⟩ := exec_background hmem h hd
    refine ⟨_, hexec, fun a hlo hhi => ?_⟩
    obtain ⟨k, j, hk, hj, rfl⟩ := exists_pixel_byte (pxBytes_pos s) (Nat.le_of_add_right_le hlo) hhi
    have hk0 : k ≠ 0 := by
      rintro rfl
      omega
    exact (read_background_below hbelow hrow hbytes hk hj).trans (if_neg fun hins => hk0 hins.2)
  · obtain ⟨d, hexec, hbytes⟩ := (plainForegroundRuns s L n lo hi f hmem h).1 hd
    have hxor := fun a => read_foreground_below (a := a) hbelow hrow hbytes
    refine ⟨_, hexec, fun a hlo => hxor a (by omega), fun ⟨c, hc⟩ a hlo hhi => ?_⟩
    have hsame : (a - s.rowDelta - s.dp) % s.pxBytes = (a - s.dp) % s.pxBytes := by
      rw [show a - s.dp = a - s.rowDelta - s.dp + s.rowDelta by omega, hc, Nat.add_mul_mod_self_left]
    show d.read a = d.read (a - 2 * s.rowDelta)
    rw [hxor a (by omega) hhi, hxor (a - s.rowDelta) (by omega) (by omega), hsame, BitVec.xor_assoc, BitVec.xor_self,
      BitVec.xor_zero]
    congr 1
    omega

end Sys2Proof.Machine
end

section
/-! PROOFS. Literal orders (spec/42_literal_runs.md): the results of dithered runs and color runs, and that an order whose pixels
come from the source or are constants knows nothing of rows but the size of the destination (R122). -/

namespace Sys2Proof.Machine

open Sys2Proof.Claims

/-! ### Results -/

section
variable {c : Config} {n lo hi : Byte} {f : Form}

theorem standsFor_of_mem_ditheredForms {L : BitVec 4} (h : f ∈ ditheredForms c.enc L n lo hi) :
    StandsFor c f (.dithered f.length) := by
  simp only [ditheredForms, List.mem_cons, List.not_mem_nil, or_false] at h
  rcases h with rfl | rfl | rfl <;> exact ⟨rfl, rfl, rfl, rfl⟩

theorem standsFor_of_mem_colorRunForms {L : BitVec 5} (h : f ∈ colorRunForms c.enc L n lo hi) :
    StandsFor c f (.color f.length) := by
  simp only [colorRunForms, List.mem_cons, List.not_mem_nil, or_false] at h
  rcases h with rfl | rfl | rfl <;> exact ⟨rfl, rfl, rfl, rfl⟩

end

/-- Without a set-color step the operands of a body are its data. -/
theorem OrderBody.operands_eq_dataBytes {b : OrderBody} (h : b.setsColor = false) (P : Nat) :
    b.operands P = b.dataBytes P := by
  simp [operands, colorBytes, h]

/-- The three ends of a form whose body checks the source but has no set-color step (spec/40_main_loop.md R94). -/
theorem StandsFor.exec_ends_of_data {s : State} {f : Form} {b : OrderBody} (hf : StandsFor s.cfg f b) (h : s.Ready)
    (hchecks : b.checksSource = true) (hplain : b.setsColor = false) :
    (s.srcAvail (f.advance + b.dataBytes s.pxBytes) → s.dstAvail b.pixels → ∃ d,
      exec f.instr s =
        .next { b.after (loadHeader f.code f.length f.advance s) d with fInsertFgPel := b.isBackground } ∧
      RunBytes s d b.pixels (b.byte (loadHeader f.code f.length f.advance s) d)) ∧
    (¬ s.srcAvail (f.advance + b.dataBytes s.pxBytes) → exec f.instr s = .next (raiseFail .sourceExhaustion s)) ∧
    (s.srcAvail (f.advance + b.dataBytes s.pxBytes) → ¬ s.dstAvail b.pixels →
      exec f.instr s = .next (raiseFail .destinationOverflow s)) := by
  have hsource := sourceOk_loadHeader_iff (c := f.code) (n := f.length) (adv := f.advance) (s := s) hchecks
  rw [OrderBody.operands_eq_dataBytes hplain] at hsource
  exact ⟨fun hs => hf.exec_completes h (hsource.mpr hs), fun hs => hf.exec_sourceExhaustion (mt hsource.mp hs),
    fun hs => hf.exec_destinationOverflow (hsource.mpr hs)⟩

/-- Settles O8: the data of a dithered run are its two literals, and pixel `k` is the literal number `k mod 2`. -/
theorem ditheredRunResult : Obligations.DitheredRunResult := by
  intro s L n lo hi f hmem h
  exact (standsFor_of_mem_ditheredForms hmem).exec_ends_of_data h rfl rfl

/-- Settles O9: the data of a color run are its one literal, which is every pixel. -/
theorem colorRunResult : Obligations.ColorRunResult := by
  intro s L n lo hi f hmem h
  exact (standsFor_of_mem_colorRunForms hmem).exec_ends_of_data h rfl rfl

/-! ### Another row geometry -/

/-- What the orders that predict from the row above read beside the destination: where its rows stand, and the flags and the
foreground colour that decide how a row is drawn. -/
structure RowView where
  rowDelta : Nat
  height : Nat
  fFirstLine : Bool
  fInsertFgPel : Bool
  fgPel : Pixel

/-- `s` under the row view `r`. -/
def RowView.put (r : RowView) (s : State) : State :=
  { s with
    rowDelta := r.rowDelta
    height := r.height
    fFirstLine := r.fFirstLine
    fInsertFgPel := r.fInsertFgPel
    fgPel := r.fgPel }

/-- The view does not change the size of the destination (spec/00_scope.md R13). -/
def RowView.KeepsSize (r : RowView) (s : State) : Prop := r.rowDelta * r.height = s.dstSize

/-- A computation that completed gave what its continuation completed with. -/
theorem exists_ok_of_bind_eq_ok {α β : Type} {x : Except Stop α} {f : α → Except Stop β} {y : β}
    (h : (x >>= f) = .ok y) : ∃ a, x = .ok a ∧ f a = .ok y := by
  cases x with
  | error e => cases h
  | ok a => exact ⟨a, rfl, h⟩

/-- A body completes when its checks succeed and its write phase completes (spec/40_main_loop.md R94). -/
theorem OrderBody.run_eq_ok_iff {b : OrderBody} {s t : State} :
    b.run s = .ok t ↔ b.SourceOk s ∧ s.dstAvail b.pixels ∧ b.write (b.prepared s) = .ok t := by
  by_cases hs : b.SourceOk s
  · by_cases hd : s.dstAvail b.pixels
    · simp [b.run_of_sourceOk hs, requireDst_ok (b.dstAvail_prepared.mpr hd), hs, hd]
    · simp [b.run_destinationOverflow hs hd, hd]
  · simp [b.run_sourceExhaustion hs, hs]

section
variable {r : RowView}

theorem dstAvail_put {s : State} (hr : r.KeepsSize s) {n : Nat} : (r.put s).dstAvail n ↔ s.dstAvail n := by
  have hsize : (r.put s).dstSize = s.dstSize := hr
  simp only [State.dstAvail, hsize]
  rfl

theorem writePixel_put {s t : State} {v : Pixel} (hr : r.KeepsSize s) (h : writePixel v s = .ok t) :
    writePixel v (r.put s) = .ok (r.put t) ∧ r.KeepsSize t := by
  by_cases hfits : s.dp + v.length ≤ s.dstSize
  · have hfits' : (r.put s).dp + v.length ≤ (r.put s).dstSize := hfits.trans_eq hr.symm
    simp only [writePixel, memWriteDst, if_pos hfits, if_pos hfits', bind_ok, pure_eq_ok] at h ⊢
    cases h
    exact ⟨rfl, hr⟩
  · simp [writePixel, memWriteDst, hfits] at h

theorem readSrcPixel_put {s t : State} {v : Pixel} (hr : r.KeepsSize s) (h : readSrcPixel s = .ok (v, t)) :
    readSrcPixel (r.put s) = .ok (v, r.put t) ∧ r.KeepsSize t := by
  obtain ⟨w, hw, h⟩ := exists_ok_of_bind_eq_ok h
  have hw' : memReadSrc (r.put s) (r.put s).sp (r.put s).pxBytes = .ok w := hw
  cases h
  exact ⟨by rw [readSrcPixel, hw']; rfl, hr⟩

/-- A write loop that completed does so under the view too, when its generator does not see the view. -/
theorem writeRun_put {gen : Nat → State → Except Stop Pixel} (hgen : ∀ k s, gen k (r.put s) = gen k s)
    {i n : Nat} {s t : State} (hr : r.KeepsSize s) (h : writeRun gen i n s = .ok t) :
    writeRun gen i n (r.put s) = .ok (r.put t) := by
  induction n generalizing i s with
  | zero => cases h; rfl
  | succ n ih =>
    obtain ⟨v, hv, h⟩ := exists_ok_of_bind_eq_ok h
    obtain ⟨u, hu, h⟩ := exists_ok_of_bind_eq_ok h
    obtain ⟨hu', hr'⟩ := writePixel_put hr hu
    simp only [writeRun, hgen, hv, hu', bind_ok]
    exact ih hr' h

theorem copyPixels_put {n : Nat} {s t : State} (hr : r.KeepsSize s) (h : copyPixels n s = .ok t) :
    copyPixels n (r.put s) = .ok (r.put t) := by
  induction n generalizing s with
  | zero => cases h; rfl
  | succ n ih =>
    obtain ⟨⟨v, u⟩, hv, h⟩ := exists_ok_of_bind_eq_ok h
    obtain ⟨hv', hr'⟩ := readSrcPixel_put hr hv
    obtain ⟨w, hw, h⟩ := exists_ok_of_bind_eq_ok h
    obtain ⟨hw', hr''⟩ := writePixel_put hr' hw
    simp only [copyPixels, hv', hw', bind_ok]
    exact ih hr'' h

namespace OrderBody

/-- The body writes literals or a constant (spec/42_literal_runs.md R122). -/
def isLiteral : OrderBody → Bool
  | color _ => true
  | dithered _ => true
  | image _ => true
  | single _ => true
  | _ => false

/-- A literal body that completed does so under every view that keeps the size of the destination. -/
theorem run_put {b : OrderBody} {s t : State} (hb : b.isLiteral = true) (hr : r.KeepsSize s) (h : b.run s = .ok t) :
    b.run (r.put s) = .ok (r.put t) := by
  obtain ⟨hs, hd, hw⟩ := run_eq_ok_iff.mp h
  refine run_eq_ok_iff.mpr ⟨hs, (dstAvail_put hr).mpr hd, ?_⟩
  cases b with
  | color n => exact writeRun_put (s := (color n).prepared s) (fun _ _ => rfl) hr hw
  | dithered n => exact writeRun_put (s := (dithered n).prepared s) (fun _ _ => rfl) hr hw
  | image n => exact copyPixels_put hr hw
  | single v => exact (writePixel_put hr hw).1
  | background | foreground | fgbg | special => cases hb

end OrderBody

end

/-- The literal orders are those whose body is literal. -/
theorem bodyOf_isLiteral {c : Config} {i : Instr} {b : OrderBody} (h : bodyOf c i = some b) :
    b.isLiteral = isLiteral (orderCode i) := by
  cases i <;> cases h <;> rfl

/-- A literal order that left the call running does so under every view that keeps the size of the destination; it writes the
insert flag and hands on the rest of the view. -/
theorem exec_put_of_isLiteral {r : RowView} {i : Instr} {s t : State} (hliteral : isLiteral (orderCode i) = true)
    (hr : r.KeepsSize s) (he : exec i s = .next t) (ht : t.status = .busy) :
    exec i (r.put s) = .next { r.put t with fInsertFgPel := t.fInsertFgPel } := by
  have hvalid : orderCode i ≠ .invalid := fun hinvalid => by simp [hinvalid, isLiteral] at hliteral
  obtain ⟨b, hbody⟩ := exists_bodyOf_of_valid (c := s.cfg) hvalid
  rw [exec_of_bodyOf hbody] at he
  rcases runOrder_cases he with ⟨u, hrun, rfl⟩ | ⟨e, rfl⟩
  · have hput : b.run (r.put (bodyStart i b s)) = .ok (r.put u) :=
      b.run_put ((bodyOf_isLiteral hbody).trans hliteral) hr hrun
    exact (exec_of_bodyOf (s := r.put s) hbody).trans (runOrder_of_ok (s := r.put s) hput)
  · cases ht

/-- Settles O43: the other geometry, flags and foreground colour are a view of the same size. -/
theorem literalOrdersIgnoreTheRowAbove : Obligations.LiteralOrdersIgnoreTheRowAbove :=
  fun _ _ _ rd h first insert fg _ _ hliteral hsize he ht =>
    exec_put_of_isLiteral (r := ⟨rd, h, first, insert, fg⟩) hliteral hsize he ht

end Sys2Proof.Machine
end

section
/-! PROOFS. Image orders (spec/43_image_orders.md): the group writer (R125), and the results of FG/BG images and color images as
those of their bodies (R126, R132). -/

namespace Sys2Proof.Machine

open Sys2Proof.Claims

/-! ### The group writer -/

/-- The group writer leaves the cursor behind the group, whose pixels the bits of `bitmask` choose. -/
theorem writeFgBgGroup_bytes {s : State} {g : Nat} (h : s.Ready) (hd : s.dstAvail g) :
    ∃ d, writeFgBgGroup g s = .ok { s with dp := s.dp + g * s.pxBytes, dst := d } ∧
      RunBytes s d g fun k j =>
        if s.bitmask.getLsbD k = true then fgByte s d s.fgPel k j else bgByte s d k j :=
  writeRun_bytes (gen := maskedPixel)
    (px := fun d k j => if s.bitmask.getLsbD k = true then fgByte s d s.fgPel k j else bgByte s d k j) h hd
    (fun k _ _ hu hc => maskedPixel_total k hu hc)
    (fun _ u k v hmid hu hc hv j hj => by
      have hmask : u.bitmask = s.bitmask := by rw [hu]
      rw [maskedPixel, hmask] at hv
      exact hmid.getD_chosen hc hv hj)

/-- A masked pixel looks at its own bit of the mask alone. -/
theorem maskedPixel_congr_mask {s : State} {m : Byte} {i : Nat} (h : m.getLsbD i = s.bitmask.getLsbD i) :
    maskedPixel i { s with bitmask := m } = maskedPixel i s := by
  simp only [maskedPixel, h]
  rfl

/-- A pixel write neither reads nor writes `bitmask`. -/
theorem writePixel_bitmask {s t : State} {v : Pixel} (m : Byte) (h : writePixel v s = .ok t) :
    writePixel v { s with bitmask := m } = .ok { t with bitmask := m } ∧ t.bitmask = s.bitmask := by
  by_cases hfits : s.dp + v.length ≤ s.dstSize
  · have hfits' : s.dp + v.length ≤ ({ s with bitmask := m } : State).dstSize := hfits
    simp only [writePixel, memWriteDst, if_pos hfits, if_pos hfits', bind_ok, pure_eq_ok] at h ⊢
    cases h
    exact ⟨rfl, rfl⟩
  · simp [writePixel, memWriteDst, hfits] at h

/-- A completed masked run completes the same under any mask that agrees on the bits of its pixels. -/
theorem writeRun_maskedPixel_congr_mask {i n : Nat} {s t : State} {m : Byte}
    (hagree : ∀ k, i ≤ k → k < i + n → m.getLsbD k = s.bitmask.getLsbD k) (h : writeRun maskedPixel i n s = .ok t) :
    writeRun maskedPixel i n { s with bitmask := m } = .ok { t with bitmask := m } := by
  induction n generalizing i s with
  | zero => cases h; rfl
  | succ n ih =>
    obtain ⟨v, hv, h⟩ := exists_ok_of_bind_eq_ok h
    obtain ⟨u, hu, h⟩ := exists_ok_of_bind_eq_ok h
    obtain ⟨hu', hmask⟩ := writePixel_bitmask m hu
    simp only [writeRun, maskedPixel_congr_mask (hagree i (Nat.le_refl i) (by omega)), hv, hu', bind_ok]
    exact ih (fun k hlo hhi => by rw [hmask]; exact hagree k (by omega) (by omega)) h

/-- Settles O17: pixel `k` of the group is chosen by bit `k`, and no other bit is looked at. -/
theorem groupWriterFollowsMask : Obligations.GroupWriterFollowsMask := by
  intro s g _ h hd
  have hgroup := writeFgBgGroup_bytes h hd
  refine ⟨hgroup, fun m hagree => ?_⟩
  obtain ⟨d, hrun, -⟩ := hgroup
  exact ⟨_, _, hrun, writeRun_maskedPixel_congr_mask (fun k _ hk => hagree k (by omega)) hrun, rfl⟩

/-! ### Results -/

section
variable {c : Config} {n lo hi : Byte} {f : Form}

theorem standsFor_of_mem_fgbgForms {L : BitVec 5} (h : f ∈ fgbgForms c.enc L n lo hi) :
    StandsFor c f (.fgbg false f.length) := by
  simp only [fgbgForms, List.mem_cons, List.not_mem_nil, or_false] at h
  rcases h with rfl | rfl | rfl <;> exact ⟨rfl, rfl, rfl, rfl⟩

theorem standsFor_of_mem_setFgbgForms {L : BitVec 4} (h : f ∈ setFgbgForms c.enc L n lo hi) :
    StandsFor c f (.fgbg true f.length) := by
  simp only [setFgbgForms, List.mem_cons, List.not_mem_nil, or_false] at h
  rcases h with rfl | rfl | rfl <;> exact ⟨rfl, rfl, rfl, rfl⟩

theorem standsFor_of_mem_colorImageForms {L : BitVec 5} (h : f ∈ colorImageForms c.enc L n lo hi) :
    StandsFor c f (.image f.length) := by
  simp only [colorImageForms, List.mem_cons, List.not_mem_nil, or_false] at h
  rcases h with rfl | rfl | rfl <;> exact ⟨rfl, rfl, rfl, rfl⟩

end

theorem plainFgbgImages : PlainFgbgImages := by
  rintro s L n lo hi f hmem h _ _ rfl rfl
  exact (standsFor_of_mem_fgbgForms hmem).exec_ends_of_data h rfl rfl

theorem setColorFgbgImages : SetColorFgbgImages := by
  rintro s L n lo hi f hmem h _ _ _ rfl rfl rfl
  have hf := standsFor_of_mem_setFgbgForms hmem
  have hsource : (OrderBody.fgbg true f.length).SourceOk (loadHeader f.code f.length f.advance s) ↔
      s.srcAvail (f.advance + s.pxBytes + (f.length + 7) / 8) := by
    rw [sourceOk_loadHeader_iff rfl, Nat.add_assoc]
    rfl
  exact ⟨fun hs => hf.exec_completes h (hsource.mpr hs), fun hs => hf.exec_sourceExhaustion (mt hsource.mp hs),
    fun hs => hf.exec_destinationOverflow (hsource.mpr hs)⟩

/-- Settles O10: the data of an FG/BG image are its mask bytes, which a set-color form reads behind its literal. -/
theorem fgbgImageResult : Obligations.FgbgImageResult := ⟨plainFgbgImages, setColorFgbgImages⟩

/-- Settles O11: the data of a color image are its pixels. -/
theorem colorImageResult : Obligations.ColorImageResult := by
  intro s L n lo hi f hmem h
  exact (standsFor_of_mem_colorImageForms hmem).exec_ends_of_data h rfl rfl

end Sys2Proof.Machine
end

section
/-! PROOFS. A stream of color images reproduces its operand bytes (spec/43_image_orders.md R135): an order that stands in the source
with room for its pixels completes, a color image copies its operands behind what the orders before it wrote, and the end of
the source ends the call in success. -/

namespace Sys2Proof.Machine

open Sys2Proof.Claims

theorem streamOf_cons (x : Form × List Byte) (cs : List (Form × List Byte)) :
    streamOf (x :: cs) = encode x.1.instr ++ x.2 ++ streamOf cs := List.flatMap_cons ..

theorem gridOf_cons (x : Form × List Byte) (cs : List (Form × List Byte)) : gridOf (x :: cs) = x.2 ++ gridOf cs :=
  List.flatMap_cons ..

theorem standsAt_append {m : Memory} {a : Nat} {bs cs : List Byte} :
    StandsAt m a (bs ++ cs) ↔ StandsAt m a bs ∧ StandsAt m (a + bs.length) cs := by
  induction bs generalizing a with
  | nil => simp
  | cons x bs ih => simp [ih, and_assoc, Nat.add_assoc, Nat.add_comm 1]

/-- Under the adopted table the step of a running call completes the order whose header stands at the cursor, when its operands
are in the source and its pixels have room. -/
theorem exists_orderDone {s : State} {i : Instr} {b : OrderBody} (hready : s.Ready) (henc : s.cfg.enc = Encoding.adopted)
    (hbusy : s.status = .busy) (hwf : i.wellFormed = true) (hbody : bodyOf s.cfg i = some b)
    (hstands : StandsAt s.src s.sp (encode i)) (hsrc : s.srcAvail (headerBytes i + b.operands s.pxBytes))
    (hd : s.dstAvail b.pixels) : ∃ t d, step s = .next t ∧ OrderDone s t i b d := by
  have hheader : s.srcAvail (headerBytes i) := by simp only [State.srcAvail] at hsrc ⊢; omega
  have hfits : Fits i b (firstLineUpdate s) :=
    { body := by simpa using hbody
      source := (sourceOk_bodyStart_iff (by simpa [State.srcAvail] using hheader)).mpr
        (by simpa [State.srcAvail] using hsrc)
      room := by simpa [State.dstAvail] using hd }
  obtain ⟨d, hexec, hbytes⟩ := exec_of_fits (firstLineUpdate_ready hready) hfits
  exact ⟨_, d, (stepRunsEncodedOrder s i henc hbusy hwf hheader hstands).trans hexec, hheader, hfits, rfl,
    by simpa [RunBytes] using hbytes⟩

/-- A completed color image has copied the bytes that stand behind its header. -/
theorem OrderDone.standsAt_of_image {s t : State} {i : Instr} {n : Nat} {d : Memory} {bs : List Byte}
    (h : OrderDone s t i (.image n) d) (hstands : StandsAt s.src (s.sp + headerBytes i) bs)
    (hlength : bs.length = n * s.pxBytes) : StandsAt t.dst s.dp bs := by
  intro j hj
  obtain ⟨-, -, hread⟩ := h.bytes
  obtain ⟨k, x, hk, hx, hplace⟩ :=
    exists_pixel_byte (dp := s.dp) (n := n) (a := s.dp + j) (pxBytes_pos s) (by omega) (by omega)
  obtain rfl : j = k * s.pxBytes + x := by omega
  rw [← hstands _ hj, h.state, orderEnd_dst, hplace, hread k hk x hx]
  simp [OrderBody.byte, bodyStart, Nat.add_assoc]

/-- The rest of the source of the running call is the stream of the color images `cs`, and the rest of the destination has room
for their operand bytes. -/
structure AtStream (s : State) (cs : List (Form × List Byte)) : Prop where
  inv : s.Inv
  busy : s.status = .busy
  enc : s.cfg.enc = Encoding.adopted
  chunks : ∀ x ∈ cs, IsColorImageChunk s.cfg.enc s.pxBytes x
  stands : StandsAt s.src s.sp (streamOf cs)
  srcLen : s.srcLen = s.sp + (streamOf cs).length
  room : s.dp + (gridOf cs).length ≤ s.dstSize

/-- A step at a stream completes its first color image: the call stands at the rest of the stream, and behind what the
destination held below the cursor stand the operand bytes. -/
theorem AtStream.step_cons {s : State} {x : Form × List Byte} {cs : List (Form × List Byte)}
    (h : AtStream s (x :: cs)) :
    ∃ t, step s = .next t ∧ AtStream t cs ∧ t.dp = s.dp + x.2.length ∧ StandsAt t.dst s.dp x.2 ∧
      ∀ a, a < s.dp → t.dst.read a = s.dst.read a := by
  obtain ⟨⟨L, n, lo, hi, hmem⟩, hwf, hlength⟩ := h.chunks _ List.mem_cons_self
  have hstands := h.stands
  have hsrcLen := h.srcLen
  have hroom := h.room
  simp only [streamOf_cons, gridOf_cons, List.length_append, standsAt_append, ← Nat.add_assoc] at hstands hsrcLen hroom
  obtain ⟨⟨hheader, hoperands⟩, hrest⟩ := hstands
  have hbody := (standsFor_of_mem_colorImageForms hmem).body
  have hdata : (OrderBody.image x.1.length).operands s.pxBytes = x.2.length :=
    (OrderBody.operands_eq_dataBytes rfl _).trans hlength.symm
  have hpixels : (OrderBody.image x.1.length).pixels * s.pxBytes = x.2.length := hlength.symm
  have hrun := h.inv.running h.busy
  obtain ⟨t, d, hstep, hdone⟩ := exists_orderDone hrun.ready h.enc h.busy hwf hbody hheader
    (by rw [State.srcAvail, hdata, headerBytes]; omega) (by rw [State.dstAvail, hpixels]; omega)
  have hsp : t.sp = s.sp + (encode x.1.instr).length + x.2.length := by
    rw [hdone.sp.1, hdata, headerBytes, Nat.add_assoc]
  have hdp : t.dp = s.dp + x.2.length := by rw [hdone.dp.1, hpixels]
  refine ⟨t, hstep, ?_, hdp, hdone.standsAt_of_image hoperands hlength, fun a ha => hdone.frame (.inl ha)⟩
  exact
    { inv := hdone.inv h.inv hrun
      busy := hdone.status.trans h.busy
      enc := by simpa [hdone.state] using h.enc
      chunks := fun y hy => by simpa [hdone.state] using h.chunks y (List.mem_cons_of_mem _ hy)
      stands := by rw [hsp]; simpa [hdone.state] using hrest
      srcLen := by rw [hsp, hdone.srcLen, hsrcLen]
      room := by
        have hsize : t.dstSize = s.dstSize := by simp [hdone.state]
        rw [hdp, hsize]
        exact hroom }

/-- A call at a stream succeeds after one step for each order and one for the end, with the operand bytes behind what the
destination held below the cursor; by induction on the orders. -/
theorem AtStream.run_succeeds {s : State} {cs : List (Form × List Byte)} (h : AtStream s cs) :
    ∃ t, Sys2Proof.core.run (cs.length + 1) s = .next t ∧ t.status = .ok ∧ StandsAt t.dst s.dp (gridOf cs) ∧
      ∀ a, a < s.dp → t.dst.read a = s.dst.read a := by
  induction cs generalizing s with
  | nil =>
    have hend : ¬ s.sp < s.srcLen := by rw [h.srcLen]; exact Nat.lt_irrefl _
    exact ⟨_, run_succ 0 (step_at_end h.busy hend), rfl, standsAt_nil _ _, fun _ _ => rfl⟩
  | cons x cs ih =>
    obtain ⟨t, hstep, hstream, hdp, hfirst, hkept⟩ := h.step_cons
    obtain ⟨u, hrun, hok, hlater, hkept'⟩ := ih hstream
    rw [hdp] at hlater hkept'
    refine ⟨u, (run_succ _ hstep).trans hrun, hok, ?_, fun a ha => ?_⟩
    · rw [gridOf_cons, standsAt_append]
      exact ⟨fun j hj => (hkept' _ (by omega)).trans (hfirst j hj), hlater⟩
    · exact (hkept' a (by omega)).trans (hkept a ha)

/-- Settles O47: the START stands at the whole stream, with both cursors at 0. -/
theorem colorImageRoundTrip : Obligations.ColorImageRoundTrip := by
  intro s c rest cs hinv henc hidle hcalls hrow hwidth hchunks hsource hsrcLen hgrid
  obtain ⟨t, hstep, hbusy, hsp, hdp, -, -, -, hlen, hdelta, -, hheight, -, hcfg, -, hsrc⟩ :=
    startBeginsTheCall s c rest hidle hcalls hrow hwidth
  have hstream : AtStream t cs :=
    { inv := stepKeepsInvariant s t hinv hstep
      busy := hbusy
      enc := by rw [hcfg, henc]
      chunks := by rw [State.pxBytes, hcfg]; exact hchunks
      stands := by rw [hsrc, hsp, hsource]; exact standsAt_writeBytes hinv.src 0 _
      srcLen := by rw [hlen, hsp, hsrcLen, Nat.zero_add]
      room := by rw [hdp, hgrid, State.dstSize, hdelta, hheight, Nat.zero_add] }
  obtain ⟨u, hrun, hok, hstands, -⟩ := hstream.run_succeeds
  exact ⟨u, (run_succ _ hstep).trans hrun, hok, hdp ▸ hstands⟩

end Sys2Proof.Machine
end

section
/-! PROOFS. Special orders and the invalid header bytes (spec/44_special_orders.md): the results of the special FG/BG orders,
WHITE and BLACK as those of their bodies (R140 to R144, R146), and that an invalid header byte fails the call (R145). -/

namespace Sys2Proof.Machine

open Sys2Proof.Claims

/-! ### Results -/

section
variable {c : Config} {f : Form}

/-- The two special FG/BG orders are one body under two masks (spec/44_special_orders.md R140). -/
theorem standsFor_special {mask : Byte}
    (h : (f, mask) = (⟨.specialFgbg1, .specialFgbg1, 8, 1⟩, c.maskSpecial1) ∨
      (f, mask) = (⟨.specialFgbg2, .specialFgbg2, 8, 1⟩, c.maskSpecial2)) : StandsFor c f (.special mask) := by
  rcases h with h | h <;> cases h <;> exact ⟨rfl, rfl, rfl, rfl⟩

/-- WHITE and BLACK are one body with two constants (spec/44_special_orders.md R146). -/
theorem standsFor_single {v : Pixel}
    (h : (f, v) = (⟨.white, .white, 1, 1⟩, c.whitePixel) ∨ (f, v) = (⟨.black, .black, 1, 1⟩, c.blackPixel)) :
    StandsFor c f (.single v) := by
  rcases h with h | h <;> cases h <;> exact ⟨rfl, rfl, rfl, rfl⟩

end

/-- Settles O12: a special FG/BG order has no source phase, so the room for its 8 pixels alone decides. -/
theorem specialFgbgResult : Obligations.SpecialFgbgResult := by
  intro s f mask hform h
  have hf := standsFor_special hform
  have hsp : s.sp + 1 = s.sp + f.advance := by rcases hform with hform | hform <;> cases hform <;> rfl
  rw [hsp]
  exact ⟨hf.exec_completes h nofun, hf.exec_destinationOverflow nofun⟩

/-- Settles O13: WHITE and BLACK have no source phase, and their one pixel is the constant. -/
theorem singlePixelResult : Obligations.SinglePixelResult := by
  intro s f v hform h
  have hf := standsFor_single hform
  have hsp : s.sp + 1 = s.sp + f.advance := by rcases hform with hform | hform <;> cases hform <;> rfl
  rw [hsp, ← Nat.one_mul s.pxBytes]
  exact ⟨hf.exec_completes h nofun, hf.exec_destinationOverflow nofun⟩

/-! ### Invalid header bytes -/

theorem orderCode_invalidForm (b : Byte) : orderCode (invalidForm b) = .invalid := by
  unfold invalidForm
  split_ifs <;> rfl

/-- An order without a valid code fails the call in every state. -/
theorem exec_of_orderCode_invalid {i : Instr} (s : State) (h : orderCode i = .invalid) :
    exec i s = .next (raiseFail .invalidOrderCode s) :=
  exec_of_no_body (bodyOf_eq_none_iff.mpr h)

/-- A header byte with no code decodes alone, whatever follows it (spec/30_encoding.md R75). -/
theorem decode_of_extractCode_invalid {e : Encoding} {b : Byte} (rest : List Byte) (h : extractCode e b = .invalid) :
    decode e (b :: rest) = .ok (invalidForm b, rest) := by
  simp only [decode, h]

/-- While source bytes are left the fetch begins with the byte at the cursor (spec/40_main_loop.md R89). -/
theorem exists_fetchHeader_eq_cons {s : State} (hsp : s.sp < s.srcLen) :
    ∃ rest, fetchHeader s = s.src.read s.sp :: rest := by
  obtain ⟨k, hk⟩ : ∃ k, min 3 (s.srcLen - s.sp) = k + 1 := Nat.exists_eq_add_of_le' (by omega)
  exact ⟨_, by rw [fetchHeader, hk, Memory.readBytes]⟩

/-- An invalid header byte at the cursor makes the step the failure. -/
theorem step_of_invalid_code {s : State} (hbusy : s.status = .busy) (hsp : s.sp < s.srcLen)
    (h : extractCode s.cfg.enc (s.src.read s.sp) = .invalid) :
    step s = .next (raiseFail .invalidOrderCode (firstLineUpdate s)) := by
  obtain ⟨rest, hfetch⟩ := exists_fetchHeader_eq_cons hsp
  have hdecode := decode_of_extractCode_invalid rest h
  rw [← hfetch] at hdecode
  exact (stepRunsDecodedOrder s _ rest hbusy hsp hdecode).trans
    (exec_of_orderCode_invalid _ (orderCode_invalidForm _))

/-- Settles O14: the INVALID forms are those without a valid code, and an invalid header byte decodes to one of them; under
the adopted table the bytes of R75 are those without a code. -/
theorem invalidCodeFailsTheCall : Obligations.InvalidCodeFailsTheCall := by
  refine ⟨fun s x i hi => exec_of_orderCode_invalid s ?_, fun s hbusy hsp =>
    ⟨step_of_invalid_code hbusy hsp, fun henc hbyte => step_of_invalid_code hbusy hsp ?_⟩⟩
  · simp only [List.mem_cons, List.not_mem_nil, or_false] at hi
    rcases hi with rfl | rfl | rfl | rfl | rfl <;> rfl
  · rw [henc]
    exact (extractCode_adopted_eq_invalid_iff _).mpr hbyte

end Sys2Proof.Machine
end

section
/-! PROOFS. Failures (spec/60_exceptions.md): what a failure leaves (R153, R155), which causes an order can raise (R151), and that
a failed machine waits for the host (R160). -/

namespace Sys2Proof.Machine

open Sys2Proof.Claims

/-! ### The causes of an order -/

/-- The row of an order in the table of R151 is that of its body: every body can overflow the destination, and a body with a
source phase can exhaust the source. -/
theorem bodyCauses_of_bodyOf {c : Config} {i : Instr} {b : OrderBody} (h : bodyOf c i = some b) :
    bodyCauses (orderCode i) =
      if b.checksSource = true then [.sourceExhaustion, .destinationOverflow] else [.destinationOverflow] := by
  cases i <;> cases h <;> rfl

/-- The cause of an order that does not fit is in the row of its kind. -/
theorem FailsWith.mem_bodyCauses {i : Instr} {s : State} {c : Cause} (h : FailsWith i s c) :
    c ∈ bodyCauses (orderCode i) := by
  cases h with
  | invalid hb =>
    rw [bodyOf_eq_none_iff.mp hb]
    exact List.mem_singleton_self _
  | source b hb hs =>
    obtain ⟨hchecks, -⟩ := Classical.not_imp.mp hs
    simp [bodyCauses_of_bodyOf hb, hchecks]
  | room b hb hs hd =>
    rw [bodyCauses_of_bodyOf hb]
    split <;> simp

/-- Settles O24: a completed order leaves the call running, so the order failed, with the cause of `FailsWith`. -/
theorem causesPerOrder : Obligations.CausesPerOrder := by
  intro s t i hready hbusy he hfail
  rcases exec_cases hready he with ⟨c, hfails, rfl⟩ | ⟨b, d, -, rfl, -⟩
  · exact hfails.mem_bodyCauses
  · rw [orderEnd_status, hbusy] at hfail
    cases hfail

/-! ### The failure -/

/-- Only InvalidConfiguration spares the destination (spec/60_exceptions.md R155, spec/40_main_loop.md R86). -/
theorem dstAfterFailure_of_ne {c : Cause} (s : State) (hc : c ≠ .invalidConfiguration) :
    dstAfterFailure c s = s.dst.fillBelow s.dstSize (Config.freeDstByte s.freeCount) := by
  cases c with
  | invalidConfiguration => exact absurd rfl hc
  | invalidOrderCode | malformedHeader | sourceExhaustion | destinationOverflow => rfl

/-- Settles O22: the failure is `dstAfterFailure` on the destination, which fills the bytes inside the bound alone. -/
theorem failureEntry : Obligations.FailureEntry := by
  intro c s hwf
  refine ⟨raiseFail_status c s, raiseFail_cause c s, dstAfterFailure_wf hwf c,
    fun a ha => read_dstAfterFailure_of_ge hwf c ha, ?_, fun hc a ha => ?_, ?_⟩
  · rintro rfl
    rfl
  · rw [raiseFail_dst, dstAfterFailure_of_ne s hc, Memory.read_fillBelow hwf, if_pos ha]
  · simp

/-! ### After the failure -/

/-- Settles O25: a failed machine runs no call, so the step is the host's turn. -/
theorem failureIsFinal : Obligations.FailureIsFinal := by
  have not_busy {s : State} (hfail : s.status = .fail) : s.status ≠ .busy := by simp [hfail]
  exact ⟨fun _ hfail hcalls => step_of_hostCalls_nil (not_busy hfail) hcalls,
    fun _ _ _ hfail hcalls => step_of_hostCalls_cons (not_busy hfail) hcalls⟩

end Sys2Proof.Machine
end

section
/-! PROOFS. Reset and hazards (spec/70_reset_and_hazards.md): power-on meets the invariant (R170), `fgPel` moves at set-color
orders alone (R184), and the host's coming calls are out of reach while a call runs (R180). -/

namespace Sys2Proof.Machine

open Sys2Proof.Claims

/-! ### Power-on reset -/

/-- At power-on no call runs and nothing is listed in the memories. -/
theorem powerOn_inv {c : Config} (h : c.wf) : (State.powerOn c).Inv :=
  .of_not_busy h rfl rfl nofun

/-- Settles O34: `State.reset` is the power-on state of one legal build. -/
theorem resetMeetsInvariant : Obligations.ResetMeetsInvariant :=
  ⟨powerOn_inv (Config.adopted_wf .one false), rfl, fun _ hc => ⟨powerOn_inv hc, rfl⟩⟩

/-! ### The foreground colour -/

/-- An order that leaves the call running leaves the foreground colour its body draws with. -/
theorem exec_fgPel {i : Instr} {s t : State} (hready : s.Ready) (he : exec i s = .next t) (ht : t.status = .busy) :
    t.fgPel = if isSetColor (orderCode i) = true then s.src.readBytes (s.sp + headerBytes i) s.pxBytes else s.fgPel := by
  obtain ⟨b, d, hfits, rfl, -⟩ := exec_cases_of_busy hready he ht
  rw [orderEnd_fgPel, OrderBody.fg, bodyOf_setsColor hfits.body]
  rfl

/-- Settles O20: a START that begins a call is call reset, and a completed order leaves the colour of its body. -/
theorem fgPelChangesOnlyAtSetColor : Obligations.FgPelChangesOnlyAtSetColor := by
  refine ⟨fun c s hstart => ?_, fun s t i hready _ => exec_fgPel hready⟩
  rw [startCall_of_busy hstart, callReset_fgPel, hostPlaces_cfg]

/-! ### The host's coming calls -/

/-- `s` with other coming calls. -/
def State.withHostCalls (s : State) (cs : List HostCall) : State := { s with hostCalls := cs }

/-- A move that neither reads nor writes the host's coming calls, wherever it answers a next state. -/
def IgnoresHostCalls (f : State → Host.Outcome State Fault Refusal) : Prop :=
  ∀ (s t : State) (cs : List HostCall), f s = .next t →
    t.hostCalls = s.hostCalls ∧ f (s.withHostCalls cs) = .next (t.withHostCalls cs)

theorem raiseFail_withHostCalls (c : Cause) (s : State) (cs : List HostCall) :
    raiseFail c (s.withHostCalls cs) = (raiseFail c s).withHostCalls cs := rfl

theorem firstLineUpdate_withHostCalls (s : State) (cs : List HostCall) :
    firstLineUpdate (s.withHostCalls cs) = (firstLineUpdate s).withHostCalls cs := by
  unfold firstLineUpdate
  rw [apply_ite (State.withHostCalls · cs)]
  rfl

/-- Under other coming calls a body ends as before: this is `run_rehost` at the `STATUS` that the body keeps. -/
theorem OrderBody.run_withHostCalls (b : OrderBody) (s : State) (cs : List HostCall) :
    b.run (s.withHostCalls cs) = (b.run s).map (·.withHostCalls cs) := by
  have hrehost : b.run (s.withHostCalls cs) = (b.run s).map (rehost s.status cs) := b.run_rehost s.status cs s
  rw [hrehost]
  cases hrun : b.run s with
  | error e => rfl
  | ok t =>
    obtain ⟨hstatus, -⟩ := OrderBody.run_keeps_host hrun
    rw [← hstatus]
    rfl

/-- The frame of an order hands the coming calls through: its body ends the same way, and so does the order. -/
theorem runOrder_ignoresHostCalls (c : OrderCode) (n adv : Nat) (b : OrderBody) :
    IgnoresHostCalls (runOrder c n adv b.run) := by
  intro s t cs h
  have hbody : b.run (loadHeader c n adv (s.withHostCalls cs)) =
      (b.run (loadHeader c n adv s)).map (·.withHostCalls cs) :=
    b.run_withHostCalls (loadHeader c n adv s) cs
  match hrun : b.run (loadHeader c n adv s) with
  | .ok u =>
    rw [hrun] at hbody
    cases (runOrder_of_ok hrun).symm.trans h
    obtain ⟨-, hcalls⟩ := OrderBody.run_keeps_host hrun
    exact ⟨hcalls, runOrder_of_ok hbody⟩
  | .error (.fail e) =>
    rw [hrun] at hbody
    cases (runOrder_of_fail hrun).symm.trans h
    exact ⟨raiseFail_hostCalls e s, runOrder_of_fail hbody⟩
  | .error (.fault f) => simp [runOrder, hrun] at h

theorem exec_ignoresHostCalls (i : Instr) : IgnoresHostCalls (exec i) := by
  intro s t cs h
  cases hb : bodyOf s.cfg i with
  | none =>
    cases (exec_of_no_body hb).symm.trans h
    exact ⟨raiseFail_hostCalls _ s, exec_of_no_body (s := s.withHostCalls cs) hb⟩
  | some b =>
    rw [exec_of_bodyOf hb] at h
    rw [exec_of_bodyOf (s := s.withHostCalls cs) hb]
    exact runOrder_ignoresHostCalls _ _ _ b s t cs h

/-- The fetch and the first-line update do not see the coming calls, and the order ignores them. -/
theorem loopIteration_ignoresHostCalls : IgnoresHostCalls loopIteration := by
  intro s t cs h
  rcases decode_of_loopIteration h with ⟨i, rest, hd⟩ | hd
  · rw [loopIteration_of_decode hd] at h
    rw [loopIteration_of_decode (s := s.withHostCalls cs) hd, firstLineUpdate_withHostCalls]
    simpa using exec_ignoresHostCalls i _ t cs h
  · cases (loopIteration_of_malformed hd).symm.trans h
    rw [loopIteration_of_malformed (s := s.withHostCalls cs) hd, firstLineUpdate_withHostCalls, raiseFail_withHostCalls]
    simp

/-- Settles O42: the step of a running call is one iteration or the end of the call, and neither looks at the coming calls. -/
theorem hostHasNoMoveDuringCall : Obligations.HostHasNoMoveDuringCall := by
  intro s t cs hbusy h
  by_cases hsp : s.sp < s.srcLen
  · rw [step_of_busy hbusy hsp] at h
    obtain ⟨hkept, hsame⟩ := loopIteration_ignoresHostCalls s t cs h
    exact ⟨hkept, (step_of_busy (s := s.withHostCalls cs) hbusy hsp).trans hsame⟩
  · cases (step_at_end hbusy hsp).symm.trans h
    exact ⟨finishCall_hostCalls s, step_at_end (s := s.withHostCalls cs) hbusy hsp⟩

end Sys2Proof.Machine
end
